-- ==== Sys2Proof/Word.lean ====
section
/-! DEFINITION. The word and byte types of the block (00_scope R8, 30_encoding R92). -/

namespace Sys2Proof

/-- A command word, an operand word or a result: a 32-bit number (R8, R92). -/
abbrev Word := BitVec 32

/-- A byte of BUF (R8). -/
abbrev Byte := BitVec 8

/-- A command packet: the words the host presents as a unit (R90). Any number of words may stand here,
so that the decoder answers also the packets the port cannot produce (R100 case d). -/
abbrev Packet := List Word

end Sys2Proof
end

