-- ==== Sys2Proof/Syntax.lean ====
section
/-! DEFINITION. The 17 commands of 30_encoding R98, one constructor per row of opcode_table.json. -/

namespace Sys2Proof

/-- One command with its operands (R95, R96). A count, slot number, register number or length is the unsigned
number its field spells; WellFormed bounds it by the field's width. Operands outside the range the command
accepts are still commands (R101). -/
inductive Instr where
  /-- OPEN, format O: option bits W0[23:3], W0[2], W0[1], W0[0] and the length W1. -/
  | openStream (cfgrsv : BitVec 21) (rb ef le : Bool) (len : Word)
  /-- CLOSE, format N. -/
  | close
  /-- POS, format N. -/
  | pos
  /-- ENDPOS, format N. -/
  | endpos
  /-- PEEK, format N. -/
  | peek
  /-- HASMORE, format N. -/
  | hasmore
  /-- RDBYTE, format N. -/
  | rdbyte
  /-- RDWORD, format N. -/
  | rdword
  /-- RDINT, format N. -/
  | rdint
  /-- RDBIT, format N. -/
  | rdbit
  /-- RDBITS, format C: the bit count W0[5:0]. -/
  | rdbits (n : Nat)
  /-- ALIGN, format N. -/
  | align
  /-- TCREATE, format T: the slot W0[3:0]. -/
  | tcreate (t : Nat)
  /-- TINSERT, format I: slot W0[23:20], length W0[5:0], codeword W1, symbol W2. -/
  | tinsert (t len : Nat) (cw sym : Word)
  /-- TDESTROY, format T. -/
  | tdestroy (t : Nat)
  /-- DECODE, format T. -/
  | decode (t : Nat)
  /-- RDREG, format R: the register number W0[3:0]. -/
  | rdreg (r : Nat)
  deriving DecidableEq, Repr

end Sys2Proof
end

