-- ==== Sys2Proof/WellFormed.lean ====
section
/-! DEFINITION. Which terms of Instr an encoding exists for: every operand fits its field of 30_encoding R95.
This is not R101's operand range, which is the machine's business (Machine/Operands.lean). -/

namespace Sys2Proof
namespace Instr

/-- Every operand fits the field of R95 that carries it. -/
def wf : Instr → Bool
  | .openStream _ _ _ _ _ => true
  | .close => true
  | .pos => true
  | .endpos => true
  | .peek => true
  | .hasmore => true
  | .rdbyte => true
  | .rdword => true
  | .rdint => true
  | .rdbit => true
  | .rdbits n => decide (n < 64)
  | .align => true
  | .tcreate t => decide (t < 16)
  | .tinsert t len _ _ => decide (t < 16) && decide (len < 64)
  | .tdestroy t => decide (t < 16)
  | .decode t => decide (t < 16)
  | .rdreg r => decide (r < 16)

end Instr
end Sys2Proof
end

