-- ==== Sys2Proof/Decode.lean ====
section
/-! DEFINITION. The command encoding of 30_encoding: fields, opcode map, decoder (total on every packet) and
encoder. Section 4 of that file says which packets are illegal. -/

namespace Sys2Proof

/-- Why a packet is not one of the 17 commands: the cases of R100. All end in status ILLEGAL_COMMAND. -/
inductive DecodeError where
  /-- R100 (a): the opcode is not one of R98's. -/
  | undefinedOpcode (op : BitVec 8)
  /-- R100 (b): a field marked 0 in the format is not zero. -/
  | reservedFieldNotZero (op : BitVec 8)
  /-- R100 (c): the packet's word count is not the count of its opcode. -/
  | wrongWordCount (op : BitVec 8)
  /-- R100 (d): no word at all. -/
  | emptyPacket
  /-- R100 (d): more than three words. -/
  | packetTooLong
  deriving DecidableEq, Repr

/-- OP = W0[31:24] (R95). -/
def opcode (w0 : Word) : BitVec 8 := w0.extractLsb' 24 8

/-- The number of words of an opcode's packet (R97): 2 for 0x01, 3 for 0x11, 1 for every other value,
defined or not. -/
def packetWords (op : BitVec 8) : Nat :=
  if op = 0x01#8 then 2 else if op = 0x11#8 then 3 else 1

/-- Format N (R95): bits 23:0 must be zero. -/
def formatN (w0 : Word) (i : Instr) : Except DecodeError Instr :=
  if w0.extractLsb' 0 24 = 0#24 then .ok i else .error (.reservedFieldNotZero (opcode w0))

/-- Format C (R95): bits 23:6 must be zero, bits 5:0 are the bit count. -/
def formatC (w0 : Word) (i : Nat → Instr) : Except DecodeError Instr :=
  if w0.extractLsb' 6 18 = 0#18 then .ok (i (w0.extractLsb' 0 6).toNat)
  else .error (.reservedFieldNotZero (opcode w0))

/-- Formats T and R (R95): bits 23:4 must be zero, bits 3:0 are the slot or register number. -/
def formatT (w0 : Word) (i : Nat → Instr) : Except DecodeError Instr :=
  if w0.extractLsb' 4 20 = 0#20 then .ok (i (w0.extractLsb' 0 4).toNat)
  else .error (.reservedFieldNotZero (opcode w0))

/-- Format O (R95): three option bits, the unrecognised option bits, and the length. No bit of it is a
must-be-zero field (R99). -/
def formatO (w0 w1 : Word) : Instr :=
  .openStream (w0.extractLsb' 3 21) (w0.getLsbD 2) (w0.getLsbD 1) (w0.getLsbD 0) w1

/-- Format I (R95): slot in bits 23:20, bits 19:6 must be zero, length in bits 5:0, then codeword and symbol. -/
def formatI (w0 w1 w2 : Word) : Except DecodeError Instr :=
  if w0.extractLsb' 6 14 = 0#14 then
    .ok (.tinsert (w0.extractLsb' 20 4).toNat (w0.extractLsb' 0 6).toNat w1 w2)
  else .error (.reservedFieldNotZero (opcode w0))

/-- The one-word rows of R98. -/
def decodeOneWord (w0 : Word) : Except DecodeError Instr :=
  match opcode w0 with
  | 0x02#8 => formatN w0 .close
  | 0x03#8 => formatN w0 .pos
  | 0x04#8 => formatN w0 .endpos
  | 0x05#8 => formatN w0 .peek
  | 0x06#8 => formatN w0 .hasmore
  | 0x08#8 => formatN w0 .rdbyte
  | 0x09#8 => formatN w0 .rdword
  | 0x0A#8 => formatN w0 .rdint
  | 0x0B#8 => formatN w0 .rdbit
  | 0x0C#8 => formatC w0 .rdbits
  | 0x0D#8 => formatN w0 .align
  | 0x10#8 => formatT w0 .tcreate
  | 0x12#8 => formatT w0 .tdestroy
  | 0x13#8 => formatT w0 .decode
  | 0x1F#8 => formatT w0 .rdreg
  | 0x01#8 => .error (.wrongWordCount 0x01#8)
  | 0x11#8 => .error (.wrongWordCount 0x11#8)
  | op => .error (.undefinedOpcode op)

/-- The opcodes of R98. -/
def definedOpcodes : List (BitVec 8) :=
  [0x01#8, 0x02#8, 0x03#8, 0x04#8, 0x05#8, 0x06#8, 0x08#8, 0x09#8, 0x0A#8, 0x0B#8, 0x0C#8, 0x0D#8,
    0x10#8, 0x11#8, 0x12#8, 0x13#8, 0x1F#8]

/-- A packet of the wrong length for its opcode, or of an undefined opcode (R100 a, c). -/
def wrongLength (w0 : Word) : DecodeError :=
  if opcode w0 ∈ definedOpcodes then .wrongWordCount (opcode w0) else .undefinedOpcode (opcode w0)

/-- The decoder (R95 to R102): every packet is one of the 17 commands or is rejected by name. -/
def decodePacket : Packet → Except DecodeError Instr
  | [] => .error .emptyPacket
  | [w0] => decodeOneWord w0
  | [w0, w1] => if opcode w0 = 0x01#8 then .ok (formatO w0 w1) else .error (wrongLength w0)
  | [w0, w1, w2] => if opcode w0 = 0x11#8 then formatI w0 w1 w2 else .error (wrongLength w0)
  | _ => .error .packetTooLong

/-- The first word from an opcode and its 24 low bits (R95). -/
def headWord (op : BitVec 8) (low : BitVec 24) : Word := op ++ low

/-- The low bits of formats T and R. -/
def lowT (t : Nat) : BitVec 24 := 0#20 ++ BitVec.ofNat 4 t

/-- The encoder: the packet of a command (R95, and the encoding column of R105). -/
def encode : Instr → Packet
  | .openStream cfgrsv rb ef le len =>
    [headWord 0x01#8 (cfgrsv ++ BitVec.ofBool rb ++ BitVec.ofBool ef ++ BitVec.ofBool le), len]
  | .close => [headWord 0x02#8 0#24]
  | .pos => [headWord 0x03#8 0#24]
  | .endpos => [headWord 0x04#8 0#24]
  | .peek => [headWord 0x05#8 0#24]
  | .hasmore => [headWord 0x06#8 0#24]
  | .rdbyte => [headWord 0x08#8 0#24]
  | .rdword => [headWord 0x09#8 0#24]
  | .rdint => [headWord 0x0A#8 0#24]
  | .rdbit => [headWord 0x0B#8 0#24]
  | .rdbits n => [headWord 0x0C#8 (0#18 ++ BitVec.ofNat 6 n)]
  | .align => [headWord 0x0D#8 0#24]
  | .tcreate t => [headWord 0x10#8 (lowT t)]
  | .tinsert t len cw sym =>
    [headWord 0x11#8 (BitVec.ofNat 4 t ++ 0#14 ++ BitVec.ofNat 6 len), cw, sym]
  | .tdestroy t => [headWord 0x12#8 (lowT t)]
  | .decode t => [headWord 0x13#8 (lowT t)]
  | .rdreg r => [headWord 0x1F#8 (lowT r)]

/-- R97: cut a flat listing of words into packets, each as long as its first word's opcode says. A listing
that ends inside a packet gives that packet the words there are (DEDUCED, safe: it then fails whole with
ILLEGAL_COMMAND; log 10). The first argument bounds the number of packets. -/
def splitListingUpTo : Nat → List Word → List Packet
  | 0, _ => []
  | _ + 1, [] => []
  | k + 1, w :: ws =>
    (w :: ws.take (packetWords (opcode w) - 1)) ::
      splitListingUpTo k (ws.drop (packetWords (opcode w) - 1))

/-- R97 over a whole listing: there are at most as many packets as words. -/
def splitListing (ws : List Word) : List Packet := splitListingUpTo ws.length ws

/-- The packet whose bits are w, numbered as opcode_table.json numbers them: word k is bits 32k+31 to 32k.
Bits at and above nbits are zero, and a packet has at least the words its opcode asks for (log 11). -/
def tablePacket (nbits w : Nat) : Packet :=
  let bits := w % 2 ^ nbits
  (List.range (max ((nbits + 31) / 32) (packetWords (opcode (BitVec.ofNat 32 bits))))).map
    fun k => BitVec.ofNat 32 (bits >>> (32 * k))

/-- The command the decoder reads from table bits w, none where it rejects them. -/
def decodeTableWord (nbits w : Nat) : Option Instr := (decodePacket (tablePacket nbits w)).toOption

end Sys2Proof
end

