-- ==== Sys2Proof/Config.lean ====
section
/-! DEFINITION. The implementation parameters of 00_scope R9. "The model takes each as an argument": State
holds a Config that no command and no reset changes (10_state R48), so a statement over every state is a
statement over every setting of the parameters (log 1). -/

namespace Sys2Proof

/-- The named parameters of R9. BUF, the sixth, is the field buf of State. -/
structure Config where
  /-- SYM_W: width in bits of a tree symbol. -/
  symW : Nat
  /-- PLACEHOLDER: the symbol value a new node holds (R33). -/
  placeholder : Word
  /-- N_TREES: number of tree slots (R31). -/
  nTrees : Nat
  /-- NODE_CAP: number of non-root nodes the shared pool can hold (R35). -/
  nodeCap : Nat
  /-- RST_RESCAN: is the byte fetched after a restart marker itself run through the filter (R171, R172 point 5). -/
  rstRescan : Bool
  deriving DecidableEq, Repr

namespace Config

/-- The defaults of R9; PLACEHOLDER is 2^SYM_W - 1 at SYM_W = 16. -/
def default : Config where
  symW := 16
  placeholder := 0xFFFF
  nTrees := 4
  nodeCap := 1024
  rstRescan := false

/-- The legal ranges of R9. The bound on NODE_CAP is DEDUCED, safe: NODES has 32 bits (R35, R39) and holds up
to NODE_CAP (log 6). -/
abbrev Legal (c : Config) : Prop :=
  (1 ≤ c.symW ∧ c.symW ≤ 32) ∧ c.placeholder.toNat < 2 ^ c.symW ∧
    (1 ≤ c.nTrees ∧ c.nTrees ≤ 16) ∧ c.nodeCap < 2 ^ 32

end Config
end Sys2Proof
end

