-- ==== Sys2Proof/Machine/State.lean ====
section
/-! DEFINITION. The state of the block (10_state R21) with what the host holds for it, and the state after
reset (10_state section 6). -/

namespace Sys2Proof.Machine

/-- The status codes of 60_exceptions R250. Codes 8 to 255 are never produced. -/
inductive Status where
  | ok
  | outOfBounds
  | invalidRead
  | invalidArgs
  | allocationFailure
  | illegalCommand
  | badState
  | noBranch
  deriving DecidableEq, Repr

/-- A tree, or none: a child of a node is none or a node (R32), a slot is absent or a root node (R31).
Node identity is not observable, so a tree is an inductive value (R37). -/
inductive PTree where
  /-- No node: an absent child, or an absent slot. -/
  | nil
  /-- A node with its symbol, zero-branch child and one-branch child (R32). -/
  | node (sym : Word) (zero one : PTree)
  deriving DecidableEq, Repr

/-- The answer to one packet (R90, R93): a status and, for some commands when it is OK, a 32-bit result. -/
structure Response where
  status : Status
  result : Option Word
  deriving DecidableEq, Repr

/-- What the host does to the block, between commands. The list of these in State is the model's own (log 2). -/
inductive HostInput where
  /-- Present one packet at the command port (R90, R91). -/
  | packet (ws : Packet)
  /-- Place bytes in BUF from index base on (R61, R285). -/
  | bufWrite (base : Nat) (bytes : List Byte)
  /-- Signal reset (R280, R281). -/
  | reset
  deriving DecidableEq, Repr

/-- BUF as a list of (index, byte) cells, indices strictly rising; an index not listed holds no byte (log 4). -/
abbrev Memory := List Host.Cell

/-- The state. The first ten fields are the block's own (R21); TREES is computed from trees (R36). The last
four are the parameters (R9, R48), BUF (R61), and the host's side of the port (R22, R90). -/
structure State where
  /-- OPENF (R23). -/
  openf : Bool
  /-- CFG, its three implemented bits (R24): bit 0 LE, bit 1 EF, bit 2 RB. -/
  cfg : BitVec 3
  /-- LEN (R26). -/
  len : Word
  /-- POS (R27). -/
  pos : Word
  /-- BITOFF (R28). -/
  bitoff : BitVec 3
  /-- CURBYTE (R29). -/
  curbyte : Word
  /-- tree[0] to tree[N_TREES - 1] (R31). -/
  trees : List PTree
  /-- NODES (R35). -/
  nodes : Word
  /-- FAULT, its eight implemented bits (R38). -/
  fault : BitVec 8
  /-- The parameters (R9), never changed by a step (R48). -/
  config : Config
  /-- BUF (R60, R61). -/
  buf : Memory
  /-- What the host does next, oldest first. -/
  inputs : List HostInput
  /-- The responses given so far, oldest first (R22). -/
  responses : List Response
  deriving DecidableEq, Repr

/-- Why the model stops. The block itself never stops answering (R240). -/
inductive Fault where
  /-- A read of a BUF index below LEN at which the host has supplied no byte: raised by memRead. The host has
  broken R290 and the spec gives the run no meaning (93 U2). Safe: nothing is proved of such a run. -/
  | bufByteAbsent (a : Nat)
  deriving DecidableEq, Repr

/-- Why the model gives no meaning to a step. -/
inductive Refusal where
  /-- An instruction without a meaning yet. No arm of exec answers it. Safe. -/
  | notModelled (mnemonic : String)
  /-- The host changes a byte of BUF below LEN while the stream is open: raised by hostBufWrite. The host has
  broken R291 and the spec gives the run no meaning (93 U1). Safe. -/
  | bufChangedWhileOpen
  deriving DecidableEq, Repr

namespace State

/-- The state after reset of an instance with the given parameters (R45, R46, R47): every register 0, every
slot absent. BUF has no reset value (R48); nothing is supplied yet (log 4). -/
def resetWith (c : Config) : State where
  openf := false
  cfg := 0
  len := 0
  pos := 0
  bitoff := 0
  curbyte := 0
  trees := List.replicate c.nTrees .nil
  nodes := 0
  fault := 0
  config := c
  buf := []
  inputs := []
  responses := []

/-- The machine right after reset, with R9's default parameters. -/
def reset : State := resetWith Config.default

end State
end Sys2Proof.Machine
end

