-- ==== Sys2Proof/Machine/Ops.lean ====
section
/-! DEFINITION. The shared operations: BUF, the result of a primitive and its sequencing (00_scope R12), the
cursor primitives (40_cursor section 1), tree slots and node operations (10_state section 3), delivery of a
fault and completion of a command (60_exceptions section 2), and the registers by number (10_state R39). -/

namespace Sys2Proof.Machine

/-! ### BUF -/

/-- The byte at index a, none where the host has supplied none (R60, R62; log 4). -/
def Memory.read : Memory → Nat → Option Byte
  | [], _ => none
  | (k, v) :: m, a => if a = k then some v else Memory.read m a

/-- Place one byte, keeping the indices strictly rising. Only the host does this (R61, R64). -/
def Memory.write : Memory → Nat → Byte → Memory
  | [], a, b => [(a, b)]
  | (k, v) :: m, a, b =>
    if a < k then (a, b) :: (k, v) :: m
    else if a = k then (a, b) :: m
    else (k, v) :: Memory.write m a b

/-- Place bytes at base, base + 1, … -/
def Memory.writeBytes : Memory → Nat → List Byte → Memory
  | m, _, [] => m
  | m, a, b :: bs => Memory.writeBytes (Memory.write m a b) (a + 1) bs

/-- The canonical form: indices strictly rising. An unlisted index holds no byte, so no entry can equal what
an unlisted index reads as. -/
def Memory.wf : Memory → Bool
  | [] => true
  | [_] => true
  | c :: d :: m => decide (c.1 < d.1) && Memory.wf (d :: m)

/-! ### Status codes -/

/-- The number of a status (R250). -/
def Status.code : Status → BitVec 8
  | .ok => 0
  | .outOfBounds => 1
  | .invalidRead => 2
  | .invalidArgs => 3
  | .allocationFailure => 4
  | .illegalCommand => 5
  | .badState => 6
  | .noBranch => 7

/-! ### Results of primitives (R12) -/

/-- How a primitive ends. The state in raise holds every write made before the raise: there is no rollback
(R256). stop is no behaviour of the block: the run has no meaning (Fault). -/
inductive Res (α : Type) where
  | ok (v : α) (s : State)
  | raise (k : Status) (s : State)
  | stop (f : Fault)
  deriving Repr

/-- A primitive or a command body. -/
abbrev Op (α : Type) := State → Res α

/-- A value and no write. -/
def Op.pure (v : α) : Op α := fun s => .ok v s

/-- raise K (R12): the command stops at once, the writes made so far stay made. -/
def Op.fail (k : Status) : Op α := fun s => .raise k s

/-- One primitive after another, in pseudocode order. -/
def Op.bind (x : Op α) (f : α → Op β) : Op β := fun s =>
  match x s with
  | .ok v s' => f v s'
  | .raise k s' => .raise k s'
  | .stop r => .stop r

/-- A test that fails with status k before anything else is done (R241). -/
def Op.require (c : State → Bool) (k : Status) (rest : Op α) : Op α := fun s =>
  if c s then rest s else .raise k s

/-- A register write. -/
def Op.modify (f : State → State) : Op Unit := fun s => .ok () (f s)

/-! ### Fault delivery and completion -/

/-- The FAULT latch (R38, R255): the first status other than OK since reset stays. -/
def State.latchFault (s : State) (k : Status) : State :=
  if s.fault = 0 then { s with fault := k.code } else s

/-- Give the response to the current packet (R90, R93). -/
def State.respond (s : State) (k : Status) (r : Option Word) : State :=
  { s with responses := s.responses ++ [⟨k, r⟩] }

/-- TAKING A FAULT (R255, R258): latch its code and answer with it, without a result. Nothing is saved, no
mode changes, control goes nowhere. There is no return from a fault (R259): the next packet is executed
normally, from this state (R242). -/
def State.deliverFault (s : State) (k : Status) : State :=
  (s.latchFault k).respond k none

/-- Run a command body and complete the command (R93, R255): status OK with the result it returned, or the
fault it raised. -/
def complete (body : Op (Option Word)) (s : State) : Host.Outcome State Fault Refusal :=
  match body s with
  | .ok r s' => .next (s'.respond .ok r)
  | .raise k s' => .next (s'.deliverFault k)
  | .stop f => .fault f

/-! ### The cursor (40_cursor section 1) -/

/-- The number of bytes not yet consumed, LEN - POS. -/
def State.remaining (s : State) : Nat := s.len.toNat - s.pos.toNat

/-- The test POS > LEN - 1 over the integers (R131), which is LEN <= POS (log 5). -/
def State.atEnd (s : State) : Bool := decide (s.len.toNat ≤ s.pos.toNat)

/-- MemRead(BUF, a, 1) (R12, R62): no side effect. -/
def memRead (a : Nat) : Op Byte := fun s =>
  match s.buf.read a with
  | some b => .ok b s
  | none => .stop (.bufByteAbsent a)

/-- CurPeek() (R131): the byte at POS, which stays. -/
def curPeek : Op Byte :=
  Op.require (fun s => !s.atEnd) .outOfBounds fun s => memRead s.pos.toNat s

/-- CurRead() (R132): the byte at POS, and POS advances past it. The bounds test comes first, so a failing
CurRead leaves POS unchanged. -/
def curRead : Op Byte :=
  Op.bind curPeek fun b => Op.bind (Op.modify fun s => { s with pos := s.pos + 1 }) fun _ => Op.pure b

/-! ### Trees (10_state section 3) -/

/-- Is there a node here. -/
def PTree.present : PTree → Bool
  | .nil => false
  | .node _ _ _ => true

/-- child(n, b) (R11). -/
def PTree.child : PTree → Bool → PTree
  | .nil, _ => .nil
  | .node _ zero _, false => zero
  | .node _ _ one, true => one

/-- child(n, b) <- c. -/
def PTree.setChild : PTree → Bool → PTree → PTree
  | .nil, _, _ => .nil
  | .node sym _ one, false, c => .node sym c one
  | .node sym zero _, true, c => .node sym zero c

/-- The symbol of the root; PLACEHOLDER or what TINSERT wrote. -/
def PTree.sym? : PTree → Option Word
  | .nil => none
  | .node sym _ _ => some sym

/-- n.sym <- v. -/
def PTree.setSym : PTree → Word → PTree
  | .nil, _ => .nil
  | .node _ zero one, v => .node v zero one

/-- A freshly created node, root or not (R33). -/
def PTree.fresh (placeholder : Word) : PTree := .node placeholder .nil .nil

/-- The number of nodes of a tree, its root included. -/
def PTree.count : PTree → Nat
  | .nil => 0
  | .node _ zero one => 1 + PTree.count zero + PTree.count one

/-- The number of non-root nodes (R35). -/
def PTree.poolNodes (t : PTree) : Nat := t.count - 1

/-- The node a branch sequence reaches from the root, nil where the path leaves the tree (R200). -/
def PTree.walk : PTree → List Bool → PTree
  | t, [] => t
  | t, b :: bs => PTree.walk (t.child b) bs

/-- The greatest depth of a node, counted in branches from the root (R34). -/
def PTree.depth : PTree → Nat
  | .nil => 0
  | .node _ zero one =>
    max (if zero.present then 1 + PTree.depth zero else 0) (if one.present then 1 + PTree.depth one else 0)

/-- tree[t] (R31); absent where there is no such slot. -/
def State.tree (s : State) (t : Nat) : PTree := s.trees.getD t .nil

/-- tree[t] <- v. -/
def State.setTree (s : State) (t : Nat) (v : PTree) : State := { s with trees := s.trees.set t v }

/-! ### The registers by number (10_state R39) -/

/-- CFG as read: bits 31:3 are hardwired 0 (R24). -/
def State.cfgReg (s : State) : Word := s.cfg.setWidth 32

/-- Bit t is 1 when slot t is present (R36). -/
def presenceBits : List PTree → Word
  | [] => 0
  | t :: ts => (presenceBits ts <<< 1) ||| (if t.present then 1 else 0)

/-- TREES (R36): derived from the slots. -/
def State.treesReg (s : State) : Word := presenceBits s.trees

/-- FAULT as read: bits 31:8 read 0 (R38). -/
def State.faultReg (s : State) : Word := s.fault.setWidth 32

/-- The register r of R39 as RDREG reads it, none for 9 and above. -/
def State.reg (s : State) : Nat → Option Word
  | 0 => some s.cfgReg
  | 1 => some s.len
  | 2 => some s.pos
  | 3 => some (s.bitoff.setWidth 32)
  | 4 => some s.curbyte
  | 5 => some (if s.openf then 1 else 0)
  | 6 => some s.treesReg
  | 7 => some s.nodes
  | 8 => some s.faultReg
  | _ => none

end Sys2Proof.Machine
end

