-- ==== Sys2Proof/Machine/Flags.lean ====
section
/-! DEFINITION. The three option flags of CFG and what each selects (20_memory sections 4 and 5), and the
state preconditions (60_exceptions R262). The block has no arithmetic flags. -/

namespace Sys2Proof.Machine

/-- CFG.LE (R24). -/
def State.le (s : State) : Bool := s.cfg.getLsbD 0

/-- CFG.EF (R24). -/
def State.ef (s : State) : Bool := s.cfg.getLsbD 1

/-- CFG.RB (R24). -/
def State.rb (s : State) : Bool := s.cfg.getLsbD 2

/-- The 16-bit value of two bytes, b0 consumed first, zero-extended (R68). -/
def assemble16 (le : Bool) (b0 b1 : Byte) : Word :=
  if le then b0.setWidth 32 ||| (b1.setWidth 32 <<< 8)
  else (b0.setWidth 32 <<< 8) ||| b1.setWidth 32

/-- The 32-bit value of four bytes, b0 consumed first (R68). -/
def assemble32 (le : Bool) (b0 b1 b2 b3 : Byte) : Word :=
  if le then
    b0.setWidth 32 ||| (b1.setWidth 32 <<< 8) ||| (b2.setWidth 32 <<< 16) ||| (b3.setWidth 32 <<< 24)
  else
    (b0.setWidth 32 <<< 24) ||| (b1.setWidth 32 <<< 16) ||| (b2.setWidth 32 <<< 8) ||| b3.setWidth 32

/-- The bit of the data byte in CURBYTE that is handed out at offset k (R70, R173). -/
def selectBit (rb : Bool) (curbyte : Word) (k : BitVec 3) : Bool :=
  if rb then curbyte.getLsbD k.toNat else curbyte.getLsbD (7 - k.toNat)

/-- A bit as a 32-bit value, zext_32(bit). -/
def bitWord (b : Bool) : Word := if b then 1 else 0

/-- Pack bit i of an RDBITS into the accumulator (R71, R176). -/
def packBit (rb : Bool) (i : Nat) (acc : Word) (b : Bool) : Word :=
  if rb then acc ||| (bitWord b <<< i) else (acc <<< 1) ||| bitWord b

/-- The stream is open (R262). -/
def isOpen (s : State) : Bool := s.openf

/-- The stream is closed (R262). -/
def isClosed (s : State) : Bool := !s.openf

/-- tree[t] is present (R262). -/
def slotPresent (t : Nat) (s : State) : Bool := (s.tree t).present

/-- tree[t] is absent (R262). -/
def slotAbsent (t : Nat) (s : State) : Bool := !(s.tree t).present

end Sys2Proof.Machine
end

