-- ==== Sys2Proof/Machine/Operands.lean ====
section
/-! DEFINITION. Operand ranges (30_encoding R101) and operand assembly (R96): what the command rules test
before anything else, and how operands become the values they work with. -/

namespace Sys2Proof.Machine

/-- t names a slot: t < N_TREES (R101). -/
def slotInRange (t : Nat) (s : State) : Bool := decide (t < s.config.nTrees)

/-- The bit count of RDBITS is at most 32 (R101, R176). -/
def bitCountInRange (n : Nat) (_ : State) : Bool := decide (n ≤ 32)

/-- The register number of RDREG is at most 8 (R101, R245). -/
def regInRange (r : Nat) (_ : State) : Bool := decide (r ≤ 8)

/-- The operands of OPEN: no unrecognised option bit, and a length of at least 1 (R101, R135). -/
def openArgsInRange (cfgrsv : BitVec 21) (len : Word) (_ : State) : Bool :=
  decide (cfgrsv = 0) && decide (len ≠ 0)

/-- The operands of TINSERT: a slot, a length of 1 to 32, a symbol below 2^SYM_W (R101, R206). -/
def insertArgsInRange (t len : Nat) (sym : Word) (s : State) : Bool :=
  slotInRange t s && decide (1 ≤ len) && decide (len ≤ 32) && decide (sym.toNat < 2 ^ s.config.symW)

/-- CFG from the option bits of OPEN: LE is bit 0, EF bit 1, RB bit 2 (R24, R135). -/
def cfgOf (rb ef le : Bool) : BitVec 3 :=
  BitVec.ofBool rb ++ BitVec.ofBool ef ++ BitVec.ofBool le

/-- The len bits of a codeword in walking order, cw[len-1] down to cw[0] (R206). Higher bits are not looked
at (R96). -/
def codewordBits (cw : Word) : Nat → List Bool
  | 0 => []
  | k + 1 => cw.getLsbD k :: codewordBits cw k

end Sys2Proof.Machine
end

