-- ==== Sys2Proof/Machine/BitReader.lean ====
section
/-! DEFINITION. The bit-reader commands and the escape filter (41_bitreader). -/

namespace Sys2Proof.Machine

/-! ### Availability and byte-aligned reads -/

/-- HASMORE (R160): the literal definition, POS against LEN - 1. -/
def execHasmore (s : State) : Host.Outcome State Fault Refusal :=
  complete
    (Op.require isOpen .badState fun s => .ok (some (bitWord (decide (s.pos ≠ s.len - 1)))) s) s

/-- BITOFF <- 0. -/
def clearBitoff : Op Unit := Op.modify fun s => { s with bitoff := 0 }

/-- RDBYTE (R161). BITOFF is cleared first, so also when the cursor then fails. -/
def execRdbyte (s : State) : Host.Outcome State Fault Refusal :=
  complete
    (Op.require isOpen .badState <|
      Op.bind clearBitoff fun _ =>
      Op.bind curRead fun b => Op.pure (some (b.setWidth 32))) s

/-- RDWORD (R162). -/
def execRdword (s : State) : Host.Outcome State Fault Refusal :=
  complete
    (Op.require isOpen .badState <|
      Op.bind clearBitoff fun _ =>
      Op.bind curRead fun b0 =>
      Op.bind curRead fun b1 => fun s => .ok (some (assemble16 s.le b0 b1)) s) s

/-- RDINT (R163). -/
def execRdint (s : State) : Host.Outcome State Fault Refusal :=
  complete
    (Op.require isOpen .badState <|
      Op.bind clearBitoff fun _ =>
      Op.bind curRead fun b0 =>
      Op.bind curRead fun b1 =>
      Op.bind curRead fun b2 =>
      Op.bind curRead fun b3 => fun s => .ok (some (assemble32 s.le b0 b1 b2 b3)) s) s

/-! ### The escape filter (R171) -/

/-- The bytes 0xD0 to 0xD7 (R16). -/
def isRestartMarker (m : Byte) : Bool := decide (0xD0#8 ≤ m) && decide (m ≤ 0xD7#8)

/-- The inner loop of FetchDataByte with the peek before it: skip each further 0xFF and give the byte that
follows the run, which is not consumed. The first argument is at least the number of bytes left; when it is
0 none is left, where CurPeek raises OUT_OF_BOUNDS (log 9). -/
def skipRun : Nat → Op Byte
  | 0 => Op.fail .outOfBounds
  | k + 1 =>
    Op.bind curPeek fun m =>
      if m = 0xFF#8 then Op.bind curRead fun _ => skipRun k else Op.pure m

/-- The outer loop of FetchDataByte, entered with b = 0xFF just consumed; gives the data byte. The first
argument is at least the number of bytes left (log 9). -/
def resolveEscape : Nat → Op Byte
  | 0 => Op.fail .outOfBounds
  | k + 1 =>
    Op.bind (fun s => skipRun s.remaining s) fun m =>
      if m = 0x00#8 then Op.bind curRead fun _ => Op.pure 0xFF#8
      else if isRestartMarker m then
        Op.bind curRead fun _ =>
        Op.bind curRead fun b => fun s =>
          if s.config.rstRescan && decide (b = 0xFF#8) then resolveEscape k s else .ok b s
      else Op.fail .invalidRead

/-- The data byte of a consumed byte: itself, or what the filter resolves a 0xFF to. -/
def dataByte (b : Byte) : Op Byte := fun s =>
  if s.ef && decide (b = 0xFF#8) then resolveEscape s.remaining s else .ok b s

/-- FetchDataByte() (R171). CURBYTE is written once, after a valid data byte is established (R172 point 4). -/
def fetchDataByte : Op Unit :=
  Op.require (fun s => !s.atEnd) .invalidRead <|
    Op.bind curRead fun b =>
    Op.bind (dataByte b) fun d => Op.modify fun s => { s with curbyte := d.setWidth 32 }

/-! ### Bit reads -/

/-- ReadBit() (R173). BITOFF has 3 bits, so adding 1 is (BITOFF + 1) mod 8. -/
def readBit : Op Bool :=
  Op.bind (fun s => if s.bitoff = 0 then fetchDataByte s else .ok () s) fun _ => fun s =>
    .ok (selectBit s.rb s.curbyte s.bitoff) { s with bitoff := s.bitoff + 1 }

/-- The loop of RDBITS (R176): bits i, i + 1, … into the accumulator; the last argument counts the bits still
to read. -/
def readBits (i : Nat) (acc : Word) : Nat → Op Word
  | 0 => Op.pure acc
  | k + 1 => Op.bind readBit fun b => fun s => readBits (i + 1) (packBit s.rb i acc b) k s

/-- RDBIT (R175). -/
def execRdbit (s : State) : Host.Outcome State Fault Refusal :=
  complete
    (Op.require isOpen .badState <|
      Op.bind readBit fun b => Op.pure (some (bitWord b))) s

/-- RDBITS (R176). -/
def execRdbits (n : Nat) (s : State) : Host.Outcome State Fault Refusal :=
  complete
    (Op.require (bitCountInRange n) .invalidArgs <|
      Op.require isOpen .badState <|
        Op.bind (readBits 0 0 n) fun v => Op.pure (some v)) s

/-- ALIGN (R177). -/
def execAlign (s : State) : Host.Outcome State Fault Refusal :=
  complete
    (Op.require isOpen .badState <|
      Op.bind clearBitoff fun _ => Op.pure none) s

end Sys2Proof.Machine
end

