-- ==== Sys2Proof/Machine/Cursor.lean ====
section
/-! DEFINITION. The cursor and stream-control commands (40_cursor section 2). -/

namespace Sys2Proof.Machine

/-- The registers of a newly opened stream (R135). -/
def State.openWith (s : State) (cfg : BitVec 3) (len : Word) : State :=
  { s with cfg := cfg, len := len, pos := 0, bitoff := 0, curbyte := 0, openf := true }

/-- The six stream registers back at their reset values (R136). -/
def State.closeStream (s : State) : State :=
  { s with openf := false, cfg := 0, len := 0, pos := 0, bitoff := 0, curbyte := 0 }

/-- OPEN (R135). The option-bit test and the length test have one outcome (R241). -/
def execOpenStream (cfgrsv : BitVec 21) (rb ef le : Bool) (len : Word) (s : State) :
    Host.Outcome State Fault Refusal :=
  complete
    (Op.require (openArgsInRange cfgrsv len) .invalidArgs <|
      Op.require isClosed .badState <|
        Op.bind (Op.modify fun s => s.openWith (cfgOf rb ef le) len) fun _ => Op.pure none) s

/-- CLOSE (R136). -/
def execClose (s : State) : Host.Outcome State Fault Refusal :=
  complete
    (Op.require isOpen .badState <|
      Op.bind (Op.modify State.closeStream) fun _ => Op.pure none) s

/-- POS (R137). -/
def execPos (s : State) : Host.Outcome State Fault Refusal :=
  complete (Op.require isOpen .badState fun s => .ok (some s.pos) s) s

/-- ENDPOS (R138). -/
def execEndpos (s : State) : Host.Outcome State Fault Refusal :=
  complete (Op.require isOpen .badState fun s => .ok (some (s.len - 1)) s) s

/-- PEEK (R139). -/
def execPeek (s : State) : Host.Outcome State Fault Refusal :=
  complete
    (Op.require isOpen .badState <|
      Op.bind curPeek fun b => Op.pure (some (b.setWidth 32))) s

end Sys2Proof.Machine
end

