-- ==== Sys2Proof/Machine/PrefixTree.lean ====
section
/-! DEFINITION. The prefix-code tree commands (42_prefix_tree). -/

namespace Sys2Proof.Machine

/-- TCREATE (R205). -/
def execTcreate (t : Nat) (s : State) : Host.Outcome State Fault Refusal :=
  complete
    (Op.require (slotInRange t) .invalidArgs <|
      Op.require (slotAbsent t) .badState <|
        Op.bind (Op.modify fun s => s.setTree t (PTree.fresh s.config.placeholder)) fun _ => Op.pure none) s

/-- What the walk of TINSERT leaves: the tree, NODES, and whether a node had to be created with the pool full. -/
structure InsertResult where
  tree : PTree
  nodes : Word
  full : Bool
  deriving DecidableEq, Repr

/-- The walk of TINSERT (R206) over the codeword's bits, most-significant first, from node n: a missing child
is created while the pool has room, and the node at the end gets the symbol. When the pool is full the nodes
created so far stay and the symbol is not written. A walk is never entered at nil. -/
def insertWalk (c : Config) (sym : Word) : List Bool → PTree → Word → InsertResult
  | [], n, nodes => ⟨n.setSym sym, nodes, false⟩
  | b :: bs, n, nodes =>
    if (n.child b).present then
      let r := insertWalk c sym bs (n.child b) nodes
      ⟨n.setChild b r.tree, r.nodes, r.full⟩
    else if nodes.toNat = c.nodeCap then ⟨n, nodes, true⟩
    else
      let r := insertWalk c sym bs (PTree.fresh c.placeholder) (nodes + 1)
      ⟨n.setChild b r.tree, r.nodes, r.full⟩

/-- The body of TINSERT after its tests. The operand test has sym below 2^SYM_W, so sym[SYM_W-1:0] is sym. -/
def insertBody (t len : Nat) (cw sym : Word) : Op (Option Word) := fun s =>
  let r := insertWalk s.config sym (codewordBits cw len) (s.tree t) s.nodes
  let s' := { s.setTree t r.tree with nodes := r.nodes }
  if r.full then .raise .allocationFailure s' else .ok none s'

/-- TINSERT (R206). -/
def execTinsert (t len : Nat) (cw sym : Word) (s : State) : Host.Outcome State Fault Refusal :=
  complete
    (Op.require (insertArgsInRange t len sym) .invalidArgs <|
      Op.require (slotPresent t) .badState <| insertBody t len cw sym) s

/-- The pool takes back every non-root node of tree[t] and the slot becomes absent (R207). -/
def State.releaseTree (s : State) (t : Nat) : State :=
  { s.setTree t .nil with nodes := s.nodes - BitVec.ofNat 32 (s.tree t).poolNodes }

/-- TDESTROY (R207). -/
def execTdestroy (t : Nat) (s : State) : Host.Outcome State Fault Refusal :=
  complete
    (Op.require (slotInRange t) .invalidArgs <|
      Op.require (slotPresent t) .badState <|
        Op.bind (Op.modify fun s => s.releaseTree t) fun _ => Op.pure none) s

/-- The walk of DECODE (R208) from a node: a childless node gives its symbol; otherwise one bit is read and
selects the child, and where that child is none the walk ends in NO_BRANCH with the bit consumed. -/
def decodeWalk : PTree → Op Word
  | .nil => Op.fail .noBranch
  | .node sym zero one =>
    if zero.present || one.present then
      Op.bind readBit fun b => if b then decodeWalk one else decodeWalk zero
    else Op.pure sym

/-- DECODE (R208). The tree is not written. -/
def execDecode (t : Nat) (s : State) : Host.Outcome State Fault Refusal :=
  complete
    (Op.require (slotInRange t) .invalidArgs <|
      Op.require (fun s => slotPresent t s && isOpen s) .badState <|
        Op.bind (fun s => decodeWalk (s.tree t) s) fun v => Op.pure (some v)) s

end Sys2Proof.Machine
end

