-- ==== Sys2Proof/Machine/System.lean ====
section
/-! DEFINITION. The system command (43_system section 2), the answer to an illegal packet (30_encoding R100),
and what the host does besides presenting packets (20_memory R61, 70_reset section 1). -/

namespace Sys2Proof.Machine

/-- RDREG (R245): no state precondition, no side effect. -/
def execRdreg (r : Nat) (s : State) : Host.Outcome State Fault Refusal :=
  complete (Op.require (regInRange r) .invalidArgs fun s => .ok (s.reg r) s) s

/-- An illegal packet (R100): ILLEGAL_COMMAND, and no state changes but the FAULT latch. -/
def rejectPacket (s : State) : Host.Outcome State Fault Refusal :=
  complete (Op.fail .illegalCommand) s

/-- Would placing these bytes change a byte of BUF that an open stream covers (R291). -/
def changesCovered (s : State) : Nat → List Byte → Bool
  | _, [] => false
  | a, b :: bs =>
    (s.openf && decide (a < s.len.toNat) && decide (s.buf.read a ≠ some b)) || changesCovered s (a + 1) bs

/-- The host places bytes in BUF (R61, R285). A change of a covered byte has no meaning (93 U1; log 4). -/
def hostBufWrite (base : Nat) (bytes : List Byte) (s : State) : Host.Outcome State Fault Refusal :=
  if changesCovered s base bytes then .refused .bufChangedWhileOpen
  else .next { s with buf := s.buf.writeBytes base bytes }

/-- Reset (R280, R281): every piece of the block's state at its reset value; BUF and the parameters are
untouched (R48), and so is the host's side of the port (log 3). -/
def State.hostReset (s : State) : State :=
  { State.resetWith s.config with buf := s.buf, inputs := s.inputs, responses := s.responses }

end Sys2Proof.Machine
end

