-- ==== Sys2Proof/Machine/Dispatch.lean ====
section
/-! DEFINITION. One arm per command (43_system section 1). -/

namespace Sys2Proof.Machine

def exec (i : Instr) (s : State) : Host.Outcome State Fault Refusal :=
  match i with
  | .openStream cfgrsv rb ef le len => Sys2Proof.Machine.execOpenStream cfgrsv rb ef le len s
  | .close => Sys2Proof.Machine.execClose s
  | .pos => Sys2Proof.Machine.execPos s
  | .endpos => Sys2Proof.Machine.execEndpos s
  | .peek => Sys2Proof.Machine.execPeek s
  | .hasmore => Sys2Proof.Machine.execHasmore s
  | .rdbyte => Sys2Proof.Machine.execRdbyte s
  | .rdword => Sys2Proof.Machine.execRdword s
  | .rdint => Sys2Proof.Machine.execRdint s
  | .rdbit => Sys2Proof.Machine.execRdbit s
  | .rdbits n => Sys2Proof.Machine.execRdbits n s
  | .align => Sys2Proof.Machine.execAlign s
  | .tcreate t => Sys2Proof.Machine.execTcreate t s
  | .tinsert t len cw sym => Sys2Proof.Machine.execTinsert t len cw sym s
  | .tdestroy t => Sys2Proof.Machine.execTdestroy t s
  | .decode t => Sys2Proof.Machine.execDecode t s
  | .rdreg r => Sys2Proof.Machine.execRdreg r s

end Sys2Proof.Machine
end

