-- ==== Sys2Proof/Machine/Step.lean ====
section
/-! DEFINITION. One step of the block (43_system R240): take the host's next input and act on it. -/

namespace Sys2Proof.Machine

/-- Execute one packet (R240, R241 step 1): the command it decodes to, or ILLEGAL_COMMAND. -/
def runPacket (ws : Packet) (s : State) : Host.Outcome State Fault Refusal :=
  match decodePacket ws with
  | .ok i => exec i s
  | .error _ => rejectPacket s

/-- Take the oldest input of the host and act on it. With none the block is idle and holds its state (R275,
R282; log 2). -/
def step (s : State) : Host.Outcome State Fault Refusal :=
  match s.inputs with
  | [] => .next s
  | .packet ws :: rest => runPacket ws { s with inputs := rest }
  | .bufWrite base bytes :: rest => hostBufWrite base bytes { s with inputs := rest }
  | .reset :: rest => .next ({ s with inputs := rest } : State).hostReset

/-- The packet with these table bits presented as the host's next input, before any other (log 2). -/
def State.withFetchWord (s : State) (nbits w : Nat) : State :=
  { s with inputs := .packet (tablePacket nbits w) :: s.inputs }

end Sys2Proof.Machine
end

