-- ==== Sys2Proof/Machine/Assembler.lean ====
section
/-! DEFINITION. The assembler syntax of 30_encoding R105: one command per line of text. It is the notation of the
spec's own listings; the block never sees it. What R105 leaves to an assembler is in log 15. -/

namespace Sys2Proof

/-- A space or a tab. -/
def isBlank (c : Char) : Bool := c == ' ' || c == '\t'

/-- Without the blanks at both ends. -/
def trimBlanks (cs : List Char) : List Char :=
  ((cs.dropWhile isBlank).reverse.dropWhile isBlank).reverse

/-- The pieces between separators; one more than there are separators. -/
def pieces (sep : Char) : List Char → List (List Char)
  | [] => [[]]
  | c :: cs =>
    if c = sep then [] :: pieces sep cs
    else
      match pieces sep cs with
      | [] => [[c]]
      | p :: ps => (c :: p) :: ps

/-- The value of a digit in a base of at most 16. -/
def digitValue (base : Nat) (c : Char) : Option Nat :=
  let v :=
    if '0' ≤ c ∧ c ≤ '9' then c.toNat - 48
    else if 'a' ≤ c ∧ c ≤ 'f' then c.toNat - 87
    else if 'A' ≤ c ∧ c ≤ 'F' then c.toNat - 55
    else base
  if v < base then some v else none

/-- Digits, most significant first, after a number already read. -/
def digitsValue (base : Nat) : Nat → List Char → Option Nat
  | n, [] => some n
  | n, c :: cs => (digitValue base c).bind fun d => digitsValue base (n * base + d) cs

/-- A number of R105: decimal, 0x hex or 0b binary. -/
def numberValue : List Char → Option Nat
  | [] => none
  | ['0', 'x'] => none
  | ['0', 'b'] => none
  | '0' :: 'x' :: ds => digitsValue 16 0 ds
  | '0' :: 'b' :: ds => digitsValue 2 0 ds
  | ds => digitsValue 10 0 ds

/-- A number an operand's field can hold. -/
def fieldValue (bound : Nat) (cs : List Char) : Option Nat := (numberValue cs).filter (· < bound)

/-- The option names of OPEN (R105). -/
def optionValue (cs : List Char) : Option Nat :=
  if cs = "LE".toList then some 1
  else if cs = "EF".toList then some 2
  else if cs = "RB".toList then some 4
  else none

/-- Option names joined by plus signs. -/
def optionsValue : List (List Char) → Option Nat
  | [] => some 0
  | p :: ps => (optionValue (trimBlanks p)).bind fun a => (optionsValue ps).map fun b => a ||| b

/-- The cfg operand of OPEN: a number up to 0xFFFFFF or option names (R105). -/
def cfgValue (cs : List Char) : Option Nat :=
  match numberValue cs with
  | some n => if n < 0x1000000 then some n else none
  | none => optionsValue (pieces '+' cs)

/-- The register names of R39, in the order of their numbers. -/
def registerNames : List String :=
  ["CFG", "LEN", "POS", "BITOFF", "CURBYTE", "OPENF", "TREES", "NODES", "FAULT"]

/-- The r operand of RDREG: a number 0 to 15 or a register name (R105). -/
def registerValue (cs : List Char) : Option Nat :=
  match numberValue cs with
  | some n => if n < 16 then some n else none
  | none => registerNames.findIdx? fun name => name.toList == cs

/-- The commands without operands. -/
def plainCommand (m : List Char) : Option Instr :=
  if m = "CLOSE".toList then some .close
  else if m = "POS".toList then some .pos
  else if m = "ENDPOS".toList then some .endpos
  else if m = "PEEK".toList then some .peek
  else if m = "HASMORE".toList then some .hasmore
  else if m = "RDBYTE".toList then some .rdbyte
  else if m = "RDWORD".toList then some .rdword
  else if m = "RDINT".toList then some .rdint
  else if m = "RDBIT".toList then some .rdbit
  else if m = "ALIGN".toList then some .align
  else none

/-- The commands with one operand. -/
def oneOperandCommand (m a : List Char) : Option Instr :=
  if m = "RDBITS".toList then (fieldValue 64 a).map .rdbits
  else if m = "TCREATE".toList then (fieldValue 16 a).map .tcreate
  else if m = "TDESTROY".toList then (fieldValue 16 a).map .tdestroy
  else if m = "DECODE".toList then (fieldValue 16 a).map .decode
  else if m = "RDREG".toList then (registerValue a).map .rdreg
  else none

/-- OPEN cfg, len. -/
def openCommand (a b : List Char) : Option Instr :=
  (cfgValue a).bind fun cfg => (fieldValue 0x100000000 b).map fun len =>
    .openStream (BitVec.ofNat 21 (cfg / 8)) (cfg.testBit 2) (cfg.testBit 1) (cfg.testBit 0)
      (BitVec.ofNat 32 len)

/-- TINSERT t, len, cw, sym. -/
def insertCommand (a b c d : List Char) : Option Instr :=
  (fieldValue 16 a).bind fun t => (fieldValue 64 b).bind fun len =>
    (fieldValue 0x100000000 c).bind fun cw => (fieldValue 0x100000000 d).map fun sym =>
      .tinsert t len (BitVec.ofNat 32 cw) (BitVec.ofNat 32 sym)

/-- The text of a line without its comment (R105). -/
def lineText (line : List Char) : List Char := trimBlanks (line.takeWhile fun c => c != ';')

/-- The command a line of assembler text stands for (R105); none where it is not of the syntax. -/
def parseLine (line : List Char) : Option Instr :=
  let text := lineText line
  let m := text.takeWhile fun c => !isBlank c
  let rest := trimBlanks (text.dropWhile fun c => !isBlank c)
  if rest = [] then plainCommand m
  else
    match (pieces ',' rest).map trimBlanks with
    | [a] => oneOperandCommand m a
    | [a, b] => if m = "OPEN".toList then openCommand a b else none
    | [a, b, c, d] => if m = "TINSERT".toList then insertCommand a b c d else none
    | _ => none

/-- The packet of a line. -/
def assembleLine (line : List Char) : Option Packet := (parseLine line).map encode

/-- The packets of a listing, in line order; a line that is only blanks and comment gives none. -/
def assembleListing : List (List Char) → Option (List Packet)
  | [] => some []
  | l :: ls =>
    if lineText l = [] then assembleListing ls
    else (assembleLine l).bind fun p => (assembleListing ls).map fun ps => p :: ps

end Sys2Proof
end

