-- ==== Sys2Proof/Safety.lean ====
section
/-! DEFINITION. The terms the statements use: the invariant of 10_state R50, what a host must supply
(70_reset section 3), what commands may do, and what the stream and the trees stand for, each written from the
rules without the machine's own operations where a rule allows it. -/

namespace Sys2Proof

/-! ### The opcode table (R98) -/

/-- The mnemonic of a command (R98). -/
def Instr.mnemonic : Instr → String
  | .openStream _ _ _ _ _ => "OPEN"
  | .close => "CLOSE"
  | .pos => "POS"
  | .endpos => "ENDPOS"
  | .peek => "PEEK"
  | .hasmore => "HASMORE"
  | .rdbyte => "RDBYTE"
  | .rdword => "RDWORD"
  | .rdint => "RDINT"
  | .rdbit => "RDBIT"
  | .rdbits _ => "RDBITS"
  | .align => "ALIGN"
  | .tcreate _ => "TCREATE"
  | .tinsert _ _ _ _ => "TINSERT"
  | .tdestroy _ => "TDESTROY"
  | .decode _ => "DECODE"
  | .rdreg _ => "RDREG"

/-- One row of R98: mnemonic, number of words, mask and match of the first word. -/
structure OpcodeRow where
  mnemonic : String
  words : Nat
  mask : Word
  val : Word
  deriving DecidableEq, Repr

/-- The 17 rows of R98. -/
def opcodeRows : List OpcodeRow :=
  [⟨"OPEN", 2, 0xFF000000, 0x01000000⟩, ⟨"CLOSE", 1, 0xFFFFFFFF, 0x02000000⟩,
    ⟨"POS", 1, 0xFFFFFFFF, 0x03000000⟩, ⟨"ENDPOS", 1, 0xFFFFFFFF, 0x04000000⟩,
    ⟨"PEEK", 1, 0xFFFFFFFF, 0x05000000⟩, ⟨"HASMORE", 1, 0xFFFFFFFF, 0x06000000⟩,
    ⟨"RDBYTE", 1, 0xFFFFFFFF, 0x08000000⟩, ⟨"RDWORD", 1, 0xFFFFFFFF, 0x09000000⟩,
    ⟨"RDINT", 1, 0xFFFFFFFF, 0x0A000000⟩, ⟨"RDBIT", 1, 0xFFFFFFFF, 0x0B000000⟩,
    ⟨"RDBITS", 1, 0xFFFFFFC0, 0x0C000000⟩, ⟨"ALIGN", 1, 0xFFFFFFFF, 0x0D000000⟩,
    ⟨"TCREATE", 1, 0xFFFFFFF0, 0x10000000⟩, ⟨"TINSERT", 3, 0xFF0FFFC0, 0x11000000⟩,
    ⟨"TDESTROY", 1, 0xFFFFFFF0, 0x12000000⟩, ⟨"DECODE", 1, 0xFFFFFFF0, 0x13000000⟩,
    ⟨"RDREG", 1, 0xFFFFFFF0, 0x1F000000⟩]

/-- A packet is the command of a row (R98). -/
def OpcodeRow.matches (r : OpcodeRow) : Packet → Bool
  | [] => false
  | w0 :: rest => decide (w0 &&& r.mask = r.val) && decide (rest.length + 1 = r.words)

/-- The bits of the first word that R95 marks 0 in the format of an opcode: format N, C, T and R, I; format O has
none (R99). -/
def mustBeZero (op : BitVec 8) : Word :=
  if op = 0x01 then 0
  else if op = 0x0C then 0x00FFFFC0
  else if op = 0x11 then 0x000FFFC0
  else if op = 0x10 ∨ op = 0x12 ∨ op = 0x13 ∨ op = 0x1F then 0x00FFFFF0
  else 0x00FFFFFF

/-- The illegal packets as R100 lists them: (d) empty or longer than three words, (a) one of these opcodes, (b) a
bit that must be zero, (c) not the word count of the opcode (R97). -/
def illegalPacket : Packet → Bool
  | [] => true
  | w0 :: rest =>
    let op := w0.extractLsb' 24 8
    decide (3 < rest.length + 1) ||
      decide (op = 0x00 ∨ op = 0x07 ∨ op = 0x0E ∨ op = 0x0F ∨ (0x14 ≤ op.toNat ∧ op.toNat ≤ 0x1E) ∨
        0x20 ≤ op.toNat) ||
      decide (w0 &&& mustBeZero op ≠ 0) ||
      decide (rest.length + 1 ≠ if op = 0x01 then 2 else if op = 0x11 then 3 else 1)

namespace Machine

/-! ### Runs of commands -/

/-- Commands one after another, whatever the status of each (R22). -/
def runInstrs : List Instr → State → Host.Outcome State Fault Refusal
  | [], s => .next s
  | i :: is, s =>
    match exec i s with
    | .next t => runInstrs is t
    | .fault f => .fault f
    | .refused r => .refused r

/-- A command completed with OK, nothing written but the response (R93). -/
def State.answered (s : State) (r : Option Word) : State :=
  { s with responses := s.responses ++ [⟨.ok, r⟩] }

/-- A command failed with k, nothing written but the FAULT latch and the response (R17, R255). -/
def State.failed (s : State) (k : Status) : State :=
  { s with fault := if s.fault = 0 then k.code else s.fault, responses := s.responses ++ [⟨k, none⟩] }

/-! ### What the host supplies -/

/-- BUF holds LEN bytes (R290). -/
abbrev State.BufSupplied (s : State) : Prop :=
  ∀ a, a < s.len.toNat → (s.buf.read a).isSome = true

/-- The next unconsumed bytes of the stream are bs, all below LEN. -/
abbrev State.Holds (s : State) (bs : List Byte) : Prop :=
  ∀ i, i < bs.length → s.pos.toNat + i < s.len.toNat ∧ s.buf.read (s.pos.toNat + i) = bs[i]?

/-! ### The invariant (R50) -/

/-- Every symbol of the tree is below a bound. -/
def PTree.symsBelow (bound : Nat) : PTree → Bool
  | .nil => true
  | .node sym zero one => decide (sym.toNat < bound) && zero.symsBelow bound && one.symsBelow bound

/-- The number of non-root nodes of all present trees together (R35). -/
def poolTotal (ts : List PTree) : Nat := (ts.map PTree.poolNodes).sum

/-- What R50 says of every reachable state, with the legal parameters (R9), the number of slots (R31), symbols
of SYM_W bits (R32), the legal values of FAULT (R39) and the canonical form of BUF. -/
structure State.Inv (s : State) : Prop where
  /-- R50 point 1. -/
  closedCleared : s.openf = false →
    s.cfg = 0 ∧ s.len = 0 ∧ s.pos = 0 ∧ s.bitoff = 0 ∧ s.curbyte = 0
  /-- R50 point 2. -/
  openBounds : s.openf = true → 1 ≤ s.len.toNat ∧ s.pos.toNat ≤ s.len.toNat
  /-- R50 point 3. -/
  curbyteIsByte : s.curbyte.toNat ≤ 255
  /-- R50 point 4. -/
  nodesWithinCap : s.nodes.toNat ≤ s.config.nodeCap
  /-- R50 point 4. -/
  nodesCounted : s.nodes.toNat = poolTotal s.trees
  /-- R50 point 5: CURBYTE holds a byte of BUF that has been consumed (a stuffed pair's 0xFF is one). -/
  curbyteWasRead : s.bitoff ≠ 0 →
    ∃ a, a < s.pos.toNat ∧ s.buf.read a = some (s.curbyte.setWidth 8)
  /-- R50 point 6. -/
  depthBounded : ∀ t ∈ s.trees, t.depth ≤ 32
  /-- R9. -/
  legalConfig : s.config.Legal
  /-- R31. -/
  slotCount : s.trees.length = s.config.nTrees
  /-- R32. -/
  symbolsFit : ∀ t ∈ s.trees, t.symsBelow (2 ^ s.config.symW) = true
  /-- R39. -/
  faultLegal : s.fault.toNat ≤ 7
  /-- The canonical form of BUF. -/
  bufCanonical : s.buf.wf = true

end Machine

/-! ### What each command needs, returns, raises -/

open Machine

/-- The operand ranges of R101 (and R9 for the parameters). -/
def Instr.operandsInRange (c : Config) : Instr → Bool
  | .openStream cfgrsv _ _ _ len => cfgrsv == 0 && len != 0
  | .rdbits n => n ≤ 32
  | .tcreate t => t < c.nTrees
  | .tinsert t len _ sym => t < c.nTrees && 1 ≤ len && len ≤ 32 && sym.toNat < 2 ^ c.symW
  | .tdestroy t => t < c.nTrees
  | .decode t => t < c.nTrees
  | .rdreg r => r ≤ 8
  | .close | .pos | .endpos | .peek | .hasmore | .rdbyte | .rdword | .rdint | .rdbit | .align => true

/-- The state preconditions of R262. -/
def Instr.stateReady (s : State) : Instr → Bool
  | .openStream _ _ _ _ _ => !s.openf
  | .close | .pos | .endpos | .peek | .hasmore | .rdbyte | .rdword | .rdint | .rdbit | .rdbits _ | .align =>
    s.openf
  | .tcreate t => s.tree t == .nil
  | .tinsert t _ _ _ => s.tree t != .nil
  | .tdestroy t => s.tree t != .nil
  | .decode t => s.tree t != .nil && s.openf
  | .rdreg _ => true

/-- The commands that return a result when their status is OK (R93). -/
def Instr.returnsResult : Instr → Bool
  | .pos | .endpos | .peek | .hasmore | .rdbyte | .rdword | .rdint | .rdbit | .rdbits _ | .decode _
  | .rdreg _ => true
  | .openStream _ _ _ _ _ | .close | .align | .tcreate _ | .tinsert _ _ _ _ | .tdestroy _ => false

/-- The statuses a command can complete with (R251, R262), besides OK. -/
def Instr.mayRaise : Instr → List Status
  | .openStream _ _ _ _ _ => [.invalidArgs, .badState]
  | .close | .pos | .endpos | .hasmore | .align => [.badState]
  | .peek | .rdbyte | .rdword | .rdint => [.badState, .outOfBounds]
  | .rdbit => [.badState, .outOfBounds, .invalidRead]
  | .rdbits _ => [.invalidArgs, .badState, .outOfBounds, .invalidRead]
  | .tcreate _ | .tdestroy _ => [.invalidArgs, .badState]
  | .tinsert _ _ _ _ => [.invalidArgs, .badState, .allocationFailure]
  | .decode _ => [.invalidArgs, .badState, .outOfBounds, .invalidRead, .noBranch]
  | .rdreg _ => [.invalidArgs]

/-- The commands that can write OPENF, CFG and LEN (R30). -/
def Instr.setsStream : Instr → Bool
  | .openStream _ _ _ _ _ | .close => true
  | _ => false

/-- The commands that can write POS (R30). -/
def Instr.movesCursor : Instr → Bool
  | .openStream _ _ _ _ _ | .close | .rdbyte | .rdword | .rdint | .rdbit | .rdbits _ | .decode _ => true
  | _ => false

/-- The commands that can write BITOFF (R30). -/
def Instr.movesBits : Instr → Bool
  | .align => true
  | i => i.movesCursor

/-- The commands that can write CURBYTE (R30). -/
def Instr.fetches : Instr → Bool
  | .openStream _ _ _ _ _ | .close | .rdbit | .rdbits _ | .decode _ => true
  | _ => false

/-- The slot a command can write (R205 to R207). -/
def Instr.writesSlot : Instr → Option Nat
  | .tcreate t => some t
  | .tinsert t _ _ _ => some t
  | .tdestroy t => some t
  | _ => none

/-- The commands that can write NODES (R206, R207). -/
def Instr.writesNodes : Instr → Bool
  | .tinsert _ _ _ _ | .tdestroy _ => true
  | _ => false

namespace Machine

/-! ### The bits of an unfiltered stream (R70, R71, R173, R176) -/

/-- Bit k of a byte in the stream's bit order (R70). -/
def orderedBit (rb : Bool) (b : Byte) (k : Nat) : Bool :=
  if rb then b.getLsbD k else b.getLsbD (7 - k)

/-- With the escape filter off, bit j of those to come: the bits of CURBYTE not yet handed out (when BITOFF is
not 0), then the bytes from POS on; none at or beyond LEN. -/
def State.plainBit (s : State) (j : Nat) : Option Bool :=
  let k := s.bitoff.toNat + j
  let started := if s.bitoff = 0 then 0 else 1
  if k / 8 < started then some (orderedBit s.rb (s.curbyte.setWidth 8) (k % 8))
  else
    let a := s.pos.toNat + (k / 8 - started)
    if a < s.len.toNat then (s.buf.read a).map fun b => orderedBit s.rb b (k % 8) else none

/-- The bits to come begin with these. -/
abbrev State.HoldsBits (s : State) (bits : List Bool) : Prop :=
  ∀ j, j < bits.length → s.plainBit j = bits[j]?

/-- The number of bytes that reading n bits fetches. -/
def State.bytesFetched (s : State) (n : Nat) : Nat :=
  (s.bitoff.toNat + n + 7) / 8 - (if s.bitoff = 0 then 0 else 1)

/-- The stream registers after n bits have been read with the filter off. -/
def State.afterPlainBits (s : State) (n : Nat) : State :=
  { s with
    pos := s.pos + BitVec.ofNat 32 (s.bytesFetched n)
    bitoff := s.bitoff + BitVec.ofNat 3 n
    curbyte :=
      if s.bytesFetched n = 0 then s.curbyte
      else ((s.buf.read (s.pos.toNat + s.bytesFetched n - 1)).getD 0).setWidth 32 }

/-- The number whose bits, first bit least significant, these are (R71, CFG.RB = 1). -/
def lsbFirst : List Bool → Nat
  | [] => 0
  | b :: bs => b.toNat + 2 * lsbFirst bs

/-- The number whose bits, first bit most significant, these are (R71, CFG.RB = 0). -/
def msbFirst (bits : List Bool) : Nat := lsbFirst bits.reverse

/-- The value RDBITS makes of the bits it reads (R176). -/
def packedBits (rb : Bool) (bits : List Bool) : Word :=
  BitVec.ofNat 32 (if rb then lsbFirst bits else msbFirst bits)

/-! ### The escape filter over a list of bytes (R171, R174) -/

/-- What a fetch ends in: a data byte or a fault, and the number of bytes consumed. -/
abbrev Fetched := Except Status Byte × Nat

/-- Bytes consumed before. -/
def Fetched.after (k : Nat) (r : Fetched) : Fetched := (r.1, r.2 + k)

/-- The bytes after a consumed 0xFF, to the end of the buffer. -/
def unescape (rescan : Bool) : List Byte → Fetched
  | [] => (.error .outOfBounds, 0)
  | [m] =>
    if m = 0xFF#8 then (.error .outOfBounds, 1)
    else if m = 0x00#8 then (.ok 0xFF#8, 1)
    else if 0xD0 ≤ m.toNat ∧ m.toNat ≤ 0xD7 then (.error .outOfBounds, 1)
    else (.error .invalidRead, 0)
  | m :: b :: rest =>
    if m = 0xFF#8 then Fetched.after 1 (unescape rescan (b :: rest))
    else if m = 0x00#8 then (.ok 0xFF#8, 1)
    else if 0xD0 ≤ m.toNat ∧ m.toNat ≤ 0xD7 then
      if rescan && b == 0xFF#8 then Fetched.after 2 (unescape rescan rest) else (.ok b, 2)
    else (.error .invalidRead, 0)

/-- A fetch from the bytes that are left. -/
def fetchFrom (ef rescan : Bool) : List Byte → Fetched
  | [] => (.error .invalidRead, 0)
  | b :: rest =>
    if ef && b == 0xFF#8 then Fetched.after 1 (unescape rescan rest) else (.ok b, 1)

/-- The first bit of a fetched data byte has been handed out: n bytes consumed, the byte in CURBYTE. -/
def State.afterFetch (s : State) (n : Nat) (d : Byte) : State :=
  { s with pos := s.pos + BitVec.ofNat 32 n, curbyte := d.setWidth 32, bitoff := 1 }

/-- The response to an RDBIT that fetched d: its first bit (R173). -/
def firstBit (rb : Bool) (d : Byte) : Word := if orderedBit rb d 0 then 1 else 0

/-! ### Trees as maps from bit sequences (R200) -/

/-- How many of the first n nodes on a path below the root are missing. -/
def PTree.missing (t : PTree) (path : List Bool) (n : Nat) : Nat :=
  ((List.range n).filter fun k => !(t.walk (path.take (k + 1))).present).length

/-- Every node has both children or none. -/
def PTree.isComplete : PTree → Bool
  | .nil => true
  | .node _ zero one => (zero.present == one.present) && zero.isComplete && one.isComplete

end Machine
end Sys2Proof
end

