-- ==== Sys2Proof/Certificates/Slice0/Obligations.lean ====
section
/-! DEFINITION. The statements for the provers. Each docstring names the rules of spec/ it formalises. A
statement that fixes the next state by an equation states the frame with it: every field it does not mention
is that of the state before. -/

open Sys2Proof Sys2Proof.Machine

/-! ### Reset, invariant, step -/

/-- R45, R46, R47, R280: after reset of an instance with any parameters every register reads 0, every slot is
absent and no fault is recorded. -/
def Obligations.ResetClearsEverything : Prop :=
  ∀ c : Config,
    (∀ r, r ≤ 8 → (State.resetWith c).reg r = some 0) ∧
    (∀ t, (State.resetWith c).tree t = .nil) ∧
    (State.resetWith c).openf = false ∧ (State.resetWith c).fault = 0 ∧ (State.resetWith c).config = c

/-- R280, R281, R48: reset, signalled between commands, puts every piece of the block's state at its reset
value and leaves BUF and the parameters. That the host's own lists stay is the model's choice (log 3). -/
def Obligations.HostResetRestoresResetState : Prop :=
  ∀ (s : State) (rest : List HostInput), s.inputs = .reset :: rest →
    step s = .next
      { openf := false, cfg := 0, len := 0, pos := 0, bitoff := 0, curbyte := 0,
        trees := List.replicate s.config.nTrees .nil, nodes := 0, fault := 0,
        config := s.config, buf := s.buf, inputs := rest, responses := s.responses }

/-- The invariant of R50 holds right after reset, for every legal setting of the parameters. -/
def Obligations.ResetMeetsInvariant : Prop :=
  State.reset.Inv ∧ ∀ c : Config, c.Legal → (State.resetWith c).Inv

/-- R50: every step, whatever the host does, keeps the invariant. -/
def Obligations.StepKeepsInvariant : Prop :=
  ∀ s t : State, s.Inv → step s = .next t → t.Inv

/-- A step runs the command its packet decodes to, with the packet taken from the host's list; the packet that
withFetchWord presents is the one the next step takes; with no input the idle block holds its state (R275,
R282). The list of inputs is the model's (log 2). -/
def Obligations.StepRunsDecodedCommand : Prop :=
  (∀ (s : State) (ws : Packet) (rest : List HostInput) (i : Instr),
    s.inputs = .packet ws :: rest → decodePacket ws = .ok i →
      step s = exec i { s with inputs := rest }) ∧
  (∀ (s : State) (nbits w : Nat) (i : Instr), decodeTableWord nbits w = some i →
    step (s.withFetchWord nbits w) = exec i s) ∧
  (∀ s : State, s.inputs = [] → step s = .next s)

/-- R100, R102: every packet is either a command or one of those R100 lists, and those complete with
ILLEGAL_COMMAND, without a result, and change nothing but the FAULT latch. -/
def Obligations.IllegalPacketRejected : Prop :=
  (∀ ws : Packet, illegalPacket ws = true ↔ ∀ i, decodePacket ws ≠ .ok i) ∧
  ∀ (s : State) (ws : Packet) (rest : List HostInput), s.inputs = .packet ws :: rest →
    illegalPacket ws = true →
    step s = .next (({ s with inputs := rest } : State).failed .illegalCommand)

/-- R240: every packet, legal or not, has exactly one outcome, a response, as long as the host keeps its
promise that BUF holds LEN bytes (R290); the result is there exactly when R93 says. -/
def Obligations.EveryPacketAnswered : Prop :=
  ∀ (s : State) (ws : Packet) (rest : List HostInput), s.BufSupplied → s.inputs = .packet ws :: rest →
    ∃ (t : State) (r : Response),
      step s = .next t ∧ t.responses = s.responses ++ [r] ∧ t.inputs = rest ∧
      (r.result.isSome = true ↔
        r.status = .ok ∧ ∃ i, decodePacket ws = .ok i ∧ i.returnsResult = true)

/-! ### Encoding -/

/-- Decoding an encoded command gives it back, for every command and every operand its encoding admits. -/
def Obligations.DecodeOfEncode : Prop :=
  ∀ i : Instr, i.wf = true → decodePacket (encode i) = .ok i

/-- A packet that decodes is the encoding of the command, which is well formed: no bit is dropped. -/
def Obligations.EncodeOfDecode : Prop :=
  ∀ (ws : Packet) (i : Instr), decodePacket ws = .ok i → encode i = ws ∧ i.wf = true

/-- R98, R102: a packet is the command of a row exactly when it matches the row's mask, match and word count,
and every packet that decodes is the command of a row. -/
def Obligations.OpcodeTableDecides : Prop :=
  (∀ (ws : Packet) (r : OpcodeRow), r ∈ opcodeRows →
    (r.matches ws = true ↔ ∃ i, decodePacket ws = .ok i ∧ i.mnemonic = r.mnemonic)) ∧
  (∀ i : Instr, ∃ r ∈ opcodeRows, i.mnemonic = r.mnemonic)

/-- R105: the encoding column of the assembler syntax. -/
def Obligations.EncodingColumn : Prop :=
  (∀ (cfg : BitVec 24) (len : Word),
    decodePacket [0x01000000#32 ||| cfg.setWidth 32, len] =
      .ok (.openStream (cfg.extractLsb' 3 21) (cfg.getLsbD 2) (cfg.getLsbD 1) (cfg.getLsbD 0) len)) ∧
  encode .close = [0x02000000#32] ∧ encode .pos = [0x03000000#32] ∧ encode .endpos = [0x04000000#32] ∧
  encode .peek = [0x05000000#32] ∧ encode .hasmore = [0x06000000#32] ∧ encode .rdbyte = [0x08000000#32] ∧
  encode .rdword = [0x09000000#32] ∧ encode .rdint = [0x0A000000#32] ∧ encode .rdbit = [0x0B000000#32] ∧
  (∀ n, n < 64 → encode (.rdbits n) = [0x0C000000#32 ||| BitVec.ofNat 32 n]) ∧
  encode .align = [0x0D000000#32] ∧
  (∀ t, t < 16 → encode (.tcreate t) = [0x10000000#32 ||| BitVec.ofNat 32 t]) ∧
  (∀ t len cw sym, t < 16 → len < 64 →
    encode (.tinsert t len cw sym) =
      [0x11000000#32 ||| (BitVec.ofNat 32 t <<< 20) ||| BitVec.ofNat 32 len, cw, sym]) ∧
  (∀ t, t < 16 → encode (.tdestroy t) = [0x12000000#32 ||| BitVec.ofNat 32 t]) ∧
  (∀ t, t < 16 → encode (.decode t) = [0x13000000#32 ||| BitVec.ofNat 32 t]) ∧
  (∀ r, r < 16 → encode (.rdreg r) = [0x1F000000#32 ||| BitVec.ofNat 32 r])

/-- R106: the worked encodings, from assembler text (R105) to words and from words to commands. -/
def Obligations.WorkedEncodings : Prop :=
  assembleLine "OPEN EF, 3".toList = some [0x01000002#32, 0x00000003#32] ∧
  assembleLine "RDBITS 8".toList = some [0x0C000008#32] ∧
  assembleLine "TINSERT 0, 2, 0b10, 0x41".toList =
    some [0x11000002#32, 0x00000002#32, 0x00000041#32] ∧
  assembleLine "TINSERT 3, 16, 0xFFFE, 0x12".toList =
    some [0x11300010#32, 0x0000FFFE#32, 0x00000012#32] ∧
  assembleLine "DECODE 1".toList = some [0x13000001#32] ∧
  assembleLine "RDREG FAULT".toList = some [0x1F000008#32] ∧
  decodePacket [0x01000002#32, 0x00000003#32] = .ok (.openStream 0 false true false 3) ∧
  decodePacket [0x0C000008#32] = .ok (.rdbits 8) ∧
  decodePacket [0x11000002#32, 0x00000002#32, 0x00000041#32] = .ok (.tinsert 0 2 0b10 0x41) ∧
  decodePacket [0x11300010#32, 0x0000FFFE#32, 0x00000012#32] = .ok (.tinsert 3 16 0xFFFE 0x12) ∧
  decodePacket [0x13000001#32] = .ok (.decode 1) ∧
  decodePacket [0x1F000008#32] = .ok (.rdreg 8)

/-- R97: the decoder finds the packets of a flat listing from the first words alone. -/
def Obligations.ListingSplitsIntoPackets : Prop :=
  ∀ is : List Instr, (∀ i ∈ is, i.wf = true) →
    splitListing (is.map encode).flatten = is.map encode

/-! ### Cursor and stream control -/

/-- R135: OPEN. -/
def Obligations.OpenCommand : Prop :=
  ∀ (s : State) (cfgrsv : BitVec 21) (rb ef le : Bool) (len : Word),
    (cfgrsv ≠ 0 ∨ len = 0 →
      exec (.openStream cfgrsv rb ef le len) s = .next (s.failed .invalidArgs)) ∧
    (cfgrsv = 0 → len ≠ 0 → s.openf = true →
      exec (.openStream cfgrsv rb ef le len) s = .next (s.failed .badState)) ∧
    (cfgrsv = 0 → len ≠ 0 → s.openf = false →
      exec (.openStream cfgrsv rb ef le len) s = .next
        (({ s with
            cfg := BitVec.ofBool rb ++ BitVec.ofBool ef ++ BitVec.ofBool le, len := len, pos := 0,
            bitoff := 0, curbyte := 0, openf := true } : State).answered none)) ∧
    (∀ w0 w1 : Word, opcode w0 = 0x01 →
      decodePacket [w0, w1] =
        .ok (.openStream (w0.extractLsb' 3 21) (w0.getLsbD 2) (w0.getLsbD 1) (w0.getLsbD 0) w1))

/-- R136: CLOSE. -/
def Obligations.CloseCommand : Prop :=
  decodePacket [0x02000000#32] = .ok .close ∧
  ∀ s : State,
    (s.openf = false → exec .close s = .next (s.failed .badState)) ∧
    (s.openf = true → exec .close s = .next
      (({ s with openf := false, cfg := 0, len := 0, pos := 0, bitoff := 0, curbyte := 0 } : State).answered
        none))

/-- R137, R138: POS and ENDPOS, which write nothing. -/
def Obligations.PositionQueries : Prop :=
  decodePacket [0x03000000#32] = .ok .pos ∧ decodePacket [0x04000000#32] = .ok .endpos ∧
  ∀ s : State,
    (s.openf = false →
      exec .pos s = .next (s.failed .badState) ∧ exec .endpos s = .next (s.failed .badState)) ∧
    (s.openf = true →
      exec .pos s = .next (s.answered (some s.pos)) ∧
      exec .endpos s = .next (s.answered (some (s.len - 1))))

/-- R139: PEEK returns the byte at POS, whatever BITOFF, CURBYTE and CFG, and writes nothing. -/
def Obligations.PeekCommand : Prop :=
  decodePacket [0x05000000#32] = .ok .peek ∧
  ∀ s : State,
    (s.openf = false → exec .peek s = .next (s.failed .badState)) ∧
    (s.openf = true → s.len.toNat ≤ s.pos.toNat → exec .peek s = .next (s.failed .outOfBounds)) ∧
    (∀ b : Byte, s.openf = true → s.Holds [b] →
      exec .peek s = .next (s.answered (some (b.setWidth 32))))

/-- R160: HASMORE is 1 exactly when POS is not LEN - 1; it ignores BITOFF. -/
def Obligations.HasmoreCommand : Prop :=
  decodePacket [0x06000000#32] = .ok .hasmore ∧
  ∀ s : State,
    (s.openf = false → exec .hasmore s = .next (s.failed .badState)) ∧
    (s.openf = true → s.pos ≠ s.len - 1 → exec .hasmore s = .next (s.answered (some 1))) ∧
    (s.openf = true → s.pos = s.len - 1 → exec .hasmore s = .next (s.answered (some 0)))

/-! ### Byte-aligned reads -/

/-- R161: RDBYTE. -/
def Obligations.RdbyteCommand : Prop :=
  decodePacket [0x08000000#32] = .ok .rdbyte ∧
  ∀ s : State,
    (s.openf = false → exec .rdbyte s = .next (s.failed .badState)) ∧
    (s.openf = true → s.len.toNat ≤ s.pos.toNat →
      exec .rdbyte s = .next (({ s with bitoff := 0 } : State).failed .outOfBounds)) ∧
    (∀ b : Byte, s.openf = true → s.Holds [b] →
      exec .rdbyte s = .next
        (({ s with bitoff := 0, pos := s.pos + 1 } : State).answered (some (b.setWidth 32))))

/-- R162: RDWORD, with the byte that is lost when only one is left. -/
def Obligations.RdwordCommand : Prop :=
  decodePacket [0x09000000#32] = .ok .rdword ∧
  ∀ s : State,
    (s.openf = false → exec .rdword s = .next (s.failed .badState)) ∧
    (s.openf = true → s.len.toNat ≤ s.pos.toNat →
      exec .rdword s = .next (({ s with bitoff := 0 } : State).failed .outOfBounds)) ∧
    (∀ b : Byte, s.openf = true → s.Holds [b] → s.len = s.pos + 1 →
      exec .rdword s = .next (({ s with bitoff := 0, pos := s.len } : State).failed .outOfBounds)) ∧
    (∀ b0 b1 : Byte, s.openf = true → s.Holds [b0, b1] →
      exec .rdword s = .next
        (({ s with bitoff := 0, pos := s.pos + 2 } : State).answered
          (some (BitVec.ofNat 32
            (if s.cfg.getLsbD 0 then b0.toNat + 256 * b1.toNat else 256 * b0.toNat + b1.toNat)))))

/-- R163: RDINT, with the bytes that are lost when fewer than four are left. -/
def Obligations.RdintCommand : Prop :=
  decodePacket [0x0A000000#32] = .ok .rdint ∧
  ∀ s : State,
    (s.openf = false → exec .rdint s = .next (s.failed .badState)) ∧
    (∀ bs : List Byte, bs.length < 4 → s.openf = true → s.Holds bs →
      s.len.toNat = s.pos.toNat + bs.length →
      exec .rdint s = .next (({ s with bitoff := 0, pos := s.len } : State).failed .outOfBounds)) ∧
    (∀ b0 b1 b2 b3 : Byte, s.openf = true → s.Holds [b0, b1, b2, b3] →
      exec .rdint s = .next
        (({ s with bitoff := 0, pos := s.pos + 4 } : State).answered
          (some (BitVec.ofNat 32
            (if s.cfg.getLsbD 0 then
              b0.toNat + 256 * b1.toNat + 65536 * b2.toNat + 16777216 * b3.toNat
            else 16777216 * b0.toNat + 65536 * b1.toNat + 256 * b2.toNat + b3.toNat)))))

/-- R164: a 16-bit or 32-bit value laid out in the stream's byte order is read back. -/
def Obligations.ByteOrderRoundTrip : Prop :=
  ∀ s : State, s.openf = true →
    (∀ v : BitVec 16,
      s.Holds (if s.cfg.getLsbD 0 then [v.extractLsb' 0 8, v.extractLsb' 8 8]
        else [v.extractLsb' 8 8, v.extractLsb' 0 8]) →
      ∃ t, exec .rdword s = .next t ∧ t.responses = s.responses ++ [⟨.ok, some (v.setWidth 32)⟩]) ∧
    (∀ v : Word,
      s.Holds
        (if s.cfg.getLsbD 0 then
          [v.extractLsb' 0 8, v.extractLsb' 8 8, v.extractLsb' 16 8, v.extractLsb' 24 8]
        else [v.extractLsb' 24 8, v.extractLsb' 16 8, v.extractLsb' 8 8, v.extractLsb' 0 8]) →
      ∃ t, exec .rdint s = .next t ∧ t.responses = s.responses ++ [⟨.ok, some v⟩])

/-- R133: reading exactly LEN bytes succeeds and gives BUF in order; the next read fails with OUT_OF_BOUNDS and
leaves POS at LEN. -/
def Obligations.BufferReadToItsEnd : Prop :=
  ∀ s : State, s.openf = true → s.pos = 0 → s.bitoff = 0 → s.BufSupplied →
    ∃ t : State,
      runInstrs (List.replicate s.len.toNat .rdbyte) s = .next t ∧
      t = { s with
        pos := s.len
        responses := s.responses ++ (List.range s.len.toNat).map fun a =>
          ⟨.ok, (s.buf.read a).map fun b => b.setWidth 32⟩ } ∧
      exec .rdbyte t = .next (t.failed .outOfBounds) ∧ exec .peek t = .next (t.failed .outOfBounds)

/-! ### Bit reads -/

/-- R175, R173 on a closed stream, and with BITOFF not 0: no byte is fetched, no fault is possible, one bit of
CURBYTE is handed out. -/
def Obligations.RdbitInsideByte : Prop :=
  decodePacket [0x0B000000#32] = .ok .rdbit ∧
  ∀ s : State,
    (s.openf = false → exec .rdbit s = .next (s.failed .badState)) ∧
    (s.openf = true → s.bitoff ≠ 0 →
      exec .rdbit s = .next
        (({ s with bitoff := s.bitoff + 1 } : State).answered
          (some (if orderedBit s.rb (s.curbyte.setWidth 8) s.bitoff.toNat then 1 else 0))))

/-- R171, R173, R175 with BITOFF = 0: the fetch does what the escape filter does over the list of the bytes
that are left, for every such list. -/
def Obligations.RdbitFetchesThroughFilter : Prop :=
  ∀ (s : State) (bs : List Byte), s.openf = true → s.bitoff = 0 →
    s.Holds bs → s.len.toNat = s.pos.toNat + bs.length →
    exec .rdbit s = .next
      (match fetchFrom s.ef s.config.rstRescan bs with
      | (.ok d, n) => (s.afterFetch n d).answered (some (firstBit s.rb d))
      | (.error k, n) => ({ s with pos := s.pos + BitVec.ofNat 32 n } : State).failed k)

/-- R174, the rows whose status is OK, a run of any length of 0xFF bytes before the sentinel's second byte. -/
def Obligations.EscapeSequencesResolved : Prop :=
  ∀ (s : State) (k : Nat) (m d : Byte), s.openf = true → s.bitoff = 0 →
    (s.ef = false ∨ d ≠ 0xFF → s.Holds [d] →
      exec .rdbit s = .next ((s.afterFetch 1 d).answered (some (firstBit s.rb d)))) ∧
    (s.ef = true → s.Holds (List.replicate (k + 1) 0xFF ++ [0x00]) →
      exec .rdbit s = .next ((s.afterFetch (k + 2) 0xFF).answered (some 1))) ∧
    (s.ef = true → 0xD0 ≤ m.toNat → m.toNat ≤ 0xD7 → d ≠ 0xFF ∨ s.config.rstRescan = false →
      s.Holds (List.replicate (k + 1) 0xFF ++ [m, d]) →
      exec .rdbit s = .next ((s.afterFetch (k + 3) d).answered (some (firstBit s.rb d)))) ∧
    (s.ef = true → 0xD0 ≤ m.toNat → m.toNat ≤ 0xD7 → s.config.rstRescan = true →
      s.Holds [0xFF, m, 0xFF, 0x00] →
      exec .rdbit s = .next ((s.afterFetch 4 0xFF).answered (some 1))) ∧
    (∀ m' : Byte, s.ef = true → 0xD0 ≤ m.toNat → m.toNat ≤ 0xD7 → 0xD0 ≤ m'.toNat → m'.toNat ≤ 0xD7 →
      s.config.rstRescan = true → d ≠ 0xFF → s.Holds [0xFF, m, 0xFF, m', d] →
      exec .rdbit s = .next ((s.afterFetch 5 d).answered (some (firstBit s.rb d))))

/-- R174, the rows that fail: CURBYTE and BITOFF stay, POS is past the bytes consumed, an invalid byte is not
consumed. -/
def Obligations.EscapeSequencesRefused : Prop :=
  ∀ (s : State) (k : Nat) (m : Byte), s.openf = true → s.bitoff = 0 →
    (s.len.toNat ≤ s.pos.toNat → exec .rdbit s = .next (s.failed .invalidRead)) ∧
    (s.ef = true → m ≠ 0x00 → m ≠ 0xFF → (m.toNat < 0xD0 ∨ 0xD7 < m.toNat) →
      s.Holds (List.replicate (k + 1) 0xFF ++ [m]) →
      exec .rdbit s = .next
        (({ s with pos := s.pos + BitVec.ofNat 32 (k + 1) } : State).failed .invalidRead)) ∧
    (s.ef = true → s.Holds (List.replicate (k + 1) 0xFF) → s.len.toNat = s.pos.toNat + (k + 1) →
      exec .rdbit s = .next (({ s with pos := s.len } : State).failed .outOfBounds)) ∧
    (s.ef = true → 0xD0 ≤ m.toNat → m.toNat ≤ 0xD7 → s.Holds (List.replicate (k + 1) 0xFF ++ [m]) →
      s.len.toNat = s.pos.toNat + (k + 2) →
      exec .rdbit s = .next (({ s with pos := s.len } : State).failed .outOfBounds)) ∧
    (s.ef = true → 0xD0 ≤ m.toNat → m.toNat ≤ 0xD7 → s.config.rstRescan = true →
      s.Holds [0xFF, m, 0xFF] → s.len.toNat = s.pos.toNat + 3 →
      exec .rdbit s = .next (({ s with pos := s.len } : State).failed .outOfBounds))

/-- R176, R70, R71, R72 with the escape filter off: RDBITS n returns the next n bits of the stream packed in
its bit order, whatever CFG.LE, and leaves the stream n bits on. -/
def Obligations.RdbitsReadsNextBits : Prop :=
  ∀ (s : State) (bits : List Bool), s.openf = true → s.ef = false → bits.length ≤ 32 → s.HoldsBits bits →
    exec (.rdbits bits.length) s = .next
      ((s.afterPlainBits bits.length).answered (some (packedBits s.rb bits)))

/-- R176, R256 with the escape filter off: when the stream ends after fewer than n bits they stay consumed,
BITOFF is 0, POS is LEN, and no value is returned. -/
def Obligations.RdbitsRunsOut : Prop :=
  ∀ (s : State) (bits : List Bool) (n : Nat), s.openf = true → s.ef = false →
    bits.length < n → n ≤ 32 → s.HoldsBits bits → s.bitoff + BitVec.ofNat 3 bits.length = 0 →
    s.len.toNat ≤ s.pos.toNat + s.bytesFetched bits.length →
    exec (.rdbits n) s = .next ((s.afterPlainBits bits.length).failed .invalidRead)

/-- R176, R173: RDBITS n does to the stream what n RDBITs do, filter on or off, and packs their bits; where
the next of those RDBITs fails, RDBITS fails with the same status and leaves the same stream. -/
def Obligations.RdbitsIsRepeatedRdbit : Prop :=
  ∀ (s u : State) (bits : List Bool), s.openf = true → bits.length ≤ 32 →
    runInstrs (List.replicate bits.length .rdbit) s = .next u →
    u.responses = s.responses ++ bits.map (fun b => ⟨.ok, some (if b then 1 else 0)⟩) →
    exec (.rdbits bits.length) s = .next
      { u with responses := s.responses ++ [⟨.ok, some (packedBits s.rb bits)⟩] } ∧
    ∀ (n : Nat) (v : State) (k : Status), bits.length < n → n ≤ 32 → k ≠ .ok →
      exec .rdbit u = .next v → v.responses = u.responses ++ [⟨k, none⟩] →
      exec (.rdbits n) s = .next { v with responses := s.responses ++ [⟨k, none⟩] }

/-- R176: the range of n, the empty read, and the encoding. -/
def Obligations.RdbitsOperand : Prop :=
  (∀ n, n < 64 → decodePacket [0x0C000000#32 ||| BitVec.ofNat 32 n] = .ok (.rdbits n)) ∧
  ∀ s : State,
    (∀ n, 32 < n → exec (.rdbits n) s = .next (s.failed .invalidArgs)) ∧
    (∀ n, n ≤ 32 → s.openf = false → exec (.rdbits n) s = .next (s.failed .badState)) ∧
    (s.openf = true → exec (.rdbits 0) s = .next (s.answered (some 0)))

/-- R176: RDBITS a then RDBITS b against RDBITS (a + b): the same stream afterwards, and the values combine as
the packing says. -/
def Obligations.RdbitsSplits : Prop :=
  ∀ (s t u : State) (a b : Nat) (x y : Word), s.openf = true → a + b ≤ 32 →
    exec (.rdbits a) s = .next t → t.responses = s.responses ++ [⟨.ok, some x⟩] →
    exec (.rdbits b) t = .next u → u.responses = t.responses ++ [⟨.ok, some y⟩] →
    exec (.rdbits (a + b)) s = .next
      { u with
        responses := s.responses ++ [⟨.ok, some (if s.rb then x ||| (y <<< a) else (x <<< b) ||| y)⟩] }

/-- R179: an n-bit value written in the stream's bit order from a byte boundary on is read back. -/
def Obligations.BitOrderRoundTrip : Prop :=
  ∀ (s : State) (n : Nat) (v : Word), s.openf = true → s.ef = false → s.bitoff = 0 → n ≤ 32 →
    v.toNat < 2 ^ n →
    (∀ j, j < n → s.pos.toNat + j / 8 < s.len.toNat ∧ ∃ b, s.buf.read (s.pos.toNat + j / 8) = some b ∧
      (if s.rb then b.getLsbD (j % 8) = v.getLsbD j
      else b.getLsbD (7 - j % 8) = v.getLsbD (n - 1 - j))) →
    ∃ t, exec (.rdbits n) s = .next t ∧ t.responses = s.responses ++ [⟨.ok, some v⟩]

/-- R94: the result of RDBITS n is below 2^n, that of RDWORD below 2^16, of RDBYTE and PEEK below 2^8, of RDBIT
and HASMORE below 2. -/
def Obligations.ResultsFitTheirWidth : Prop :=
  ∀ (s t : State) (v : Word) (i : Instr), exec i s = .next t →
    t.responses = s.responses ++ [⟨.ok, some v⟩] →
    (∀ n, i = .rdbits n → v.toNat < 2 ^ n) ∧ (i = .rdword → v.toNat < 2 ^ 16) ∧
    (i = .rdbyte ∨ i = .peek → v.toNat < 2 ^ 8) ∧ (i = .rdbit ∨ i = .hasmore → v.toNat < 2) ∧
    (∀ k, i = .decode k → s.Inv → v.toNat < 2 ^ s.config.symW)

/-- R177: ALIGN. -/
def Obligations.AlignCommand : Prop :=
  decodePacket [0x0D000000#32] = .ok .align ∧
  ∀ s : State,
    (s.openf = false → exec .align s = .next (s.failed .badState)) ∧
    (s.openf = true → exec .align s = .next (({ s with bitoff := 0 } : State).answered none))

/-- R177: an RDBIT right after an ALIGN never reuses a partly consumed byte: when it succeeds, POS has moved on
and CURBYTE is a byte of BUF between the old POS and the new one. -/
def Obligations.AlignForcesFreshByte : Prop :=
  ∀ (s t u : State) (v : Word), s.openf = true → exec .align s = .next t → exec .rdbit t = .next u →
    u.responses = t.responses ++ [⟨.ok, some v⟩] →
    t.pos.toNat < u.pos.toNat ∧ u.bitoff = 1 ∧
    ∃ a, t.pos.toNat ≤ a ∧ a < u.pos.toNat ∧ s.buf.read a = some (u.curbyte.setWidth 8)

/-! ### Trees -/

/-- R205: TCREATE. The root is no pool node, so NODES stays; bit t of TREES becomes 1. -/
def Obligations.TcreateCommand : Prop :=
  (∀ t, t < 16 → decodePacket [0x10000000#32 ||| BitVec.ofNat 32 t] = .ok (.tcreate t)) ∧
  ∀ (s : State) (t : Nat),
    (s.config.nTrees ≤ t → exec (.tcreate t) s = .next (s.failed .invalidArgs)) ∧
    (t < s.config.nTrees → s.tree t ≠ .nil → exec (.tcreate t) s = .next (s.failed .badState)) ∧
    (t < s.config.nTrees → s.tree t = .nil →
      exec (.tcreate t) s = .next
        (({ s with trees := s.trees.set t (.node s.config.placeholder .nil .nil) } : State).answered
          none)) ∧
    (t < s.config.nTrees → s.tree t = .nil → s.trees.length = s.config.nTrees → s.config.nTrees ≤ 16 →
      ∀ u, exec (.tcreate t) s = .next u →
        u.tree t = .node s.config.placeholder .nil .nil ∧ (∀ k, k ≠ t → u.tree k = s.tree k) ∧
        u.treesReg = s.treesReg ||| (1#32 <<< t))

/-- R207: TDESTROY. Every non-root node of the tree goes back to the pool; other slots stay. -/
def Obligations.TdestroyCommand : Prop :=
  (∀ t, t < 16 → decodePacket [0x12000000#32 ||| BitVec.ofNat 32 t] = .ok (.tdestroy t)) ∧
  ∀ (s : State) (t : Nat),
    (s.config.nTrees ≤ t → exec (.tdestroy t) s = .next (s.failed .invalidArgs)) ∧
    (t < s.config.nTrees → s.tree t = .nil → exec (.tdestroy t) s = .next (s.failed .badState)) ∧
    (t < s.config.nTrees → s.tree t ≠ .nil →
      exec (.tdestroy t) s = .next
        (({ s with
            trees := s.trees.set t .nil
            nodes := s.nodes - BitVec.ofNat 32 ((s.tree t).count - 1) } : State).answered none)) ∧
    (t < s.config.nTrees → s.tree t ≠ .nil → s.Inv → ∀ u, exec (.tdestroy t) s = .next u →
      u.tree t = .nil ∧ (∀ k, k ≠ t → u.tree k = s.tree k) ∧
      u.treesReg = s.treesReg &&& ~~~(1#32 <<< t) ∧
      u.nodes.toNat + ((s.tree t).count - 1) = s.nodes.toNat)

/-- R206: the tests of TINSERT, in order, and its encoding. -/
def Obligations.TinsertPreconditions : Prop :=
  (∀ w0 w1 w2 : Word, opcode w0 = 0x11 → w0.extractLsb' 6 14 = 0 →
    decodePacket [w0, w1, w2] =
      .ok (.tinsert (w0.extractLsb' 20 4).toNat (w0.extractLsb' 0 6).toNat w1 w2)) ∧
  ∀ (s : State) (t len : Nat) (cw sym : Word),
    (s.config.nTrees ≤ t ∨ len = 0 ∨ 32 < len ∨ 2 ^ s.config.symW ≤ sym.toNat →
      exec (.tinsert t len cw sym) s = .next (s.failed .invalidArgs)) ∧
    (t < s.config.nTrees → 1 ≤ len → len ≤ 32 → sym.toNat < 2 ^ s.config.symW → s.tree t = .nil →
      exec (.tinsert t len cw sym) s = .next (s.failed .badState))

/-- R206: with room in the pool for the missing nodes of the path, TINSERT completes with OK. The new tree is
given by what every bit sequence reaches in it: the codeword's own path ends in sym, every other node keeps
its symbol, and the nodes created on the way hold PLACEHOLDER. NODES counts the nodes created; every other
field, every other slot among them, stays. The path is cw[len-1], …, cw[0]. -/
def Obligations.TinsertWritesSymbol : Prop :=
  ∀ (s : State) (t len : Nat) (cw sym : Word) (path : List Bool),
    path = (List.range len).map (fun k => cw.getLsbD (len - 1 - k)) →
    t < s.config.nTrees → 1 ≤ len → len ≤ 32 → sym.toNat < 2 ^ s.config.symW → s.tree t ≠ .nil →
    s.config.nodeCap < 2 ^ 32 → s.nodes.toNat + (s.tree t).missing path len ≤ s.config.nodeCap →
    ∃ new : PTree,
      exec (.tinsert t len cw sym) s = .next
        (({ s with
            trees := s.trees.set t new
            nodes := s.nodes + BitVec.ofNat 32 ((s.tree t).missing path len) } : State).answered none) ∧
      ∀ p : List Bool, (new.walk p).sym? =
        if p = path then some sym
        else if ((s.tree t).walk p).present then ((s.tree t).walk p).sym?
        else if p <+: path then some s.config.placeholder
        else none

/-- R206, R256: without room in the pool TINSERT fails with ALLOCATION_FAILURE. The nodes created before stay,
each holding PLACEHOLDER, NODES is NODE_CAP, and no symbol is written. -/
def Obligations.TinsertPoolExhausted : Prop :=
  ∀ (s : State) (t len : Nat) (cw sym : Word) (path : List Bool),
    path = (List.range len).map (fun k => cw.getLsbD (len - 1 - k)) →
    t < s.config.nTrees → 1 ≤ len → len ≤ 32 → sym.toNat < 2 ^ s.config.symW → s.tree t ≠ .nil →
    s.config.nodeCap < 2 ^ 32 → s.nodes.toNat ≤ s.config.nodeCap →
    s.config.nodeCap < s.nodes.toNat + (s.tree t).missing path len →
    ∃ new : PTree,
      exec (.tinsert t len cw sym) s = .next
        (({ s with
            trees := s.trees.set t new
            nodes := BitVec.ofNat 32 s.config.nodeCap } : State).failed .allocationFailure) ∧
      ∀ p : List Bool, (new.walk p).sym? =
        if ((s.tree t).walk p).present then ((s.tree t).walk p).sym?
        else if p <+: path ∧ s.nodes.toNat + (s.tree t).missing path p.length ≤ s.config.nodeCap then
          some s.config.placeholder
        else none

/-- R200, R201, R206: a set of codewords none of which is a prefix of another, inserted into a fresh tree with
room in the pool, in any order: every insert completes with OK and every codeword ends on a childless node
with its own symbol. -/
def Obligations.PrefixCodeBecomesDecodable : Prop :=
  ∀ (s : State) (t : Nat) (code : List (Nat × Word × Word)) (path : Nat × Word × Word → List Bool),
    (∀ e, path e = (List.range e.1).map (fun k => e.2.1.getLsbD (e.1 - 1 - k))) →
    t < s.config.nTrees → s.trees.length = s.config.nTrees → s.config.nodeCap < 2 ^ 32 →
    s.tree t = .node s.config.placeholder .nil .nil →
    (∀ e ∈ code, 1 ≤ e.1 ∧ e.1 ≤ 32 ∧ e.2.2.toNat < 2 ^ s.config.symW) →
    code.Pairwise (fun e f => ¬ path e <+: path f ∧ ¬ path f <+: path e) →
    s.nodes.toNat + (code.map fun e => e.1).sum ≤ s.config.nodeCap →
    ∃ u : State,
      runInstrs (code.map fun e => .tinsert t e.1 e.2.1 e.2.2) s = .next u ∧
      u.responses = s.responses ++ List.replicate code.length ⟨.ok, none⟩ ∧
      ∀ e ∈ code, (u.tree t).walk (path e) = .node e.2.2 .nil .nil

/-- R208: the tests of DECODE, in order, and its encoding. -/
def Obligations.DecodePreconditions : Prop :=
  (∀ t, t < 16 → decodePacket [0x13000000#32 ||| BitVec.ofNat 32 t] = .ok (.decode t)) ∧
  ∀ (s : State) (t : Nat),
    (s.config.nTrees ≤ t → exec (.decode t) s = .next (s.failed .invalidArgs)) ∧
    (t < s.config.nTrees → s.tree t = .nil ∨ s.openf = false →
      exec (.decode t) s = .next (s.failed .badState))

/-- R208 with the escape filter off: when the bits to come lead from the root to a childless node, DECODE
returns its symbol and consumes exactly those bits; on a tree that is only its root it returns the root's
symbol and reads nothing. -/
def Obligations.DecodeReturnsSymbol : Prop :=
  ∀ (s : State) (t : Nat) (path : List Bool) (sym : Word), t < s.config.nTrees → s.openf = true →
    s.ef = false → (s.tree t).walk path = .node sym .nil .nil → s.HoldsBits path →
    exec (.decode t) s = .next ((s.afterPlainBits path.length).answered (some sym)) ∧
    (path = [] → s.afterPlainBits path.length = s)

/-- R208, filter on or off: DECODE does to the stream what one RDBIT per branch does. Where they lead to a
childless node it returns the symbol; where the next bit selects an absent child it fails with NO_BRANCH, the
bit consumed; where the next RDBIT fails, DECODE fails with the same status. -/
def Obligations.DecodeFollowsRdbits : Prop :=
  ∀ (s u : State) (t : Nat) (path : List Bool) (n : PTree), t < s.config.nTrees → s.openf = true →
    runInstrs (List.replicate path.length .rdbit) s = .next u →
    u.responses = s.responses ++ path.map (fun b => ⟨.ok, some (if b then 1 else 0)⟩) →
    (s.tree t).walk path = n → n ≠ .nil →
    (n.child false = .nil → n.child true = .nil → ∀ sym, n.sym? = some sym →
      exec (.decode t) s = .next { u with responses := s.responses ++ [⟨.ok, some sym⟩] }) ∧
    (n.child false ≠ .nil ∨ n.child true ≠ .nil →
      ∀ (v : State) (r : Response), exec .rdbit u = .next v → v.responses = u.responses ++ [r] →
        (∀ b : Bool, r = ⟨.ok, some (if b then 1 else 0)⟩ → n.child b = .nil →
          exec (.decode t) s = .next
            { v with
              fault := if s.fault = 0 then Status.noBranch.code else s.fault
              responses := s.responses ++ [⟨.noBranch, none⟩] }) ∧
        (r.status ≠ .ok →
          exec (.decode t) s = .next { v with responses := s.responses ++ [⟨r.status, none⟩] }))

/-- R211: on a tree every node of which has both children or none, DECODE never ends in NO_BRANCH. -/
def Obligations.CompleteTreeHasNoMissingBranch : Prop :=
  ∀ (s u : State) (t : Nat) (r : Response), (s.tree t).isComplete = true → exec (.decode t) s = .next u →
    u.responses = s.responses ++ [r] → r.status ≠ .noBranch

/-! ### System command, checks, faults -/

/-- R245: RDREG returns the register, zero-extended, with the stream open or closed, and writes nothing. -/
def Obligations.RdregCommand : Prop :=
  (∀ r, r < 16 → decodePacket [0x1F000000#32 ||| BitVec.ofNat 32 r] = .ok (.rdreg r)) ∧
  ∀ s : State,
    (∀ r, 8 < r → exec (.rdreg r) s = .next (s.failed .invalidArgs)) ∧
    exec (.rdreg 0) s = .next (s.answered (some (s.cfg.setWidth 32))) ∧
    exec (.rdreg 1) s = .next (s.answered (some s.len)) ∧
    exec (.rdreg 2) s = .next (s.answered (some s.pos)) ∧
    exec (.rdreg 3) s = .next (s.answered (some (s.bitoff.setWidth 32))) ∧
    exec (.rdreg 4) s = .next (s.answered (some s.curbyte)) ∧
    exec (.rdreg 5) s = .next (s.answered (some (if s.openf then 1 else 0))) ∧
    (s.trees.length ≤ 32 → ∃ v, exec (.rdreg 6) s = .next (s.answered (some v)) ∧
      ∀ t, v.getLsbD t = decide (s.tree t ≠ .nil)) ∧
    exec (.rdreg 7) s = .next (s.answered (some s.nodes)) ∧
    exec (.rdreg 8) s = .next (s.answered (some (s.fault.setWidth 32)))

/-- R101, R241: an operand out of range fails with INVALID_ARGS in every state, before anything else, and
changes nothing but the FAULT latch; with operands in range no command fails so. -/
def Obligations.OperandRangeCheckedFirst : Prop :=
  ∀ (s : State) (i : Instr),
    (i.operandsInRange s.config = false → exec i s = .next (s.failed .invalidArgs)) ∧
    (i.operandsInRange s.config = true → ∀ (t : State) (r : Response), exec i s = .next t →
      t.responses = s.responses ++ [r] → r.status ≠ .invalidArgs)

/-- R262, R241: with operands in range, a command whose stream or tree is not there (or is there) fails with
BAD_STATE and changes nothing but the FAULT latch; where it is ready no command fails so. -/
def Obligations.StateCheckedSecond : Prop :=
  ∀ (s : State) (i : Instr), i.operandsInRange s.config = true →
    (i.stateReady s = false → exec i s = .next (s.failed .badState)) ∧
    (i.stateReady s = true → ∀ (t : State) (r : Response), exec i s = .next t →
      t.responses = s.responses ++ [r] → r.status ≠ .badState)

/-- R251: a command completes with OK or with a status R251 lists it under. -/
def Obligations.StatusCausesAsListed : Prop :=
  ∀ (s t : State) (i : Instr) (r : Response), exec i s = .next t → t.responses = s.responses ++ [r] →
    r.status = .ok ∨ r.status ∈ i.mayRaise

/-- R255: when a command, legal or not, completes, FAULT takes the code of its status if it was 0 and the status
is not OK, and else stays; a step that takes no command and is no reset leaves it. -/
def Obligations.FaultLatchTakesFirstCode : Prop :=
  (∀ (s t : State) (ws : Packet) (rest : List HostInput) (r : Response), s.inputs = .packet ws :: rest →
    step s = .next t → t.responses = s.responses ++ [r] →
      t.fault = if s.fault = 0 ∧ r.status ≠ .ok then r.status.code else s.fault) ∧
  (∀ (s t : State) (base : Nat) (bytes : List Byte) (rest : List HostInput),
    s.inputs = .bufWrite base bytes :: rest → step s = .next t → t.fault = s.fault) ∧
  (∀ s t : State, s.inputs = [] → step s = .next t → t.fault = s.fault)

/-- R38, R281: once non-zero, FAULT never changes in a step that is not a reset. -/
def Obligations.FaultStaysUntilReset : Prop :=
  ∀ s t : State, s.fault ≠ 0 → s.inputs.head? ≠ some .reset → step s = .next t → t.fault = s.fault

/-! ### Frames and whole-machine rules -/

/-- R30: what each command leaves of the stream registers; and R64, R48: BUF, the parameters and the host's
pending inputs are never written by a command. -/
def Obligations.CommandsKeepStream : Prop :=
  ∀ (s t : State) (i : Instr), exec i s = .next t →
    (i.setsStream = false → t.openf = s.openf ∧ t.cfg = s.cfg ∧ t.len = s.len) ∧
    (i.movesCursor = false → t.pos = s.pos) ∧
    (i.movesBits = false → t.bitoff = s.bitoff) ∧
    (i.fetches = false → t.curbyte = s.curbyte) ∧
    (∀ a, t.buf.read a = s.buf.read a) ∧ t.buf = s.buf ∧ t.config = s.config ∧ t.inputs = s.inputs

/-- R30, R136, R205 to R207: only the three tree-building commands write a slot, each its own, and only TINSERT
and TDESTROY write NODES; trees outlive streams. -/
def Obligations.CommandsKeepTrees : Prop :=
  ∀ (s t : State) (i : Instr), exec i s = .next t →
    (∀ k, i.writesSlot ≠ some k → t.tree k = s.tree k) ∧
    (i.writesSlot = none → t.trees = s.trees) ∧
    (i.writesNodes = false → t.nodes = s.nodes) ∧
    t.trees.length = s.trees.length

/-- R25, R24: while a stream is open its three options and its length never change. -/
def Obligations.OptionsFixedWhileOpen : Prop :=
  ∀ s t : State, s.openf = true → t.openf = true → step s = .next t → t.cfg = s.cfg ∧ t.len = s.len

/-- R27: POS never decreases while a stream is open, and never passes LEN. -/
def Obligations.PositionNeverDecreases : Prop :=
  ∀ s t : State, s.Inv → s.openf = true → t.openf = true → step s = .next t →
    s.pos.toNat ≤ t.pos.toNat ∧ t.pos.toNat ≤ t.len.toNat

/-- R178: the sub-state machine of BITOFF, over every command that completes. -/
def Obligations.BitOffsetStateMachine : Prop :=
  ∀ (s t : State) (i : Instr), exec i s = .next t →
    (i = .rdbit → s.openf = true → t.responses.getLast?.map Response.status = some .ok →
      t.bitoff = s.bitoff + 1) ∧
    (i = .rdbit → s.bitoff = 0 → t.responses.getLast?.map Response.status ≠ some .ok → t.bitoff = 0) ∧
    (i = .align ∨ i = .rdbyte ∨ i = .rdword ∨ i = .rdint → s.openf = true → t.bitoff = 0) ∧
    (i.setsStream = true → t.responses.getLast?.map Response.status = some .ok → t.bitoff = 0) ∧
    (i.movesBits = false → t.bitoff = s.bitoff)

/-- R61, R291 and 93 U1: the host places bytes in BUF; a write that would change a byte an open stream covers
has no meaning. That such a step is refused by name is the model's choice (log 4). -/
def Obligations.HostWritesBuffer : Prop :=
  ∀ (s : State) (base : Nat) (bytes : List Byte) (rest : List HostInput),
    s.inputs = .bufWrite base bytes :: rest →
    ((∀ k, k < bytes.length → s.openf = true → base + k < s.len.toNat →
        s.buf.read (base + k) = bytes[k]?) →
      ∃ m : Memory, step s = .next { s with inputs := rest, buf := m } ∧
        ∀ a, m.read a =
          if base ≤ a ∧ a < base + bytes.length then bytes[a - base]? else s.buf.read a) ∧
    (∀ k, k < bytes.length → s.openf = true → base + k < s.len.toNat →
      s.buf.read (base + k) ≠ bytes[k]? → step s = .refused .bufChangedWhileOpen)

/-- R290 and 93 U2: a byte the host has not supplied stops the model by name (the model's choice, log 4): here
the byte-aligned reads and PEEK. -/
def Obligations.UnsuppliedByteStops : Prop :=
  ∀ s : State, s.openf = true → s.pos.toNat < s.len.toNat → s.buf.read s.pos.toNat = none →
    exec .peek s = .fault (.bufByteAbsent s.pos.toNat) ∧
    exec .rdbyte s = .fault (.bufByteAbsent s.pos.toNat) ∧
    exec .rdword s = .fault (.bufByteAbsent s.pos.toNat) ∧
    exec .rdint s = .fault (.bufByteAbsent s.pos.toNat)
end

