-- ==== Sys2Proof/Laws/State.lean ====
section
/-! SUPPORT. One lemma per field per named update of State, true by rfl (or by cases on the latch), so that no
proof unfolds an update. -/

namespace Sys2Proof.Machine.State

variable (s : State)

/-! ### respond -/

@[simp] theorem respond_openf (k : Status) (r : Option Word) : (s.respond k r).openf = s.openf := rfl
@[simp] theorem respond_cfg (k : Status) (r : Option Word) : (s.respond k r).cfg = s.cfg := rfl
@[simp] theorem respond_len (k : Status) (r : Option Word) : (s.respond k r).len = s.len := rfl
@[simp] theorem respond_pos (k : Status) (r : Option Word) : (s.respond k r).pos = s.pos := rfl
@[simp] theorem respond_bitoff (k : Status) (r : Option Word) : (s.respond k r).bitoff = s.bitoff := rfl
@[simp] theorem respond_curbyte (k : Status) (r : Option Word) : (s.respond k r).curbyte = s.curbyte := rfl
@[simp] theorem respond_trees (k : Status) (r : Option Word) : (s.respond k r).trees = s.trees := rfl
@[simp] theorem respond_nodes (k : Status) (r : Option Word) : (s.respond k r).nodes = s.nodes := rfl
@[simp] theorem respond_fault (k : Status) (r : Option Word) : (s.respond k r).fault = s.fault := rfl
@[simp] theorem respond_config (k : Status) (r : Option Word) : (s.respond k r).config = s.config := rfl
@[simp] theorem respond_buf (k : Status) (r : Option Word) : (s.respond k r).buf = s.buf := rfl
@[simp] theorem respond_inputs (k : Status) (r : Option Word) : (s.respond k r).inputs = s.inputs := rfl
@[simp] theorem respond_responses (k : Status) (r : Option Word) : (s.respond k r).responses = s.responses ++ [⟨k, r⟩] := rfl

/-! ### answered -/

@[simp] theorem answered_openf (r : Option Word) : (s.answered r).openf = s.openf := rfl
@[simp] theorem answered_cfg (r : Option Word) : (s.answered r).cfg = s.cfg := rfl
@[simp] theorem answered_len (r : Option Word) : (s.answered r).len = s.len := rfl
@[simp] theorem answered_pos (r : Option Word) : (s.answered r).pos = s.pos := rfl
@[simp] theorem answered_bitoff (r : Option Word) : (s.answered r).bitoff = s.bitoff := rfl
@[simp] theorem answered_curbyte (r : Option Word) : (s.answered r).curbyte = s.curbyte := rfl
@[simp] theorem answered_trees (r : Option Word) : (s.answered r).trees = s.trees := rfl
@[simp] theorem answered_nodes (r : Option Word) : (s.answered r).nodes = s.nodes := rfl
@[simp] theorem answered_fault (r : Option Word) : (s.answered r).fault = s.fault := rfl
@[simp] theorem answered_config (r : Option Word) : (s.answered r).config = s.config := rfl
@[simp] theorem answered_buf (r : Option Word) : (s.answered r).buf = s.buf := rfl
@[simp] theorem answered_inputs (r : Option Word) : (s.answered r).inputs = s.inputs := rfl
@[simp] theorem answered_responses (r : Option Word) : (s.answered r).responses = s.responses ++ [⟨.ok, r⟩] := rfl

/-! ### failed -/

@[simp] theorem failed_openf (k : Status) : (s.failed k).openf = s.openf := rfl
@[simp] theorem failed_cfg (k : Status) : (s.failed k).cfg = s.cfg := rfl
@[simp] theorem failed_len (k : Status) : (s.failed k).len = s.len := rfl
@[simp] theorem failed_pos (k : Status) : (s.failed k).pos = s.pos := rfl
@[simp] theorem failed_bitoff (k : Status) : (s.failed k).bitoff = s.bitoff := rfl
@[simp] theorem failed_curbyte (k : Status) : (s.failed k).curbyte = s.curbyte := rfl
@[simp] theorem failed_trees (k : Status) : (s.failed k).trees = s.trees := rfl
@[simp] theorem failed_nodes (k : Status) : (s.failed k).nodes = s.nodes := rfl
@[simp] theorem failed_fault (k : Status) : (s.failed k).fault = if s.fault = 0 then k.code else s.fault := rfl
@[simp] theorem failed_config (k : Status) : (s.failed k).config = s.config := rfl
@[simp] theorem failed_buf (k : Status) : (s.failed k).buf = s.buf := rfl
@[simp] theorem failed_inputs (k : Status) : (s.failed k).inputs = s.inputs := rfl
@[simp] theorem failed_responses (k : Status) : (s.failed k).responses = s.responses ++ [⟨k, none⟩] := rfl

/-! ### setTree -/

@[simp] theorem setTree_openf (t : Nat) (v : PTree) : (s.setTree t v).openf = s.openf := rfl
@[simp] theorem setTree_cfg (t : Nat) (v : PTree) : (s.setTree t v).cfg = s.cfg := rfl
@[simp] theorem setTree_len (t : Nat) (v : PTree) : (s.setTree t v).len = s.len := rfl
@[simp] theorem setTree_pos (t : Nat) (v : PTree) : (s.setTree t v).pos = s.pos := rfl
@[simp] theorem setTree_bitoff (t : Nat) (v : PTree) : (s.setTree t v).bitoff = s.bitoff := rfl
@[simp] theorem setTree_curbyte (t : Nat) (v : PTree) : (s.setTree t v).curbyte = s.curbyte := rfl
@[simp] theorem setTree_trees (t : Nat) (v : PTree) : (s.setTree t v).trees = s.trees.set t v := rfl
@[simp] theorem setTree_nodes (t : Nat) (v : PTree) : (s.setTree t v).nodes = s.nodes := rfl
@[simp] theorem setTree_fault (t : Nat) (v : PTree) : (s.setTree t v).fault = s.fault := rfl
@[simp] theorem setTree_config (t : Nat) (v : PTree) : (s.setTree t v).config = s.config := rfl
@[simp] theorem setTree_buf (t : Nat) (v : PTree) : (s.setTree t v).buf = s.buf := rfl
@[simp] theorem setTree_inputs (t : Nat) (v : PTree) : (s.setTree t v).inputs = s.inputs := rfl
@[simp] theorem setTree_responses (t : Nat) (v : PTree) : (s.setTree t v).responses = s.responses := rfl

/-! ### releaseTree -/

@[simp] theorem releaseTree_openf (t : Nat) : (s.releaseTree t).openf = s.openf := rfl
@[simp] theorem releaseTree_cfg (t : Nat) : (s.releaseTree t).cfg = s.cfg := rfl
@[simp] theorem releaseTree_len (t : Nat) : (s.releaseTree t).len = s.len := rfl
@[simp] theorem releaseTree_pos (t : Nat) : (s.releaseTree t).pos = s.pos := rfl
@[simp] theorem releaseTree_bitoff (t : Nat) : (s.releaseTree t).bitoff = s.bitoff := rfl
@[simp] theorem releaseTree_curbyte (t : Nat) : (s.releaseTree t).curbyte = s.curbyte := rfl
@[simp] theorem releaseTree_trees (t : Nat) : (s.releaseTree t).trees = s.trees.set t .nil := rfl
@[simp] theorem releaseTree_nodes (t : Nat) : (s.releaseTree t).nodes = s.nodes - BitVec.ofNat 32 (s.tree t).poolNodes := rfl
@[simp] theorem releaseTree_fault (t : Nat) : (s.releaseTree t).fault = s.fault := rfl
@[simp] theorem releaseTree_config (t : Nat) : (s.releaseTree t).config = s.config := rfl
@[simp] theorem releaseTree_buf (t : Nat) : (s.releaseTree t).buf = s.buf := rfl
@[simp] theorem releaseTree_inputs (t : Nat) : (s.releaseTree t).inputs = s.inputs := rfl
@[simp] theorem releaseTree_responses (t : Nat) : (s.releaseTree t).responses = s.responses := rfl

/-! ### openWith -/

@[simp] theorem openWith_openf (c : BitVec 3) (n : Word) : (s.openWith c n).openf = true := rfl
@[simp] theorem openWith_cfg (c : BitVec 3) (n : Word) : (s.openWith c n).cfg = c := rfl
@[simp] theorem openWith_len (c : BitVec 3) (n : Word) : (s.openWith c n).len = n := rfl
@[simp] theorem openWith_pos (c : BitVec 3) (n : Word) : (s.openWith c n).pos = 0 := rfl
@[simp] theorem openWith_bitoff (c : BitVec 3) (n : Word) : (s.openWith c n).bitoff = 0 := rfl
@[simp] theorem openWith_curbyte (c : BitVec 3) (n : Word) : (s.openWith c n).curbyte = 0 := rfl
@[simp] theorem openWith_trees (c : BitVec 3) (n : Word) : (s.openWith c n).trees = s.trees := rfl
@[simp] theorem openWith_nodes (c : BitVec 3) (n : Word) : (s.openWith c n).nodes = s.nodes := rfl
@[simp] theorem openWith_fault (c : BitVec 3) (n : Word) : (s.openWith c n).fault = s.fault := rfl
@[simp] theorem openWith_config (c : BitVec 3) (n : Word) : (s.openWith c n).config = s.config := rfl
@[simp] theorem openWith_buf (c : BitVec 3) (n : Word) : (s.openWith c n).buf = s.buf := rfl
@[simp] theorem openWith_inputs (c : BitVec 3) (n : Word) : (s.openWith c n).inputs = s.inputs := rfl
@[simp] theorem openWith_responses (c : BitVec 3) (n : Word) : (s.openWith c n).responses = s.responses := rfl

/-! ### closeStream -/

@[simp] theorem closeStream_openf : (s.closeStream).openf = false := rfl
@[simp] theorem closeStream_cfg : (s.closeStream).cfg = 0 := rfl
@[simp] theorem closeStream_len : (s.closeStream).len = 0 := rfl
@[simp] theorem closeStream_pos : (s.closeStream).pos = 0 := rfl
@[simp] theorem closeStream_bitoff : (s.closeStream).bitoff = 0 := rfl
@[simp] theorem closeStream_curbyte : (s.closeStream).curbyte = 0 := rfl
@[simp] theorem closeStream_trees : (s.closeStream).trees = s.trees := rfl
@[simp] theorem closeStream_nodes : (s.closeStream).nodes = s.nodes := rfl
@[simp] theorem closeStream_fault : (s.closeStream).fault = s.fault := rfl
@[simp] theorem closeStream_config : (s.closeStream).config = s.config := rfl
@[simp] theorem closeStream_buf : (s.closeStream).buf = s.buf := rfl
@[simp] theorem closeStream_inputs : (s.closeStream).inputs = s.inputs := rfl
@[simp] theorem closeStream_responses : (s.closeStream).responses = s.responses := rfl

/-! ### hostReset -/

@[simp] theorem hostReset_openf : (s.hostReset).openf = false := rfl
@[simp] theorem hostReset_cfg : (s.hostReset).cfg = 0 := rfl
@[simp] theorem hostReset_len : (s.hostReset).len = 0 := rfl
@[simp] theorem hostReset_pos : (s.hostReset).pos = 0 := rfl
@[simp] theorem hostReset_bitoff : (s.hostReset).bitoff = 0 := rfl
@[simp] theorem hostReset_curbyte : (s.hostReset).curbyte = 0 := rfl
@[simp] theorem hostReset_trees : (s.hostReset).trees = List.replicate s.config.nTrees .nil := rfl
@[simp] theorem hostReset_nodes : (s.hostReset).nodes = 0 := rfl
@[simp] theorem hostReset_fault : (s.hostReset).fault = 0 := rfl
@[simp] theorem hostReset_config : (s.hostReset).config = s.config := rfl
@[simp] theorem hostReset_buf : (s.hostReset).buf = s.buf := rfl
@[simp] theorem hostReset_inputs : (s.hostReset).inputs = s.inputs := rfl
@[simp] theorem hostReset_responses : (s.hostReset).responses = s.responses := rfl

/-! ### withFetchWord -/

@[simp] theorem withFetchWord_openf (nbits w : Nat) : (s.withFetchWord nbits w).openf = s.openf := rfl
@[simp] theorem withFetchWord_cfg (nbits w : Nat) : (s.withFetchWord nbits w).cfg = s.cfg := rfl
@[simp] theorem withFetchWord_len (nbits w : Nat) : (s.withFetchWord nbits w).len = s.len := rfl
@[simp] theorem withFetchWord_pos (nbits w : Nat) : (s.withFetchWord nbits w).pos = s.pos := rfl
@[simp] theorem withFetchWord_bitoff (nbits w : Nat) : (s.withFetchWord nbits w).bitoff = s.bitoff := rfl
@[simp] theorem withFetchWord_curbyte (nbits w : Nat) : (s.withFetchWord nbits w).curbyte = s.curbyte := rfl
@[simp] theorem withFetchWord_trees (nbits w : Nat) : (s.withFetchWord nbits w).trees = s.trees := rfl
@[simp] theorem withFetchWord_nodes (nbits w : Nat) : (s.withFetchWord nbits w).nodes = s.nodes := rfl
@[simp] theorem withFetchWord_fault (nbits w : Nat) : (s.withFetchWord nbits w).fault = s.fault := rfl
@[simp] theorem withFetchWord_config (nbits w : Nat) : (s.withFetchWord nbits w).config = s.config := rfl
@[simp] theorem withFetchWord_buf (nbits w : Nat) : (s.withFetchWord nbits w).buf = s.buf := rfl
@[simp] theorem withFetchWord_inputs (nbits w : Nat) : (s.withFetchWord nbits w).inputs = .packet (tablePacket nbits w) :: s.inputs := rfl
@[simp] theorem withFetchWord_responses (nbits w : Nat) : (s.withFetchWord nbits w).responses = s.responses := rfl

/-! ### afterFetch -/

@[simp] theorem afterFetch_openf (n : Nat) (d : Byte) : (s.afterFetch n d).openf = s.openf := rfl
@[simp] theorem afterFetch_cfg (n : Nat) (d : Byte) : (s.afterFetch n d).cfg = s.cfg := rfl
@[simp] theorem afterFetch_len (n : Nat) (d : Byte) : (s.afterFetch n d).len = s.len := rfl
@[simp] theorem afterFetch_pos (n : Nat) (d : Byte) : (s.afterFetch n d).pos = s.pos + BitVec.ofNat 32 n := rfl
@[simp] theorem afterFetch_bitoff (n : Nat) (d : Byte) : (s.afterFetch n d).bitoff = 1 := rfl
@[simp] theorem afterFetch_curbyte (n : Nat) (d : Byte) : (s.afterFetch n d).curbyte = d.setWidth 32 := rfl
@[simp] theorem afterFetch_trees (n : Nat) (d : Byte) : (s.afterFetch n d).trees = s.trees := rfl
@[simp] theorem afterFetch_nodes (n : Nat) (d : Byte) : (s.afterFetch n d).nodes = s.nodes := rfl
@[simp] theorem afterFetch_fault (n : Nat) (d : Byte) : (s.afterFetch n d).fault = s.fault := rfl
@[simp] theorem afterFetch_config (n : Nat) (d : Byte) : (s.afterFetch n d).config = s.config := rfl
@[simp] theorem afterFetch_buf (n : Nat) (d : Byte) : (s.afterFetch n d).buf = s.buf := rfl
@[simp] theorem afterFetch_inputs (n : Nat) (d : Byte) : (s.afterFetch n d).inputs = s.inputs := rfl
@[simp] theorem afterFetch_responses (n : Nat) (d : Byte) : (s.afterFetch n d).responses = s.responses := rfl

/-! ### afterPlainBits -/

@[simp] theorem afterPlainBits_openf (n : Nat) : (s.afterPlainBits n).openf = s.openf := rfl
@[simp] theorem afterPlainBits_cfg (n : Nat) : (s.afterPlainBits n).cfg = s.cfg := rfl
@[simp] theorem afterPlainBits_len (n : Nat) : (s.afterPlainBits n).len = s.len := rfl
@[simp] theorem afterPlainBits_pos (n : Nat) : (s.afterPlainBits n).pos = s.pos + BitVec.ofNat 32 (s.bytesFetched n) := rfl
@[simp] theorem afterPlainBits_bitoff (n : Nat) : (s.afterPlainBits n).bitoff = s.bitoff + BitVec.ofNat 3 n := rfl
@[simp] theorem afterPlainBits_trees (n : Nat) : (s.afterPlainBits n).trees = s.trees := rfl
@[simp] theorem afterPlainBits_nodes (n : Nat) : (s.afterPlainBits n).nodes = s.nodes := rfl
@[simp] theorem afterPlainBits_fault (n : Nat) : (s.afterPlainBits n).fault = s.fault := rfl
@[simp] theorem afterPlainBits_config (n : Nat) : (s.afterPlainBits n).config = s.config := rfl
@[simp] theorem afterPlainBits_buf (n : Nat) : (s.afterPlainBits n).buf = s.buf := rfl
@[simp] theorem afterPlainBits_inputs (n : Nat) : (s.afterPlainBits n).inputs = s.inputs := rfl
@[simp] theorem afterPlainBits_responses (n : Nat) : (s.afterPlainBits n).responses = s.responses := rfl

/-! ### latchFault, deliverFault, and the values of failed -/

/-- The latch is the record update of its one field. -/
theorem latchFault_eq (k : Status) :
    s.latchFault k = { s with fault := if s.fault = 0 then k.code else s.fault } := by
  unfold latchFault
  split <;> rfl

/-- Delivering a fault is exactly what R17 and R255 allow: the latch and the response. -/
@[simp] theorem deliverFault_eq_failed (k : Status) : s.deliverFault k = s.failed k := by
  simp only [deliverFault, latchFault_eq]
  rfl

/-- Responding with OK is completing with a result. -/
@[simp] theorem respond_ok_eq_answered (r : Option Word) : s.respond .ok r = s.answered r := rfl

end Sys2Proof.Machine.State
end

