-- ==== Sys2Proof/Laws/Ops.lean ====
section
/-! SUPPORT. Sequencing of primitives: one lemma per combinator for what it can answer, a relation that a
primitive keeps whether it returns or raises, and the cursor primitives as case tables. -/

namespace Sys2Proof.Machine

variable {α β : Type}

@[simp] theorem Op.pure_apply (v : α) (s : State) : Op.pure v s = .ok v s := rfl
@[simp] theorem Op.fail_apply (k : Status) (s : State) : (Op.fail k : Op α) s = .raise k s := rfl
@[simp] theorem Op.modify_apply (f : State → State) (s : State) : Op.modify f s = .ok () (f s) := rfl

theorem Op.bind_ok {x : Op α} {f : α → Op β} {s s' : State} {v : α} (h : x s = .ok v s') :
    Op.bind x f s = f v s' := by
  simp only [Op.bind, h]

theorem Op.bind_raise {x : Op α} {f : α → Op β} {s s' : State} {k : Status} (h : x s = .raise k s') :
    Op.bind x f s = .raise k s' := by
  simp only [Op.bind, h]

theorem Op.bind_stop {x : Op α} {f : α → Op β} {s : State} {r : Fault} (h : x s = .stop r) :
    Op.bind x f s = .stop r := by
  simp only [Op.bind, h]

@[simp] theorem Op.pure_bind (v : α) (f : α → Op β) (s : State) : Op.bind (Op.pure v) f s = f v s := rfl

@[simp] theorem Op.modify_bind (g : State → State) (f : Unit → Op β) (s : State) :
    Op.bind (Op.modify g) f s = f () (g s) := rfl

theorem Op.require_true {c : State → Bool} {k : Status} {x : Op α} {s : State} (h : c s = true) :
    Op.require c k x s = x s := by
  simp only [Op.require, h, if_true]

theorem Op.require_false {c : State → Bool} {k : Status} {x : Op α} {s : State} (h : c s = false) :
    Op.require c k x s = .raise k s := by
  simp [Op.require, h]

/-- x relates the state before to the state after by R, whether it returns or raises. -/
def Op.Ensures (R : State → State → Prop) (x : Op α) : Prop :=
  ∀ s, (∀ v s', x s = .ok v s' → R s s') ∧ ∀ k s', x s = .raise k s' → R s s'

section Ensures
variable {R : State → State → Prop}

theorem Op.ensures_pure (hr : ∀ s, R s s) (v : α) : Op.Ensures R (Op.pure v) := by
  intro s
  exact ⟨fun _ _ h => by cases h; exact hr s, fun _ _ h => by cases h⟩

theorem Op.ensures_fail (hr : ∀ s, R s s) (k : Status) : Op.Ensures R (Op.fail k : Op α) := by
  intro s
  refine ⟨fun v s' h => ?_, fun k' s' h => ?_⟩
  · cases h
  · cases h
    exact hr s

theorem Op.ensures_modify (g : State → State) (h : ∀ s, R s (g s)) : Op.Ensures R (Op.modify g) := by
  intro s
  exact ⟨fun _ _ e => by cases e; exact h s, fun _ _ e => by cases e⟩

theorem Op.ensures_bind (ht : ∀ a b c, R a b → R b c → R a c) {x : Op α} {f : α → Op β}
    (hx : Op.Ensures R x) (hf : ∀ v, Op.Ensures R (f v)) : Op.Ensures R (Op.bind x f) := by
  intro s
  cases h : x s with
  | ok v s1 =>
    rw [Op.bind_ok h]
    exact ⟨fun v' s' e => ht _ _ _ ((hx s).1 _ _ h) ((hf v s1).1 _ _ e),
      fun k s' e => ht _ _ _ ((hx s).1 _ _ h) ((hf v s1).2 _ _ e)⟩
  | raise k s1 =>
    rw [Op.bind_raise h]
    exact ⟨fun _ _ e => by simp at e, fun k s' e => by cases e; exact (hx s).2 _ _ h⟩
  | stop r =>
    rw [Op.bind_stop h]
    exact ⟨fun _ _ e => by simp at e, fun _ _ e => by simp at e⟩

theorem Op.ensures_require (hr : ∀ s, R s s) {c : State → Bool} {k : Status} {x : Op α}
    (hx : Op.Ensures R x) : Op.Ensures R (Op.require c k x) := by
  intro s
  cases h : c s with
  | true => rw [Op.require_true h]; exact hx s
  | false => rw [Op.require_false h]; exact Op.ensures_fail hr k s

end Ensures

/-! ### Completion -/

/-- Everything complete can answer: OK with a result, a fault delivered, or a stop. -/
theorem complete_cases (body : Op (Option Word)) (s : State) :
    (∃ r s', body s = .ok r s' ∧ complete body s = .next (s'.answered r)) ∨
    (∃ k s', body s = .raise k s' ∧ complete body s = .next (s'.failed k)) ∨
    (∃ f, body s = .stop f ∧ complete body s = .fault f) := by
  cases h : body s with
  | ok r s' => exact .inl ⟨r, s', rfl, by simp [complete, h]⟩
  | raise k s' => exact .inr (.inl ⟨k, s', rfl, by simp [complete, h]⟩)
  | stop f => exact .inr (.inr ⟨f, rfl, by simp [complete, h]⟩)

theorem complete_ok {body : Op (Option Word)} {s s' : State} {r : Option Word} (h : body s = .ok r s') :
    complete body s = .next (s'.answered r) := by
  simp [complete, h]

theorem complete_raise {body : Op (Option Word)} {s s' : State} {k : Status} (h : body s = .raise k s') :
    complete body s = .next (s'.failed k) := by
  simp [complete, h]

theorem complete_stop {body : Op (Option Word)} {s : State} {f : Fault} (h : body s = .stop f) :
    complete body s = .fault f := by
  simp [complete, h]

/-! ### The cursor -/

theorem atEnd_iff (s : State) : s.atEnd = true ↔ s.len.toNat ≤ s.pos.toNat := by simp [State.atEnd]

theorem atEnd_false_iff (s : State) : s.atEnd = false ↔ s.pos.toNat < s.len.toNat := by
  simp [State.atEnd]

/-- CurPeek at the end of the buffer (R131). -/
theorem curPeek_end {s : State} (h : s.len.toNat ≤ s.pos.toNat) : curPeek s = .raise .outOfBounds s :=
  Op.require_false (by simpa using h |> (atEnd_iff s).2)

/-- CurPeek before the end (R131). -/
theorem curPeek_byte {s : State} {b : Byte} (h : s.pos.toNat < s.len.toNat)
    (hb : s.buf.read s.pos.toNat = some b) : curPeek s = .ok b s := by
  rw [curPeek, Op.require_true (by simpa using (atEnd_false_iff s).2 h)]
  simp [memRead, hb]

/-- CurPeek on a byte the host has not supplied. -/
theorem curPeek_absent {s : State} (h : s.pos.toNat < s.len.toNat)
    (hb : s.buf.read s.pos.toNat = none) : curPeek s = .stop (.bufByteAbsent s.pos.toNat) := by
  rw [curPeek, Op.require_true (by simpa using (atEnd_false_iff s).2 h)]
  simp [memRead, hb]

/-- Everything CurPeek can answer. -/
theorem curPeek_cases (s : State) :
    (s.len.toNat ≤ s.pos.toNat ∧ curPeek s = .raise .outOfBounds s) ∨
    (s.pos.toNat < s.len.toNat ∧ ∃ b, s.buf.read s.pos.toNat = some b ∧ curPeek s = .ok b s) ∨
    (s.pos.toNat < s.len.toNat ∧ s.buf.read s.pos.toNat = none ∧
      curPeek s = .stop (.bufByteAbsent s.pos.toNat)) := by
  rcases Nat.lt_or_ge s.pos.toNat s.len.toNat with h | h
  · cases hb : s.buf.read s.pos.toNat with
    | none => exact .inr (.inr ⟨h, rfl, curPeek_absent h hb⟩)
    | some b => exact .inr (.inl ⟨h, b, rfl, curPeek_byte h hb⟩)
  · exact .inl ⟨h, curPeek_end h⟩

/-- CurRead at the end of the buffer (R132): POS unchanged. -/
theorem curRead_end {s : State} (h : s.len.toNat ≤ s.pos.toNat) : curRead s = .raise .outOfBounds s :=
  Op.bind_raise (curPeek_end h)

/-- CurRead before the end (R132): POS advances by 1. -/
theorem curRead_byte {s : State} {b : Byte} (h : s.pos.toNat < s.len.toNat)
    (hb : s.buf.read s.pos.toNat = some b) : curRead s = .ok b { s with pos := s.pos + 1 } :=
  Op.bind_ok (curPeek_byte h hb)

/-- CurRead on a byte the host has not supplied. -/
theorem curRead_absent {s : State} (h : s.pos.toNat < s.len.toNat)
    (hb : s.buf.read s.pos.toNat = none) : curRead s = .stop (.bufByteAbsent s.pos.toNat) :=
  Op.bind_stop (curPeek_absent h hb)

/-- Everything CurRead can answer. -/
theorem curRead_cases (s : State) :
    (s.len.toNat ≤ s.pos.toNat ∧ curRead s = .raise .outOfBounds s) ∨
    (s.pos.toNat < s.len.toNat ∧
      ∃ b, s.buf.read s.pos.toNat = some b ∧ curRead s = .ok b { s with pos := s.pos + 1 }) ∨
    (s.pos.toNat < s.len.toNat ∧ s.buf.read s.pos.toNat = none ∧
      curRead s = .stop (.bufByteAbsent s.pos.toNat)) := by
  rcases Nat.lt_or_ge s.pos.toNat s.len.toNat with h | h
  · cases hb : s.buf.read s.pos.toNat with
    | none => exact .inr (.inr ⟨h, rfl, curRead_absent h hb⟩)
    | some b => exact .inr (.inl ⟨h, b, rfl, curRead_byte h hb⟩)
  · exact .inl ⟨h, curRead_end h⟩

/-- POS + 1 does not wrap below LEN (R27). -/
theorem pos_succ_toNat {s : State} (h : s.pos.toNat < s.len.toNat) :
    (s.pos + 1).toNat = s.pos.toNat + 1 := by
  have h1 : (1 : Word).toNat = 1 := rfl
  have h2 := s.len.isLt
  simp only [BitVec.toNat_add, h1]
  omega

end Sys2Proof.Machine
end

