-- ==== Sys2Proof/Laws/BitReader.lean ====
section
/-! SUPPORT. What the escape filter and the bit reads can do: they write POS, BITOFF and CURBYTE only, POS only
moves forward and not past LEN, and the bytes they give are bytes of BUF. -/

namespace Sys2Proof.Machine

/-! ### Only POS is written -/

/-- Only POS is written, forward, and not past LEN. -/
structure PosStep (s s' : State) : Prop where
  onlyPos : s' = { s with pos := s'.pos }
  forward : s.pos.toNat ≤ s'.pos.toNat
  bounded : s.pos.toNat ≤ s.len.toNat → s'.pos.toNat ≤ s.len.toNat

theorem PosStep.refl (s : State) : PosStep s s := ⟨rfl, le_refl _, id⟩

theorem PosStep.len_eq {s s' : State} (h : PosStep s s') : s'.len = s.len := by rw [h.onlyPos]
theorem PosStep.buf_eq {s s' : State} (h : PosStep s s') : s'.buf = s.buf := by rw [h.onlyPos]
theorem PosStep.config_eq {s s' : State} (h : PosStep s s') : s'.config = s.config := by rw [h.onlyPos]
theorem PosStep.cfg_eq {s s' : State} (h : PosStep s s') : s'.cfg = s.cfg := by rw [h.onlyPos]

theorem PosStep.trans (a b c : State) (h1 : PosStep a b) (h2 : PosStep b c) : PosStep a c where
  onlyPos := by
    have := h2.onlyPos
    rw [h1.onlyPos] at this
    exact this
  forward := le_trans h1.forward h2.forward
  bounded := fun h => by
    have := h2.bounded
    rw [h1.len_eq] at this
    exact this (h1.bounded h)

/-- One CurRead's worth of POS. -/
theorem PosStep.one {s : State} (h : s.pos.toNat < s.len.toNat) :
    PosStep s { s with pos := s.pos + 1 } where
  onlyPos := rfl
  forward := by simp only [pos_succ_toNat h]; omega
  bounded := fun _ => by simp only [pos_succ_toNat h]; omega

theorem curPeek_posStep : Op.Ensures PosStep curPeek := by
  intro s
  rcases curPeek_cases s with ⟨_, h⟩ | ⟨_, b, _, h⟩ | ⟨_, _, h⟩ <;> rw [h] <;>
    refine ⟨fun _ _ e => ?_, fun _ _ e => ?_⟩ <;> cases e <;> exact PosStep.refl s

theorem curRead_posStep : Op.Ensures PosStep curRead := by
  intro s
  rcases curRead_cases s with ⟨_, h⟩ | ⟨hlt, b, _, h⟩ | ⟨_, _, h⟩ <;> rw [h] <;>
    refine ⟨fun _ _ e => ?_, fun _ _ e => ?_⟩ <;> cases e
  · exact PosStep.refl s
  · exact PosStep.one hlt

theorem skipRun_posStep (k : Nat) : Op.Ensures PosStep (skipRun k) := by
  induction k with
  | zero => exact Op.ensures_fail PosStep.refl _
  | succ k ih =>
    refine Op.ensures_bind PosStep.trans curPeek_posStep fun m => ?_
    split
    · exact Op.ensures_bind PosStep.trans curRead_posStep fun _ => ih
    · exact Op.ensures_pure PosStep.refl m

theorem resolveEscape_posStep (k : Nat) : Op.Ensures PosStep (resolveEscape k) := by
  induction k with
  | zero => exact Op.ensures_fail PosStep.refl _
  | succ k ih =>
    refine Op.ensures_bind PosStep.trans (fun s => skipRun_posStep s.remaining s) fun m => ?_
    split
    · exact Op.ensures_bind PosStep.trans curRead_posStep fun _ => Op.ensures_pure PosStep.refl _
    · split
      · refine Op.ensures_bind PosStep.trans curRead_posStep fun _ =>
          Op.ensures_bind PosStep.trans curRead_posStep fun b s => ?_
        split
        · exact ih s
        · exact Op.ensures_pure PosStep.refl b s
      · exact Op.ensures_fail PosStep.refl _

theorem dataByte_posStep (b : Byte) : Op.Ensures PosStep (dataByte b) := by
  intro s
  unfold dataByte
  split
  · exact resolveEscape_posStep _ s
  · exact Op.ensures_pure PosStep.refl b s

/-! ### The counts of the escape loops do not matter (log 9) -/

/-- A step that has consumed a byte leaves fewer. -/
theorem curRead_remaining {s s' : State} {b : Byte} (h : curRead s = .ok b s') :
    s'.remaining + 1 = s.remaining := by
  rcases curRead_cases s with ⟨_, e⟩ | ⟨hlt, b', _, e⟩ | ⟨_, _, e⟩ <;> rw [e] at h <;> cases h
  simp only [State.remaining, pos_succ_toNat hlt]
  omega

/-- A move of POS leaves no more bytes than before. -/
theorem PosStep.remaining_le {s s' : State} (h : PosStep s s') : s'.remaining ≤ s.remaining := by
  have hf := h.forward
  simp only [State.remaining, h.len_eq]
  omega

/-- With no byte left CurPeek raises. -/
theorem curPeek_of_remaining_zero {s : State} (h : s.remaining = 0) : curPeek s = .raise .outOfBounds s :=
  curPeek_end (by simp only [State.remaining] at h; omega)

/-- Two binds whose second parts agree wherever the first answers. -/
theorem Op.bind_congr {α β : Type} {x : Op α} {f g : α → Op β} {s : State}
    (h : ∀ v s', x s = .ok v s' → f v s' = g v s') : Op.bind x f s = Op.bind x g s := by
  cases hx : x s with
  | ok v s' => rw [Op.bind_ok hx, Op.bind_ok hx, h v s' hx]
  | raise k s' => rw [Op.bind_raise hx, Op.bind_raise hx]
  | stop r => rw [Op.bind_stop hx, Op.bind_stop hx]

/-- One more than enough skips the same run. -/
theorem skipRun_succ {k : Nat} {s : State} (h : s.remaining ≤ k) : skipRun (k + 1) s = skipRun k s := by
  induction k generalizing s with
  | zero => exact Op.bind_raise (curPeek_of_remaining_zero (by omega))
  | succ k ih =>
    refine Op.bind_congr fun m s1 hp => ?_
    have e1 := ((curPeek_posStep s).1 _ _ hp).remaining_le
    split
    · refine Op.bind_congr fun b s2 hr => ih ?_
      have := curRead_remaining hr
      omega
    · rfl

/-- One more than enough resolves the same escape sequence. -/
theorem resolveEscape_succ {k : Nat} {s : State} (h : s.remaining ≤ k) :
    resolveEscape (k + 1) s = resolveEscape k s := by
  induction k generalizing s with
  | zero =>
    have h0 : s.remaining = 0 := by omega
    exact Op.bind_raise (by simp only [h0]; rfl)
  | succ k ih =>
    refine Op.bind_congr fun m s1 hp => ?_
    have e1 := ((skipRun_posStep _ s).1 _ _ hp).remaining_le
    split
    · rfl
    · split
      · refine Op.bind_congr fun _ s2 h2 => Op.bind_congr fun b s3 h3 => ?_
        have := curRead_remaining h2
        have := curRead_remaining h3
        split
        · exact ih (by omega)
        · rfl
      · rfl

/-- Any count from the number of bytes left on resolves the same escape sequence. -/
theorem resolveEscape_enough {k : Nat} {s : State} (h : s.remaining ≤ k) :
    resolveEscape k s = resolveEscape s.remaining s := by
  induction k, h using Nat.le_induction with
  | base => rfl
  | succ k hk ih => rw [resolveEscape_succ hk, ih]

/-! ### The data byte comes from BUF -/

/-- A byte CurRead gives stands at the old POS, which is below the new one. -/
theorem curRead_value {s s' : State} {b : Byte} (h : curRead s = .ok b s') :
    s.pos.toNat < s.len.toNat ∧ s.buf.read s.pos.toNat = some b ∧ s' = { s with pos := s.pos + 1 } := by
  rcases curRead_cases s with ⟨_, e⟩ | ⟨hlt, b', hb, e⟩ | ⟨_, _, e⟩ <;> rw [e] at h
  · cases h
  · cases h
    exact ⟨hlt, hb, rfl⟩
  · cases h

/-- Everything a bind that answers ok went through. -/
theorem Op.bind_eq_ok {α β : Type} {x : Op α} {f : α → Op β} {s s' : State} {v : β}
    (h : Op.bind x f s = .ok v s') : ∃ u s1, x s = .ok u s1 ∧ f u s1 = .ok v s' := by
  cases hx : x s with
  | ok u s1 => exact ⟨u, s1, rfl, by rwa [Op.bind_ok hx] at h⟩
  | raise k s1 => rw [Op.bind_raise hx] at h; cases h
  | stop r => rw [Op.bind_stop hx] at h; cases h

/-- Everything a bind that raises went through. -/
theorem Op.bind_eq_raise {α β : Type} {x : Op α} {f : α → Op β} {s s' : State} {k : Status}
    (h : Op.bind x f s = .raise k s') :
    x s = .raise k s' ∨ ∃ u s1, x s = .ok u s1 ∧ f u s1 = .raise k s' := by
  cases hx : x s with
  | ok u s1 => exact .inr ⟨u, s1, rfl, by rwa [Op.bind_ok hx] at h⟩
  | raise k s1 => rw [Op.bind_raise hx] at h; cases h; exact .inl rfl
  | stop r => rw [Op.bind_stop hx] at h; cases h

/-- Everything a bind that stops went through. -/
theorem Op.bind_eq_stop {α β : Type} {x : Op α} {f : α → Op β} {s : State} {r : Fault}
    (h : Op.bind x f s = .stop r) :
    x s = .stop r ∨ ∃ u s1, x s = .ok u s1 ∧ f u s1 = .stop r := by
  cases hx : x s with
  | ok u s1 => exact .inr ⟨u, s1, rfl, by rwa [Op.bind_ok hx] at h⟩
  | raise k s1 => rw [Op.bind_raise hx] at h; cases h
  | stop r' => rw [Op.bind_stop hx] at h; cases h; exact .inl rfl

/-- What escape resolution gives is the literal 0xFF or a byte it consumed. -/
theorem resolveEscape_value (k : Nat) {s s' : State} {d : Byte} (h : resolveEscape k s = .ok d s') :
    d = 0xFF#8 ∨ ∃ a, s.pos.toNat ≤ a ∧ a < s'.pos.toNat ∧ s.buf.read a = some d := by
  induction k generalizing s with
  | zero => cases h
  | succ k ih =>
    obtain ⟨m, s1, h1, h⟩ := Op.bind_eq_ok h
    have p1 := (skipRun_posStep _ s).1 _ _ h1
    split at h
    · obtain ⟨_, s2, _, h⟩ := Op.bind_eq_ok h
      cases h
      exact .inl rfl
    · split at h
      · obtain ⟨_, s2, h2, h⟩ := Op.bind_eq_ok h
        have p2 := (curRead_posStep s1).1 _ _ h2
        obtain ⟨b, s3, h3, h⟩ := Op.bind_eq_ok h
        have p3 := (curRead_posStep s2).1 _ _ h3
        have p13 := PosStep.trans _ _ _ p1 (PosStep.trans _ _ _ p2 p3)
        split at h
        · rcases ih h with e | ⟨a, ha, hlt, hr⟩
          · exact .inl e
          · exact .inr ⟨a, le_trans p13.forward ha, hlt, by rwa [p13.buf_eq] at hr⟩
        · cases h
          obtain ⟨hlt, hr, e⟩ := curRead_value h3
          refine .inr ⟨s2.pos.toNat, le_trans p1.forward p2.forward, ?_, ?_⟩
          · rw [e]
            simp only [pos_succ_toNat hlt]
            omega
          · rwa [p2.buf_eq, p1.buf_eq] at hr
      · cases h

/-! ### FetchDataByte, ReadBit and what they write -/

/-- A successful fetch moves POS, and CURBYTE is a byte of BUF between the old POS and the new. -/
theorem fetchDataByte_ok {s s' : State} (h : fetchDataByte s = .ok () s') :
    s' = { s with pos := s'.pos, curbyte := s'.curbyte } ∧ s.pos.toNat < s'.pos.toNat ∧
    s'.pos.toNat ≤ s.len.toNat ∧
    ∃ a b, s.pos.toNat ≤ a ∧ a < s'.pos.toNat ∧ s.buf.read a = some b ∧ s'.curbyte = b.setWidth 32 := by
  unfold fetchDataByte at h
  rcases hc : s.atEnd with _ | _
  · rw [Op.require_true (by simp [hc])] at h
    obtain ⟨b, s1, h1, h⟩ := Op.bind_eq_ok h
    obtain ⟨d, s2, h2, h⟩ := Op.bind_eq_ok h
    cases h
    obtain ⟨hlt, hb, e⟩ := curRead_value h1
    have p2 := (dataByte_posStep b s1).1 _ _ h2
    have f1 : s1.pos.toNat = s.pos.toNat + 1 := by rw [e]; exact pos_succ_toNat hlt
    have hbuf : s1.buf = s.buf := by rw [e]
    have hlen : s1.len = s.len := by rw [e]
    have hf := p2.forward
    have hbd := p2.bounded (by rw [hlen, f1]; omega)
    refine ⟨?_, ?_, ?_, ?_⟩
    · simp only
      rw [p2.onlyPos, e]
    · simp only
      omega
    · simp only
      rwa [hlen] at hbd
    · unfold dataByte at h2
      split at h2
      · next hff =>
        have hb' : b = 0xFF#8 := by simpa using (Bool.and_eq_true_iff.1 hff).2
        rcases resolveEscape_value _ h2 with e' | ⟨a, ha, hlt', hr⟩
        · exact ⟨s.pos.toNat, d, le_refl _, by simp only; omega, by rw [e', ← hb']; exact hb, rfl⟩
        · exact ⟨a, d, by omega, hlt', by rwa [hbuf] at hr, rfl⟩
      · cases h2
        exact ⟨s.pos.toNat, b, le_refl _, by simp only; omega, hb, rfl⟩
  · rw [Op.require_false (by simp [hc])] at h
    cases h

/-- A failed fetch writes at most POS. -/
theorem fetchDataByte_raise {s s' : State} {k : Status} (h : fetchDataByte s = .raise k s') :
    PosStep s s' := by
  unfold fetchDataByte at h
  rcases hc : s.atEnd with _ | _
  · rw [Op.require_true (by simp [hc])] at h
    rcases Op.bind_eq_raise h with h1 | ⟨b, s1, h1, h⟩
    · exact (curRead_posStep s).2 _ _ h1
    · have p1 := (curRead_posStep s).1 _ _ h1
      rcases Op.bind_eq_raise h with h2 | ⟨d, s2, _, h⟩
      · exact PosStep.trans _ _ _ p1 ((dataByte_posStep b s1).2 _ _ h2)
      · cases h
  · rw [Op.require_false (by simp [hc])] at h
    cases h
    exact PosStep.refl s

/-- A bit read inside a byte fetches nothing and cannot fail (R173). -/
theorem readBit_inside {s : State} (h : s.bitoff ≠ 0) :
    readBit s = .ok (selectBit s.rb s.curbyte s.bitoff) { s with bitoff := s.bitoff + 1 } := by
  have : Op.bind (fun s => if s.bitoff = 0 then fetchDataByte s else .ok () s)
      (fun _ s => Res.ok (selectBit s.rb s.curbyte s.bitoff) { s with bitoff := s.bitoff + 1 }) s = _ :=
    Op.bind_ok (by rw [if_neg h])
  exact this

/-- A bit read at a byte boundary is a fetch and then the first bit (R173). -/
theorem readBit_fetch {s : State} (h : s.bitoff = 0) :
    readBit s =
      match fetchDataByte s with
      | .ok _ s' => .ok (selectBit s'.rb s'.curbyte s'.bitoff) { s' with bitoff := s'.bitoff + 1 }
      | .raise k s' => .raise k s'
      | .stop r => .stop r := by
  unfold readBit
  cases hf : fetchDataByte s with
  | ok u s' => exact Op.bind_ok (by rw [if_pos h, hf])
  | raise k s' => exact Op.bind_raise (by rw [if_pos h, hf])
  | stop r => exact Op.bind_stop (by rw [if_pos h, hf])

/-- What bit reads can do to the state: POS, BITOFF and CURBYTE only, POS forward and not past LEN, CURBYTE a
byte of BUF already consumed whenever BITOFF is not 0. -/
structure StreamStep (s s' : State) : Prop where
  frame : s' = { s with pos := s'.pos, bitoff := s'.bitoff, curbyte := s'.curbyte }
  forward : s.pos.toNat ≤ s'.pos.toNat
  bounded : s.pos.toNat ≤ s.len.toNat → s'.pos.toNat ≤ s.len.toNat
  isByte : s.curbyte.toNat ≤ 255 → s'.curbyte.toNat ≤ 255
  wasRead : (s.bitoff ≠ 0 → ∃ a, a < s.pos.toNat ∧ s.buf.read a = some (s.curbyte.setWidth 8)) →
    s'.bitoff ≠ 0 → ∃ a, a < s'.pos.toNat ∧ s.buf.read a = some (s'.curbyte.setWidth 8)

theorem StreamStep.refl (s : State) : StreamStep s s := ⟨rfl, le_refl _, id, id, id⟩

theorem StreamStep.trans (a b c : State) (h1 : StreamStep a b) (h2 : StreamStep b c) : StreamStep a c where
  frame := by
    have := h2.frame
    rw [h1.frame] at this
    exact this
  forward := le_trans h1.forward h2.forward
  bounded := fun h => by
    have hl : b.len = a.len := by rw [h1.frame]
    have := h2.bounded
    rw [hl] at this
    exact this (h1.bounded h)
  isByte := fun h => h2.isByte (h1.isByte h)
  wasRead := fun h => by
    have hb : b.buf = a.buf := by rw [h1.frame]
    have := h2.wasRead
    rw [hb] at this
    exact this (h1.wasRead h)

/-- A move of POS alone is a step of the stream. -/
theorem PosStep.streamStep {s s' : State} (h : PosStep s s') : StreamStep s s' where
  frame := by
    rw [h.onlyPos]
  forward := h.forward
  bounded := h.bounded
  isByte := fun hb => by rw [h.onlyPos]; exact hb
  wasRead := fun hw hne => by
    have e : s'.bitoff = s.bitoff ∧ s'.curbyte = s.curbyte := by rw [h.onlyPos]; exact ⟨rfl, rfl⟩
    rw [e.1] at hne
    obtain ⟨a, ha, hr⟩ := hw hne
    exact ⟨a, lt_of_lt_of_le ha h.forward, by rw [e.2]; exact hr⟩

theorem readBit_streamStep : Op.Ensures StreamStep readBit := by
  intro s
  by_cases h0 : s.bitoff = 0
  · rw [readBit_fetch h0]
    cases hf : fetchDataByte s with
    | ok u s1 =>
      obtain ⟨hfr, hlt, hle, a, b, _, hlt', hr, hcb⟩ := fetchDataByte_ok hf
      refine ⟨fun v s' e => ?_, fun k s' e => by cases e⟩
      cases e
      have h8 : (s1.curbyte.setWidth 8) = b := by
        rw [hcb]
        simp
      refine ⟨?_, by simp only; omega, fun _ => hle, fun _ => ?_, fun _ _ => ⟨a, hlt', ?_⟩⟩
      · simp only
        rw [hfr]
      · simp only [hcb, BitVec.toNat_setWidth]
        omega
      · simp only [h8]
        exact hr
    | raise k s1 =>
      refine ⟨fun v s' e => (nomatch e), fun k' s' e => ?_⟩
      cases e
      exact (fetchDataByte_raise hf).streamStep
    | stop r => exact ⟨fun _ _ e => (nomatch e), fun _ _ e => (nomatch e)⟩
  · rw [readBit_inside h0]
    refine ⟨fun v s' e => ?_, fun k s' e => (nomatch e)⟩
    cases e
    exact ⟨rfl, le_refl _, id, id, fun h _ => h h0⟩

theorem readBits_streamStep (n : Nat) : ∀ i acc, Op.Ensures StreamStep (readBits i acc n) := by
  induction n with
  | zero => exact fun i acc => Op.ensures_pure StreamStep.refl acc
  | succ n ih =>
    exact fun i acc => Op.ensures_bind StreamStep.trans readBit_streamStep fun b s => ih _ _ s

end Sys2Proof.Machine
end

