-- ==== Sys2Proof/Laws/Memory.lean ====
section
/-! SUPPORT. BUF: read after write, and the canonical form. -/

namespace Sys2Proof.Machine.Memory

/-- A write gives its value at its index and leaves every other index alone. -/
theorem read_write (m : Memory) (a : Nat) (b : Byte) (c : Nat) :
    (write m a b).read c = if c = a then some b else m.read c := by
  induction m with
  | nil => rfl
  | cons kv m ih =>
    obtain ⟨k, v⟩ := kv
    unfold write
    split
    · simp only [read]
    · split
      · next h => subst h; simp only [read]; split <;> rfl
      · next h =>
        simp only [read, ih]
        grind

/-- Placing a list of bytes gives them at base, base + 1, … and leaves every other index alone. -/
theorem read_writeBytes (bs : List Byte) (m : Memory) (a c : Nat) :
    (writeBytes m a bs).read c =
      if a ≤ c ∧ c < a + bs.length then bs[c - a]? else m.read c := by
  induction bs generalizing m a with
  | nil => grind [writeBytes]
  | cons b bs ih =>
    simp only [writeBytes, ih, read_write, List.length_cons]
    grind

/-- A lower bound for every listed index. -/
theorem wf_cons (c : Host.Cell) (m : Memory) :
    wf (c :: m) = true ↔ (∀ d ∈ m.head?, c.1 < d.1) ∧ wf m = true := by
  cases m with
  | nil => simp [wf]
  | cons d m => simp [wf]

/-- The first index after a write is the old first index or the index written. -/
theorem head_write (m : Memory) (a : Nat) (b : Byte) :
    ∀ d ∈ (write m a b).head?, d.1 = a ∨ ∃ e ∈ m.head?, d.1 = e.1 := by
  intro d hd
  cases m with
  | nil => simp [write] at hd; subst hd; exact .inl rfl
  | cons kv m =>
    unfold write at hd
    split at hd
    · simp at hd; subst hd; exact .inl rfl
    · split at hd
      · simp at hd; subst hd; exact .inl rfl
      · simp at hd; subst hd; exact .inr ⟨kv, by simp⟩

/-- A write keeps the canonical form. -/
theorem wf_write (m : Memory) (a : Nat) (b : Byte) (h : wf m = true) : wf (write m a b) = true := by
  induction m with
  | nil => rfl
  | cons kv m ih =>
    obtain ⟨k, v⟩ := kv
    obtain ⟨h1, h2⟩ := (wf_cons _ _).1 h
    unfold write
    split
    · next hlt => exact (wf_cons _ _).2 ⟨by simp [hlt], h⟩
    · split
      · next heq => exact (wf_cons _ _).2 ⟨by subst heq; exact h1, h2⟩
      · next hge hne =>
        refine (wf_cons _ _).2 ⟨fun d hd => ?_, ih h2⟩
        rcases head_write m a b d hd with h' | ⟨e, he, h'⟩
        · simp only [h']; omega
        · simpa only [h'] using h1 e he

/-- Placing a list of bytes keeps the canonical form. -/
theorem wf_writeBytes (bs : List Byte) (m : Memory) (a : Nat) (h : wf m = true) :
    wf (writeBytes m a bs) = true := by
  induction bs generalizing m a with
  | nil => exact h
  | cons b bs ih => exact ih _ _ (wf_write m a b h)

end Sys2Proof.Machine.Memory
end

