-- ==== Sys2Proof/Laws/PerInstr.lean ====
section
/-! SUPPORT. The family EncodedShape, one lemma per constructor: the packet of a command starts with a defined
opcode and has as many words as R97 says for it. -/

namespace Sys2Proof

/-- The opcode of a first word is the top byte it was built from (R95). -/
theorem opcode_headWord (op : BitVec 8) (low : BitVec 24) : opcode (headWord op low) = op := by
  unfold opcode headWord
  ext i hi
  simp only [BitVec.getElem_extractLsb', BitVec.getLsbD_append]
  rw [if_neg (by omega), Nat.add_sub_cancel_left, BitVec.getLsbD_eq_getElem]

namespace Laws.EncodedShape

/-- The packet starts with a defined opcode and has the word count of that opcode (R97, R98). -/
def Statement (i : Instr) : Prop :=
  ∃ w0 rest, encode i = w0 :: rest ∧ opcode w0 ∈ definedOpcodes ∧
    rest.length + 1 = packetWords (opcode w0)

/-- A packet built from a defined opcode and as many further words as R97 asks for has the shape. -/
theorem of_head {i : Instr} {op : BitVec 8} {low : BitVec 24} {rest : List Word}
    (h : encode i = headWord op low :: rest) (hd : op ∈ definedOpcodes)
    (hl : rest.length + 1 = packetWords op) : Statement i :=
  ⟨_, rest, h, by rw [opcode_headWord]; exact hd, by rw [opcode_headWord]; exact hl⟩

theorem openStream (cfgrsv : BitVec 21) (rb ef le : Bool) (len : Word) :
    Statement (.openStream cfgrsv rb ef le len) := of_head rfl (by decide) rfl
theorem close : Statement .close := of_head rfl (by decide) rfl
theorem pos : Statement .pos := of_head rfl (by decide) rfl
theorem endpos : Statement .endpos := of_head rfl (by decide) rfl
theorem peek : Statement .peek := of_head rfl (by decide) rfl
theorem hasmore : Statement .hasmore := of_head rfl (by decide) rfl
theorem rdbyte : Statement .rdbyte := of_head rfl (by decide) rfl
theorem rdword : Statement .rdword := of_head rfl (by decide) rfl
theorem rdint : Statement .rdint := of_head rfl (by decide) rfl
theorem rdbit : Statement .rdbit := of_head rfl (by decide) rfl
theorem rdbits (n : Nat) : Statement (.rdbits n) := of_head rfl (by decide) rfl
theorem align : Statement .align := of_head rfl (by decide) rfl
theorem tcreate (t : Nat) : Statement (.tcreate t) := of_head rfl (by decide) rfl
theorem tinsert (t len : Nat) (cw sym : Word) : Statement (.tinsert t len cw sym) :=
  of_head rfl (by decide) rfl
theorem tdestroy (t : Nat) : Statement (.tdestroy t) := of_head rfl (by decide) rfl
theorem decode (t : Nat) : Statement (.decode t) := of_head rfl (by decide) rfl
theorem rdreg (r : Nat) : Statement (.rdreg r) := of_head rfl (by decide) rfl

end Laws.EncodedShape
end Sys2Proof
end

