-- ==== Sys2Proof/Laws/Trees.lean ====
section
/-! SUPPORT. Trees: child and path lemmas, what the walk of TINSERT creates and leaves, and what the walk of
DECODE does to the stream. -/

namespace Sys2Proof.Machine

/-! ### Children and paths -/

@[simp] theorem PTree.walk_nil_path (t : PTree) : t.walk [] = t := rfl
@[simp] theorem PTree.walk_cons (t : PTree) (b : Bool) (bs : List Bool) :
    t.walk (b :: bs) = (t.child b).walk bs := rfl
@[simp] theorem PTree.child_nil (b : Bool) : PTree.nil.child b = .nil := rfl
@[simp] theorem PTree.present_nil : PTree.nil.present = false := rfl
@[simp] theorem PTree.present_node (v : Word) (z o : PTree) : (PTree.node v z o).present = true := rfl

@[simp] theorem PTree.walk_nil (bs : List Bool) : PTree.nil.walk bs = .nil := by
  induction bs with
  | nil => rfl
  | cons b bs ih => exact ih

theorem PTree.walk_append (t : PTree) (p q : List Bool) : t.walk (p ++ q) = (t.walk p).walk q := by
  induction p generalizing t with
  | nil => rfl
  | cons b bs ih => exact ih _

theorem PTree.present_iff {t : PTree} : t.present = true ↔ t ≠ .nil := by
  cases t <;> simp

theorem PTree.absent_iff {t : PTree} : t.present = false ↔ t = .nil := by
  cases t <;> simp

/-- A child reached through a node makes the node present. -/
theorem PTree.present_of_child {t : PTree} {b : Bool} (h : (t.child b).present = true) : t.present = true := by
  cases t with
  | nil => exact h
  | node => rfl

theorem PTree.child_setChild_same {t : PTree} (b : Bool) (c : PTree) (h : t.present = true) :
    (t.setChild b c).child b = c := by
  cases t with
  | nil => cases h
  | node => cases b <;> rfl

theorem PTree.child_setChild_other (t : PTree) {b d : Bool} (c : PTree) (h : d ≠ b) :
    (t.setChild b c).child d = t.child d := by
  cases t with
  | nil => rfl
  | node => cases b <;> cases d <;> first | rfl | exact absurd rfl h

@[simp] theorem PTree.present_setChild (t : PTree) (b : Bool) (c : PTree) :
    (t.setChild b c).present = t.present := by
  cases t with
  | nil => rfl
  | node => cases b <;> rfl

@[simp] theorem PTree.sym?_setChild (t : PTree) (b : Bool) (c : PTree) : (t.setChild b c).sym? = t.sym? := by
  cases t with
  | nil => rfl
  | node => cases b <;> rfl

@[simp] theorem PTree.child_setSym (t : PTree) (v : Word) (b : Bool) : (t.setSym v).child b = t.child b := by
  cases t with
  | nil => rfl
  | node => cases b <;> rfl

@[simp] theorem PTree.present_setSym (t : PTree) (v : Word) : (t.setSym v).present = t.present := by
  cases t <;> rfl

theorem PTree.sym?_setSym {t : PTree} (v : Word) (h : t.present = true) : (t.setSym v).sym? = some v := by
  cases t with
  | nil => cases h
  | node => rfl

@[simp] theorem PTree.present_fresh (ph : Word) : (PTree.fresh ph).present = true := rfl
@[simp] theorem PTree.child_fresh (ph : Word) (b : Bool) : (PTree.fresh ph).child b = .nil := by
  cases b <;> rfl
@[simp] theorem PTree.sym?_fresh (ph : Word) : (PTree.fresh ph).sym? = some ph := rfl

theorem PTree.sym?_isSome (t : PTree) : t.sym?.isSome = t.present := by
  cases t <;> rfl

theorem PTree.sym?_absent {t : PTree} (h : ¬t.present = true) : t.sym? = none := by
  cases t with
  | nil => rfl
  | node => exact absurd rfl h

/-! ### Counting -/

theorem PTree.count_pos {t : PTree} (h : t.present = true) : 1 ≤ t.count := by
  cases t with
  | nil => cases h
  | node => simp only [PTree.count]; omega

theorem PTree.count_setChild {t : PTree} (b : Bool) (c : PTree) (h : t.present = true) :
    (t.setChild b c).count + (t.child b).count = t.count + c.count := by
  cases t with
  | nil => cases h
  | node => cases b <;> simp only [PTree.setChild, PTree.child, PTree.count] <;> omega

@[simp] theorem PTree.count_setSym (t : PTree) (v : Word) : (t.setSym v).count = t.count := by
  cases t <;> rfl

@[simp] theorem PTree.count_fresh (ph : Word) : (PTree.fresh ph).count = 1 := rfl

/-- Missing nodes of a path, branch by branch. -/
theorem PTree.missing_cons (t : PTree) (b : Bool) (bs : List Bool) (n : Nat) :
    t.missing (b :: bs) (n + 1) = (if (t.child b).present then 0 else 1) + (t.child b).missing bs n := by
  unfold PTree.missing
  rw [List.range_succ_eq_map, List.filter_cons]
  have h : ((List.map Nat.succ (List.range n)).filter
        fun k => !(t.walk ((b :: bs).take (k + 1))).present).length =
      ((List.range n).filter fun k => !((t.child b).walk (bs.take (k + 1))).present).length := by
    rw [List.filter_map, List.length_map]
    rfl
  have h0 : (!(t.walk ((b :: bs).take (0 + 1))).present) = !(t.child b).present := rfl
  rw [h0]
  cases hp : (t.child b).present with
  | true =>
    simp only [Bool.not_true, Bool.false_eq_true, if_false, if_true, Nat.zero_add]
    exact h
  | false =>
    simp only [Bool.not_false, Bool.false_eq_true, if_false, if_true, List.length_cons, h]
    omega

/-- A fresh node misses what an absent one would below it. -/
theorem PTree.missing_fresh (ph : Word) {bs : List Bool} {n : Nat} (hn : n ≤ bs.length) :
    (PTree.fresh ph).missing bs n = PTree.nil.missing bs n := by
  unfold PTree.missing
  congr 1
  apply List.filter_congr
  intro k hk
  rw [List.mem_range] at hk
  cases bs with
  | nil => rw [List.length_nil] at hn; omega
  | cons b bs => rw [List.take_succ_cons, PTree.walk_cons, PTree.walk_cons, PTree.child_fresh, PTree.child_nil]

/-- A tree's depth is the length of the longest path that stays in it (R34). -/
theorem PTree.depth_le_iff (t : PTree) (k : Nat) :
    t.depth ≤ k ↔ ∀ p : List Bool, (t.walk p).present = true → p.length ≤ k := by
  induction t generalizing k with
  | nil => simp [PTree.depth]
  | node v z o ihz iho =>
    have hz : (if z.present then 1 + z.depth else 0) ≤ k ↔
        ∀ p : List Bool, (z.walk p).present = true → p.length + 1 ≤ k := by
      cases hp : z.present with
      | false => simp [PTree.absent_iff.1 hp]
      | true =>
        cases k with
        | zero =>
          simp only [if_true]
          exact ⟨fun h => absurd h (by omega), fun h => absurd (h [] hp) (by simp)⟩
        | succ k =>
          simp only [if_true, Nat.add_le_add_iff_right]
          rw [← ihz k]
          omega
    have ho : (if o.present then 1 + o.depth else 0) ≤ k ↔
        ∀ p : List Bool, (o.walk p).present = true → p.length + 1 ≤ k := by
      cases hp : o.present with
      | false => simp [PTree.absent_iff.1 hp]
      | true =>
        cases k with
        | zero =>
          simp only [if_true]
          exact ⟨fun h => absurd h (by omega), fun h => absurd (h [] hp) (by simp)⟩
        | succ k =>
          simp only [if_true, Nat.add_le_add_iff_right]
          rw [← iho k]
          omega
    rw [PTree.depth, Nat.max_le, hz, ho]
    constructor
    · rintro ⟨h1, h2⟩ p hp
      cases p with
      | nil => simp
      | cons b bs => cases b <;> [exact h1 bs hp; exact h2 bs hp]
    · intro h
      exact ⟨fun p hp => h (false :: p) hp, fun p hp => h (true :: p) hp⟩

/-- Every symbol of a tree is a symbol some path reaches. -/
theorem PTree.symsBelow_iff (t : PTree) (m : Nat) :
    t.symsBelow m = true ↔ ∀ (p : List Bool) (v : Word), (t.walk p).sym? = some v → v.toNat < m := by
  induction t with
  | nil => simp [PTree.symsBelow, PTree.sym?]
  | node w z o ihz iho =>
    simp only [PTree.symsBelow, Bool.and_eq_true, decide_eq_true_eq, ihz, iho]
    constructor
    · rintro ⟨⟨h0, h1⟩, h2⟩ p v hp
      cases p with
      | nil => cases hp; exact h0
      | cons b bs => cases b <;> [exact h1 bs v hp; exact h2 bs v hp]
    · intro h
      exact ⟨⟨h [] w rfl, fun p v hp => h (false :: p) v hp⟩, fun p v hp => h (true :: p) v hp⟩

@[simp] theorem PTree.missing_zero (t : PTree) (bs : List Bool) : t.missing bs 0 = 0 := rfl

theorem PTree.missing_le (t : PTree) (bs : List Bool) (n : Nat) : t.missing bs n ≤ n := by
  unfold PTree.missing
  exact le_trans (List.length_filter_le _ _) (by simp)

/-! ### The codeword's path -/

/-- The bits TINSERT walks, most-significant first (R206). -/
theorem codewordBits_eq (cw : Word) (len : Nat) :
    codewordBits cw len = (List.range len).map fun k => cw.getLsbD (len - 1 - k) := by
  induction len with
  | zero => rfl
  | succ n ih =>
    rw [List.range_succ_eq_map, codewordBits, ih]
    simp only [List.map_cons, List.map_map, Nat.add_sub_cancel, Nat.sub_zero]
    congr 1
    apply List.map_congr_left
    intro k _
    simp only [Function.comp]
    congr 1
    omega

@[simp] theorem codewordBits_length (cw : Word) (len : Nat) : (codewordBits cw len).length = len := by
  induction len with
  | zero => rfl
  | succ n ih => simp [codewordBits, ih]

/-! ### The walk of TINSERT -/

section Insert
variable (c : Config) (sym : Word)

theorem insertWalk_nil (n : PTree) (nodes : Word) :
    insertWalk c sym [] n nodes = ⟨n.setSym sym, nodes, false⟩ := rfl

theorem insertWalk_step {b : Bool} {bs : List Bool} {n : PTree} {nodes : Word}
    (h : (n.child b).present = true) :
    insertWalk c sym (b :: bs) n nodes =
      ⟨n.setChild b (insertWalk c sym bs (n.child b) nodes).tree,
        (insertWalk c sym bs (n.child b) nodes).nodes, (insertWalk c sym bs (n.child b) nodes).full⟩ := by
  simp [insertWalk, h]

theorem insertWalk_full {b : Bool} {bs : List Bool} {n : PTree} {nodes : Word}
    (h : (n.child b).present = false) (hc : nodes.toNat = c.nodeCap) :
    insertWalk c sym (b :: bs) n nodes = ⟨n, nodes, true⟩ := by
  simp [insertWalk, h, hc]

theorem insertWalk_create {b : Bool} {bs : List Bool} {n : PTree} {nodes : Word}
    (h : (n.child b).present = false) (hc : nodes.toNat ≠ c.nodeCap) :
    insertWalk c sym (b :: bs) n nodes =
      ⟨n.setChild b (insertWalk c sym bs (PTree.fresh c.placeholder) (nodes + 1)).tree,
        (insertWalk c sym bs (PTree.fresh c.placeholder) (nodes + 1)).nodes,
        (insertWalk c sym bs (PTree.fresh c.placeholder) (nodes + 1)).full⟩ := by
  simp [insertWalk, h, hc]

/-- NODES + 1 does not wrap while the pool has room. -/
theorem nodes_succ_toNat {c : Config} {nodes : Word} (hcap : c.nodeCap < 2 ^ 32)
    (hle : nodes.toNat ≤ c.nodeCap) (hne : nodes.toNat ≠ c.nodeCap) :
    (nodes + 1).toNat = nodes.toNat + 1 := by
  have h1 : (1 : Word).toNat = 1 := rfl
  simp only [BitVec.toNat_add, h1]
  omega

/-- NODES counts the nodes the walk creates, and stays within NODE_CAP (R35, R206). -/
theorem insertWalk_nodes (hcap : c.nodeCap < 2 ^ 32) (bits : List Bool) :
    ∀ (n : PTree) (nodes : Word), n.present = true → nodes.toNat ≤ c.nodeCap →
      (insertWalk c sym bits n nodes).nodes.toNat ≤ c.nodeCap ∧
      (insertWalk c sym bits n nodes).nodes.toNat + n.count =
        nodes.toNat + (insertWalk c sym bits n nodes).tree.count ∧
      (insertWalk c sym bits n nodes).tree.present = true := by
  induction bits with
  | nil =>
    intro n nodes hn hle
    rw [insertWalk_nil]
    exact ⟨hle, by simp, by simpa using hn⟩
  | cons b bs ih =>
    intro n nodes hn hle
    cases hp : (n.child b).present with
    | true =>
      rw [insertWalk_step c sym hp]
      obtain ⟨h1, h2, _⟩ := ih (n.child b) nodes hp hle
      have h3 := PTree.count_setChild b (insertWalk c sym bs (n.child b) nodes).tree hn
      exact ⟨h1, by simp only; omega, by simpa using hn⟩
    | false =>
      by_cases hc : nodes.toNat = c.nodeCap
      · rw [insertWalk_full c sym hp hc]
        exact ⟨hle, by simp, hn⟩
      · rw [insertWalk_create c sym hp hc]
        have hs := nodes_succ_toNat hcap hle hc
        obtain ⟨h1, h2, _⟩ := ih (PTree.fresh c.placeholder) (nodes + 1) rfl (by omega)
        have h3 := PTree.count_setChild b
          (insertWalk c sym bs (PTree.fresh c.placeholder) (nodes + 1)).tree hn
        have h4 : (n.child b).count = 0 := by rw [PTree.absent_iff.1 hp]; rfl
        rw [PTree.count_fresh] at h2
        exact ⟨h1, by simp only; omega, by simpa using hn⟩

/-- The walk fails exactly when the path misses more nodes than the pool has room for, and NODES ends at
NODE_CAP or counts the missing nodes (R206, R256). -/
theorem insertWalk_full_iff (hcap : c.nodeCap < 2 ^ 32) (bits : List Bool) :
    ∀ (n : PTree) (nodes : Word), nodes.toNat ≤ c.nodeCap →
      ((insertWalk c sym bits n nodes).full = true ↔
        c.nodeCap < nodes.toNat + n.missing bits bits.length) ∧
      (insertWalk c sym bits n nodes).nodes =
        if c.nodeCap < nodes.toNat + n.missing bits bits.length then BitVec.ofNat 32 c.nodeCap
        else nodes + BitVec.ofNat 32 (n.missing bits bits.length) := by
  induction bits with
  | nil =>
    intro n nodes hle
    rw [insertWalk_nil]
    simp only [List.length_nil, PTree.missing_zero, Nat.add_zero, BitVec.add_zero]
    rw [if_neg (by omega)]
    exact ⟨⟨fun h => by simp at h, fun h => absurd h (by omega)⟩, rfl⟩
  | cons b bs ih =>
    intro n nodes hle
    rw [List.length_cons, PTree.missing_cons]
    cases hp : (n.child b).present with
    | true =>
      rw [insertWalk_step c sym hp]
      simpa using ih (n.child b) nodes hle
    | false =>
      have hnil := PTree.absent_iff.1 hp
      by_cases hc : nodes.toNat = c.nodeCap
      · rw [insertWalk_full c sym hp hc]
        have : c.nodeCap < nodes.toNat + (1 + (n.child b).missing bs bs.length) := by omega
        simp only [Bool.false_eq_true, if_false, this]
        refine ⟨trivial, ?_⟩
        apply BitVec.eq_of_toNat_eq
        simp only [if_true, BitVec.toNat_ofNat]
        omega
      · rw [insertWalk_create c sym hp hc]
        have hs := nodes_succ_toNat hcap hle hc
        obtain ⟨h1, h2⟩ := ih (PTree.fresh c.placeholder) (nodes + 1) (by omega)
        have hm : (PTree.fresh c.placeholder).missing bs bs.length =
            (n.child b).missing bs bs.length := by
          rw [hnil, PTree.missing_fresh _ le_rfl]
        rw [hm, hs] at h1 h2
        have e : nodes.toNat + 1 + (n.child b).missing bs bs.length =
            nodes.toNat + (1 + (n.child b).missing bs bs.length) := by omega
        rw [e] at h1 h2
        simp only [Bool.false_eq_true, if_false]
        refine ⟨h1, h2.trans ?_⟩
        split
        · rfl
        · apply BitVec.eq_of_toNat_eq
          have h1' : (1 : Word).toNat = 1 := rfl
          simp only [BitVec.toNat_add, BitVec.toNat_ofNat, h1']
          omega

/-- What every bit sequence reaches after a walk that had room: the codeword's end has sym, every old node its
old symbol, every node created on the way PLACEHOLDER (R206). -/
theorem insertWalk_sym?_room (hcap : c.nodeCap < 2 ^ 32) (bits : List Bool) :
    ∀ (n : PTree) (nodes : Word), n.present = true → nodes.toNat + n.missing bits bits.length ≤ c.nodeCap →
      ∀ p : List Bool, ((insertWalk c sym bits n nodes).tree.walk p).sym? =
        if p = bits then some sym
        else if (n.walk p).present then (n.walk p).sym?
        else if p <+: bits then some c.placeholder
        else none := by
  induction bits with
  | nil =>
    intro n nodes hn _ p
    rw [insertWalk_nil]
    cases p with
    | nil => simp [PTree.sym?_setSym sym hn]
    | cons d ps =>
      cases hp : ((n.child d).walk ps).present with
      | true => simp [hp]
      | false => simp [PTree.absent_iff.1 hp]; rfl
  | cons b bs ih =>
    intro n nodes hn hroom p
    rw [List.length_cons, PTree.missing_cons] at hroom
    cases hp : (n.child b).present with
    | true =>
      rw [insertWalk_step c sym hp]
      rw [hp, if_pos rfl, Nat.zero_add] at hroom
      cases p with
      | nil => simp [hn]
      | cons d ps =>
        by_cases hd : d = b
        · subst hd
          have := ih (n.child d) nodes hp hroom ps
          simp only [PTree.walk_cons, PTree.child_setChild_same d _ hn, this, List.cons.injEq, true_and,
            List.cons_prefix_cons]
        · simp only [PTree.walk_cons, PTree.child_setChild_other n _ hd, List.cons.injEq, hd, false_and,
            if_false, List.cons_prefix_cons]
          split
          · rfl
          · next h => exact PTree.sym?_absent h
    | false =>
      rw [hp] at hroom
      simp only [Bool.false_eq_true, if_false] at hroom
      have hc : nodes.toNat ≠ c.nodeCap := by omega
      have hnil := PTree.absent_iff.1 hp
      rw [insertWalk_create c sym hp hc]
      have hs := nodes_succ_toNat hcap (by omega) hc
      have hm := PTree.missing_fresh c.placeholder (le_refl bs.length)
      rw [hnil] at hroom
      cases p with
      | nil => simp [hn]
      | cons d ps =>
        by_cases hd : d = b
        · subst hd
          have := ih (PTree.fresh c.placeholder) (nodes + 1) rfl (by rw [hm, hs]; omega) ps
          simp only [PTree.walk_cons, PTree.child_setChild_same d _ hn, this, List.cons.injEq, true_and,
            List.cons_prefix_cons, hnil, PTree.walk_nil, PTree.present_nil, Bool.false_eq_true, if_false]
          cases ps with
          | nil => simp
          | cons e es => simp
        · simp only [PTree.walk_cons, PTree.child_setChild_other n _ hd, List.cons.injEq, hd, false_and,
            if_false, List.cons_prefix_cons]
          split
          · rfl
          · next h => exact PTree.sym?_absent h

/-- What every bit sequence reaches after a walk that ran out of room: every old node its old symbol, the nodes
created before PLACEHOLDER, nothing else (R256). -/
theorem insertWalk_sym?_full (hcap : c.nodeCap < 2 ^ 32) (bits : List Bool) :
    ∀ (n : PTree) (nodes : Word), n.present = true → nodes.toNat ≤ c.nodeCap →
      c.nodeCap < nodes.toNat + n.missing bits bits.length →
      ∀ p : List Bool, ((insertWalk c sym bits n nodes).tree.walk p).sym? =
        if (n.walk p).present then (n.walk p).sym?
        else if p <+: bits ∧ nodes.toNat + n.missing bits p.length ≤ c.nodeCap then some c.placeholder
        else none := by
  induction bits with
  | nil =>
    intro n nodes _ hle hfull
    rw [List.length_nil, PTree.missing_zero] at hfull
    omega
  | cons b bs ih =>
    intro n nodes hn hle hfull p
    rw [List.length_cons, PTree.missing_cons] at hfull
    cases hp : (n.child b).present with
    | true =>
      rw [insertWalk_step c sym hp]
      rw [hp, if_pos rfl, Nat.zero_add] at hfull
      cases p with
      | nil => simp [hn]
      | cons d ps =>
        by_cases hd : d = b
        · subst hd
          have := ih (n.child d) nodes hp hle hfull ps
          simp only [PTree.walk_cons, PTree.child_setChild_same d _ hn, this, List.cons_prefix_cons, true_and,
            List.length_cons, PTree.missing_cons, hp, if_true, Nat.zero_add]
        · simp only [PTree.walk_cons, PTree.child_setChild_other n _ hd, hd, false_and,
            if_false, List.cons_prefix_cons]
          split
          · rfl
          · next h => exact PTree.sym?_absent h
    | false =>
      rw [hp] at hfull
      simp only [Bool.false_eq_true, if_false] at hfull
      have hnil := PTree.absent_iff.1 hp
      by_cases hc : nodes.toNat = c.nodeCap
      · rw [insertWalk_full c sym hp hc]
        cases hw : (n.walk p).present with
        | true => simp
        | false =>
          cases p with
          | nil => rw [PTree.walk_nil_path, hn] at hw; cases hw
          | cons d ps =>
            rw [if_neg (by simp), PTree.absent_iff.1 hw]
            rw [if_neg]
            · rfl
            · rintro ⟨h1, h2⟩
              rw [List.cons_prefix_cons] at h1
              rw [List.length_cons, PTree.missing_cons, hp] at h2
              simp only [Bool.false_eq_true, if_false] at h2
              omega
      · rw [insertWalk_create c sym hp hc]
        have hs := nodes_succ_toNat hcap hle hc
        rw [hnil] at hfull
        cases p with
        | nil => simp [hn]
        | cons d ps =>
          by_cases hd : d = b
          · subst hd
            have := ih (PTree.fresh c.placeholder) (nodes + 1) rfl (by omega)
              (by rw [PTree.missing_fresh _ le_rfl, hs]; omega) ps
            simp only [PTree.walk_cons, PTree.child_setChild_same d _ hn, this, List.cons_prefix_cons, true_and,
              List.length_cons, PTree.missing_cons, hnil, PTree.walk_nil, PTree.present_nil,
              Bool.false_eq_true, if_false, hs]
            by_cases hpre : ps <+: bs
            · rw [PTree.missing_fresh _ hpre.length_le]
              cases ps with
              | nil =>
                have : nodes.toNat + 1 ≤ c.nodeCap := by omega
                simp [this]
              | cons e es => simp [Nat.add_assoc]
            · cases ps with
              | nil => exact absurd (List.nil_prefix) hpre
              | cons e es => simp [hpre]
          · simp only [PTree.walk_cons, PTree.child_setChild_other n _ hd, hd, false_and,
              if_false, List.cons_prefix_cons]
            split
            · rfl
            · next h => exact PTree.sym?_absent h

end Insert

/-! ### The walk of DECODE -/

/-- DECODE does to the state only what bit reads do (R208). -/
theorem decodeWalk_streamStep (t : PTree) : Op.Ensures StreamStep (decodeWalk t) := by
  induction t with
  | nil => exact Op.ensures_fail StreamStep.refl _
  | node v z o ihz iho =>
    unfold decodeWalk
    split
    · refine Op.ensures_bind StreamStep.trans readBit_streamStep fun b => ?_
      split
      · exact iho
      · exact ihz
    · exact Op.ensures_pure StreamStep.refl v

end Sys2Proof.Machine
end

