-- ==== Sys2Proof/Tests/Slice0.lean ====
section
/-! SUPPORT. The model's own tests: words written out bit by bit from 30_encoding R95 and R98, the well-formedness
smoke tests, single commands of the vectors of 95 to 97, and a witness for the premises of every statement. -/

namespace Sys2Proof.Tests

open Sys2Proof Sys2Proof.Machine

/-! ### Helpers -/

/-- The next state of a step that has one. -/
def after : Host.Outcome State Fault Refusal → Option State
  | .next s => some s
  | .fault _ => none
  | .refused _ => none

/-- The response a command gave. -/
def answer (o : Host.Outcome State Fault Refusal) : Option Response :=
  (after o).bind fun s => s.responses.getLast?

/-- A field of the state a command left. -/
def leaves {α : Type} (o : Host.Outcome State Fault Refusal) (f : State → α) : Option α := (after o).map f

/-- A step that can be followed to a state with property p. -/
theorem exists_next {o : Host.Outcome State Fault Refusal} {p : State → Bool}
    (h : (after o).any p = true) : ∃ t, o = .next t ∧ p t = true := by
  cases o with
  | next s => exact ⟨s, rfl, h⟩
  | fault f => cases h
  | refused r => cases h

/-- A freshly opened stream over these bytes. -/
def stream (cfg : BitVec 3) (bs : List Byte) : State :=
  { State.reset with
    openf := true, cfg := cfg, len := BitVec.ofNat 32 bs.length, buf := Memory.writeBytes [] 0 bs }

/-- S6's tree. -/
def treeS6 : PTree :=
  .node 0xFFFF (.node 0xFFFF (.node 0xFFFF (.node 0x43 .nil .nil) .nil) .nil)
    (.node 0x42 (.node 0x41 .nil .nil) .nil)

/-- A stream in mid-byte with the filter on, S6's tree in slot 0, a fault recorded. -/
def busy : State :=
  { stream 0b010 [0xFF, 0x00, 0xAB] with
    pos := 2, bitoff := 3, curbyte := 0xFF, trees := [treeS6, .nil, .nil, .nil], nodes := 5, fault := 2 }

theorem busy_inv : busy.Inv where
  closedCleared := by decide
  openBounds := by decide
  curbyteIsByte := by decide
  nodesWithinCap := by decide
  nodesCounted := by decide
  curbyteWasRead := fun _ => ⟨0, by decide, by decide⟩
  depthBounded := by decide
  legalConfig := by decide
  slotCount := by decide
  symbolsFit := by decide
  faultLegal := by decide
  bufCanonical := by decide

/-! ### Decoding: words written out from R95 and R98 -/

/-- OP 00000001, then option bits RB EF LE in 2:0; the second word is the length. -/
theorem test_decode_open :
    decodePacket [0b00000001000000000000000000000110#32, 0b00000000000000000000000000001001#32] =
      .ok (.openStream 0 true true false 9) := by decide

/-- An option bit above bit 2 is an operand of OPEN, not a reserved field (R99). -/
theorem test_decode_open_high_option :
    decodePacket [0b00000001100000000000000000000001#32, 0b00000000000000000000000000000001#32] =
      .ok (.openStream 0b100000000000000000000 false false true 1) := by decide

theorem test_decode_close : decodePacket [0b00000010000000000000000000000000#32] = .ok .close := by decide
theorem test_decode_pos : decodePacket [0b00000011000000000000000000000000#32] = .ok .pos := by decide
theorem test_decode_endpos : decodePacket [0b00000100000000000000000000000000#32] = .ok .endpos := by decide
theorem test_decode_peek : decodePacket [0b00000101000000000000000000000000#32] = .ok .peek := by decide
theorem test_decode_hasmore : decodePacket [0b00000110000000000000000000000000#32] = .ok .hasmore := by decide
theorem test_decode_rdbyte : decodePacket [0b00001000000000000000000000000000#32] = .ok .rdbyte := by decide
theorem test_decode_rdword : decodePacket [0b00001001000000000000000000000000#32] = .ok .rdword := by decide
theorem test_decode_rdint : decodePacket [0b00001010000000000000000000000000#32] = .ok .rdint := by decide
theorem test_decode_rdbit : decodePacket [0b00001011000000000000000000000000#32] = .ok .rdbit := by decide

theorem test_decode_rdbits :
    decodePacket [0b00001100000000000000000000100001#32] = .ok (.rdbits 33) := by decide

theorem test_decode_align : decodePacket [0b00001101000000000000000000000000#32] = .ok .align := by decide

theorem test_decode_tcreate :
    decodePacket [0b00010000000000000000000000001010#32] = .ok (.tcreate 10) := by decide

/-- Slot 0011 in 23:20, length 010000 in 5:0, codeword, symbol. -/
theorem test_decode_tinsert :
    decodePacket [0b00010001001100000000000000010000#32, 0b00000000000000001111111111111110#32,
      0b00000000000000000000000000010010#32] = .ok (.tinsert 3 16 0xFFFE 0x12) := by decide

theorem test_decode_tdestroy :
    decodePacket [0b00010010000000000000000000000101#32] = .ok (.tdestroy 5) := by decide

theorem test_decode_decode :
    decodePacket [0b00010011000000000000000000001111#32] = .ok (.decode 15) := by decide

theorem test_decode_rdreg :
    decodePacket [0b00011111000000000000000000001000#32] = .ok (.rdreg 8) := by decide

/-- R100 (a): an undefined opcode, alone or with more words. -/
theorem test_reject_opcode :
    decodePacket [0x07000000#32] = .error (.undefinedOpcode 0x07) ∧
    decodePacket [0x00000000#32] = .error (.undefinedOpcode 0x00) ∧
    decodePacket [0xFF000000#32, 0#32] = .error (.undefinedOpcode 0xFF) := by decide

/-- R100 (b): a reserved bit in each format that has one. -/
theorem test_reject_reserved :
    decodePacket [0x02000001#32] = .error (.reservedFieldNotZero 0x02) ∧
    decodePacket [0x0C000040#32] = .error (.reservedFieldNotZero 0x0C) ∧
    decodePacket [0x10000010#32] = .error (.reservedFieldNotZero 0x10) ∧
    decodePacket [0x1F800000#32] = .error (.reservedFieldNotZero 0x1F) ∧
    decodePacket [0x11000041#32, 0#32, 0#32] = .error (.reservedFieldNotZero 0x11) := by decide

/-- R100 (c), (d): wrong word counts. -/
theorem test_reject_word_count :
    decodePacket [0x01000000#32] = .error (.wrongWordCount 0x01) ∧
    decodePacket [0x02000000#32, 0#32] = .error (.wrongWordCount 0x02) ∧
    decodePacket [0x11000001#32, 0#32] = .error (.wrongWordCount 0x11) ∧
    decodePacket [] = .error .emptyPacket ∧
    decodePacket [0x11000001#32, 0#32, 0#32, 0#32] = .error .packetTooLong := by decide

/-- What the host asks of the table's numbering: bit 0 of w is bit 0 of the first word. -/
theorem test_table_words :
    decodeTableWord 64 0x0000000301000002 = some (.openStream 0 false true false 3) ∧
    decodeTableWord 32 0x01000002 = some (.openStream 0 false true false 0) ∧
    decodeTableWord 96 0x000000410000000211000002 = some (.tinsert 0 2 2 0x41) ∧
    decodeTableWord 32 0x1F000008 = some (.rdreg 8) ∧
    decodeTableWord 32 0x07000000 = none := by decide

/-- A table word runs as the first command after reset, a length near 2^32 included. -/
theorem test_first_commands :
    leaves (step (State.reset.withFetchWord 64 0xFFFFFFFF01000004)) (fun s => (s.openf, s.len, s.cfg)) =
      some (true, 0xFFFFFFFF, 0b100) ∧
    answer (step (State.reset.withFetchWord 32 0x0B000000)) = some ⟨.badState, none⟩ ∧
    answer (step (State.reset.withFetchWord 32 0x10000003)) = some ⟨.ok, none⟩ ∧
    answer (step (State.reset.withFetchWord 32 0x1F000006)) = some ⟨.ok, some 0⟩ := by decide

/-- R97: the listing of S3's first table falls into its two packets. -/
theorem test_listing :
    splitListing [0x01000000#32, 0x00000002#32, 0x0C00000A#32] =
      [[0x01000000#32, 0x00000002#32], [0x0C00000A#32]] := by decide

/-- R105 and rows of V2, S6 and S4 (b); a comment, a blank line, a number too large for its field. -/
theorem test_assembler :
    assembleLine "OPEN LE+EF+RB, 1".toList = some [0x01000007#32, 0x00000001#32] ∧
    assembleLine "OPEN 0x800000, 1".toList = some [0x01800000#32, 0x00000001#32] ∧
    assembleLine " TINSERT 0, 3, 0b000, 0x43 ; C".toList = some [0x11000003#32, 0#32, 0x00000043#32] ∧
    assembleLine "RDREG CURBYTE".toList = some [0x1F000004#32] ∧
    assembleLine "RDBITS 64".toList = none ∧
    assembleListing ["OPEN 0, 2".toList, "; a comment".toList, "RDBITS 10".toList] =
      some [[0x01000000#32, 0x00000002#32], [0x0C00000A#32]] := by decide

/-! ### Well-formedness: an ill-formed term for each check -/

theorem test_wf_rdbits : (Instr.rdbits 64).wf = false ∧ (Instr.rdbits 63).wf = true := by decide
theorem test_wf_tcreate : (Instr.tcreate 16).wf = false ∧ (Instr.tcreate 15).wf = true := by decide

theorem test_wf_tinsert :
    (Instr.tinsert 16 1 0 0).wf = false ∧ (Instr.tinsert 0 64 0 0).wf = false ∧
    (Instr.tinsert 15 63 0 0).wf = true := by decide

theorem test_wf_tdestroy : (Instr.tdestroy 16).wf = false ∧ (Instr.tdestroy 15).wf = true := by decide
theorem test_wf_decode : (Instr.decode 16).wf = false ∧ (Instr.decode 15).wf = true := by decide
theorem test_wf_rdreg : (Instr.rdreg 16).wf = false ∧ (Instr.rdreg 15).wf = true := by decide

/-! ### Single commands, expected values from the vectors of 95, 96 and 97 -/

/-- S1 row 1, V2 rows 1 and 2. -/
theorem test_open :
    leaves (exec (.openStream 0 false false false 3) State.reset) (fun s => (s.openf, s.len, s.pos)) =
      some (true, 3, 0) ∧
    answer (exec (.openStream 0 false false false 0) State.reset) = some ⟨.invalidArgs, none⟩ ∧
    answer (exec (.openStream 1 false false false 1) State.reset) = some ⟨.invalidArgs, none⟩ := by decide

/-- V2 row 5: a second OPEN. -/
theorem test_open_twice :
    answer (exec (.openStream 0 false false false 1) busy) = some ⟨.badState, none⟩ := by decide

/-- V1 rows 9 and 12; the trees stay (P2 row 23). -/
theorem test_close :
    leaves (exec .close busy) (fun s => (s.openf, s.cfg, s.len)) = some (false, 0, 0) ∧
    leaves (exec .close busy) (fun s => (s.pos, s.bitoff, s.curbyte, s.nodes)) = some (0, 0, 0, 5) ∧
    leaves (exec .close State.reset) State.fault = some 6 := by decide

/-- V1 rows 3 and 7. -/
theorem test_queries :
    answer (exec .endpos (stream 0 [0x12, 0x34, 0x56, 0x78])) = some ⟨.ok, some 3⟩ ∧
    answer (exec .pos { stream 0 [0x12, 0x34, 0x56, 0x78] with pos := 2 }) = some ⟨.ok, some 2⟩ := by decide

/-- V4 row 4; S1 row 7. -/
theorem test_peek :
    answer (exec .peek { stream 2 [0xFF, 0x00, 0xD3] with pos := 2, bitoff := 3, curbyte := 0xFF }) =
      some ⟨.ok, some 0xD3⟩ ∧
    answer (exec .peek { stream 0 [0x11] with pos := 1 }) = some ⟨.outOfBounds, none⟩ := by decide

/-- V3 rows 3 and 6. -/
theorem test_hasmore :
    answer (exec .hasmore (stream 0 [0xAA])) = some ⟨.ok, some 0⟩ ∧
    answer (exec .hasmore { stream 0 [0xAA] with pos := 1 }) = some ⟨.ok, some 1⟩ := by decide

/-- V10 row 3. -/
theorem test_rdbyte :
    answer (exec .rdbyte { stream 0 [0xA5, 0x3C] with pos := 1, bitoff := 3, curbyte := 0xA5 }) =
      some ⟨.ok, some 0x3C⟩ ∧
    leaves (exec .rdbyte { stream 0 [0xA5, 0x3C] with pos := 1, bitoff := 3, curbyte := 0xA5 })
      (fun s => (s.pos, s.bitoff, s.curbyte)) = some (2, 0, 0xA5) := by decide

/-- S2 and V11: both byte orders. -/
theorem test_rdword :
    answer (exec .rdword (stream 0 [0x12, 0x34])) = some ⟨.ok, some 0x1234⟩ ∧
    answer (exec .rdword (stream 1 [0x12, 0x34])) = some ⟨.ok, some 0x3412⟩ := by decide

/-- V13 row 3: the last byte is lost. -/
theorem test_rdword_one_left :
    leaves (exec .rdword { stream 0 [0x11, 0x22, 0x33] with pos := 2 })
      (fun s => (s.pos, s.fault)) = some (3, 1) := by decide

/-- V12: both byte orders. -/
theorem test_rdint :
    answer (exec .rdint (stream 0 [0xDE, 0xAD, 0xBE, 0xEF])) = some ⟨.ok, some 0xDEADBEEF⟩ ∧
    answer (exec .rdint (stream 1 [0xDE, 0xAD, 0xBE, 0xEF])) = some ⟨.ok, some 0xEFBEADDE⟩ := by decide

/-- S4 (b) row 2: a restart marker is skipped. -/
theorem test_rdbit_restart :
    answer (exec .rdbit (stream 2 [0xFF, 0xD2, 0x7C])) = some ⟨.ok, some 0⟩ ∧
    leaves (exec .rdbit (stream 2 [0xFF, 0xD2, 0x7C])) (fun s => (s.pos, s.bitoff, s.curbyte)) =
      some (3, 1, 0x7C) := by decide

/-- S5 row 2: an invalid marker byte is not consumed. -/
theorem test_rdbit_invalid_marker :
    answer (exec .rdbit (stream 2 [0xFF, 0x05])) = some ⟨.invalidRead, none⟩ ∧
    leaves (exec .rdbit (stream 2 [0xFF, 0x05])) (fun s => (s.pos, s.bitoff, s.curbyte, s.fault)) =
      some (1, 0, 0, 2) := by decide

/-- R176's example (V22, V23): both bit orders. -/
theorem test_rdbits :
    answer (exec (.rdbits 3) (stream 0 [0xB4])) = some ⟨.ok, some 0b101⟩ ∧
    answer (exec (.rdbits 3) (stream 4 [0xB4])) = some ⟨.ok, some 0b100⟩ := by decide

/-- V4 row 3: a stuffed pair inside an RDBITS. -/
theorem test_rdbits_stuffed :
    answer (exec (.rdbits 3) (stream 2 [0xFF, 0x00, 0xD3])) = some ⟨.ok, some 7⟩ ∧
    leaves (exec (.rdbits 3) (stream 2 [0xFF, 0x00, 0xD3])) (fun s => (s.pos, s.bitoff)) = some (2, 3) := by
  decide

/-- S8 row 3. -/
theorem test_align :
    leaves (exec .align { stream 0 [0xA5, 0x3C] with pos := 1, bitoff := 1, curbyte := 0xA5 })
      (fun s => (s.pos, s.bitoff, s.curbyte)) = some (1, 0, 0xA5) := by decide

/-- S7 row 1: the slot holds a placeholder root and NODES stays. -/
theorem test_tcreate :
    leaves (exec (.tcreate 0) State.reset) (fun s => (s.tree 0, s.treesReg, s.nodes)) =
      some (.node 0xFFFF .nil .nil, 1, 0) := by decide

/-- S6 row 5: three nodes for a path that shares none. -/
theorem test_tinsert :
    leaves (exec (.tinsert 0 3 0b000 0x43)
      { State.reset with
        trees := [.node 0xFFFF .nil (.node 0x42 (.node 0x41 .nil .nil) .nil), .nil, .nil, .nil], nodes := 2 })
      (fun s => (s.tree 0, s.nodes)) = some (treeS6, 5) := by decide

/-- R206 with the pool full after one node: that node stays. -/
theorem test_tinsert_full :
    leaves (exec (.tinsert 0 3 0b101 0x58)
      { State.reset with
        trees := [.node 0xFFFF .nil .nil], config := { Config.default with nodeCap := 1 } })
      (fun s => (s.tree 0, s.nodes, s.fault)) =
      some (.node 0xFFFF .nil (.node 0xFFFF .nil .nil), 1, 4) := by decide

/-- S7, N = 1, row 4. -/
theorem test_tdestroy :
    leaves (exec (.tdestroy 0) busy) (fun s => (s.tree 0, s.nodes, s.treesReg)) = some (.nil, 0, 0) ∧
    answer (exec (.tdestroy 1) busy) = some ⟨.badState, none⟩ := by decide

/-- S6 rows 6 and 7. -/
theorem test_decode :
    answer (exec (.decode 0) { stream 0 [0x80] with trees := [treeS6, .nil, .nil, .nil] }) =
      some ⟨.ok, some 0x41⟩ ∧
    answer (exec (.decode 0)
      { stream 0 [0x80] with trees := [treeS6], pos := 1, bitoff := 2, curbyte := 0x80 }) =
      some ⟨.ok, some 0x43⟩ := by decide

/-- R208: the branch 1, 1 is missing from S6's tree; both bits are consumed. -/
theorem test_decode_no_branch :
    answer (exec (.decode 0) { stream 0 [0xC0] with trees := [treeS6, .nil, .nil, .nil] }) =
      some ⟨.noBranch, none⟩ ∧
    leaves (exec (.decode 0) { stream 0 [0xC0] with trees := [treeS6, .nil, .nil, .nil] })
      (fun s => (s.pos, s.bitoff, s.fault)) = some (1, 2, 7) := by decide

/-- R39, R245: registers by number. -/
theorem test_rdreg :
    answer (exec (.rdreg 0) busy) = some ⟨.ok, some 2⟩ ∧
    answer (exec (.rdreg 3) busy) = some ⟨.ok, some 3⟩ ∧
    answer (exec (.rdreg 6) busy) = some ⟨.ok, some 1⟩ ∧
    answer (exec (.rdreg 8) busy) = some ⟨.ok, some 2⟩ ∧
    answer (exec (.rdreg 9) busy) = some ⟨.invalidArgs, none⟩ := by decide

/-! ### Witnesses: for the premises of each statement, concrete values that meet all of them together, clause by
clause, at the ends of a range where there is one -/

/-- A stream at its end. -/
def ended : State := { stream 0 [0x11, 0x22] with pos := 2 }

/-- Inside a byte, the filter off, two bytes to come. -/
def inside : State := { stream 0 [0xA5, 0x3C, 0x0F] with pos := 1, bitoff := 6, curbyte := 0xA5 }

/-- One slot with a fresh tree, and room for a pool of n nodes. -/
def freshTree (n : Nat) : State :=
  { State.reset with trees := [.node 0xFFFF .nil .nil, .nil, .nil, .nil], config := { Config.default with nodeCap := n } }

/-- With the restart byte run through the filter again (R9). -/
def rescanning (s : State) : State := { s with config := { s.config with rstRescan := true } }

theorem witness_ResetClearsEverything :
    (∀ r, r ≤ 8 → State.reset.reg r = some 0) ∧ State.reset.reg 9 = none := by decide

theorem witness_HostResetRestoresResetState :
    { busy with inputs := [.reset, .packet []] }.inputs = .reset :: [.packet []] ∧
    { busy with inputs := [.reset, .packet []] } ≠ State.reset := by decide

theorem witness_ResetMeetsInvariant :
    Config.default.Legal ∧ Config.Legal ⟨32, 0xFFFFFFFF, 16, 0, true⟩ ∧
    Config.Legal ⟨1, 1, 1, 0xFFFFFFFF, false⟩ := by decide

theorem witness_StepKeepsInvariant :
    busy.Inv ∧ ∃ t, step (busy.withFetchWord 32 0x13000000) = .next t ∧ decide (t.bitoff = 5) = true :=
  ⟨busy_inv, exists_next (by decide)⟩

theorem witness_StepRunsDecodedCommand :
    { busy with inputs := [.packet [0x13000000]] }.inputs = [.packet [0x13000000]] ∧
    decodePacket [0x13000000] = .ok (.decode 0) ∧
    decodeTableWord 96 0x000000410000000211000002 = some (.tinsert 0 2 2 0x41) ∧ busy.inputs = [] := by decide

/-- One packet for each case of R100, and the ends of its opcode ranges. -/
theorem witness_IllegalPacketRejected :
    ((∀ i, decodePacket [] ≠ .ok i) ∧ (∀ i, decodePacket [0x07000000] ≠ .ok i) ∧
      (∀ i, decodePacket [0x0B000000, 0] ≠ .ok i) ∧ (∀ i, decodePacket [0x0C000040] ≠ .ok i)) ∧
    illegalPacket [] = true ∧ illegalPacket [0, 0, 0, 0] = true ∧ illegalPacket [0x14000000] = true ∧
    illegalPacket [0x1E000000] = true ∧ illegalPacket [0x20000000] = true ∧
    illegalPacket [0xFFFFFFFF] = true ∧ illegalPacket [0x0C000040] = true ∧
    illegalPacket [0x0B000000, 0] = true ∧ illegalPacket [0x1F00000F] = false ∧
    illegalPacket [0x01FFFFFF, 0] = false := by
  refine ⟨⟨fun i h => ?_, fun i h => ?_, fun i h => ?_, fun i h => ?_⟩, by decide⟩ <;> cases h

theorem witness_EveryPacketAnswered :
    { busy with inputs := [.packet [0x0B000000]] }.BufSupplied ∧
    { busy with inputs := [.packet [0x0B000000]] }.inputs = [.packet [0x0B000000]] := by decide

theorem witness_DecodeOfEncode :
    (Instr.openStream 0x1FFFFF true true true 0xFFFFFFFF).wf = true ∧ (Instr.rdbits 63).wf = true ∧
    (Instr.tinsert 15 63 0xFFFFFFFF 0xFFFFFFFF).wf = true ∧ (Instr.rdreg 15).wf = true := by decide

theorem witness_EncodeOfDecode :
    decodePacket [0x11F0003F, 0xFFFFFFFF, 0xFFFFFFFF] = .ok (.tinsert 15 63 0xFFFFFFFF 0xFFFFFFFF) := by decide

theorem witness_OpcodeTableDecides :
    (⟨"TINSERT", 3, 0xFF0FFFC0, 0x11000000⟩ : OpcodeRow) ∈ opcodeRows ∧
    OpcodeRow.matches ⟨"TINSERT", 3, 0xFF0FFFC0, 0x11000000⟩ [0x11F0003F, 0, 0] = true ∧
    OpcodeRow.matches ⟨"TINSERT", 3, 0xFF0FFFC0, 0x11000000⟩ [0x11F0007F, 0, 0] = false := by decide

theorem witness_EncodingColumn :
    encode (.rdbits 63) = [0x0C00003F] ∧ encode (.tcreate 15) = [0x1000000F] ∧
    encode (.tinsert 15 63 1 2) = [0x11F0003F, 1, 2] := by decide

theorem witness_ListingSplitsIntoPackets :
    ∀ i ∈ [Instr.openStream 0 false true false 3, .rdbits 8, .tinsert 15 63 1 2, .close], i.wf = true := by decide

theorem witness_OpenCommand :
    answer (exec (.openStream 1 false false false 1) State.reset) = some ⟨.invalidArgs, none⟩ ∧
    answer (exec (.openStream 0 false false false 0) busy) = some ⟨.invalidArgs, none⟩ ∧
    busy.openf = true ∧ State.reset.openf = false ∧ opcode 0x01FFFFFF = 0x01 := by decide

theorem witness_CloseCommand : State.reset.openf = false ∧ busy.openf = true := by decide
theorem witness_PositionQueries : State.reset.openf = false ∧ busy.openf = true := by decide

theorem witness_PeekCommand :
    State.reset.openf = false ∧ (ended.openf = true ∧ ended.len.toNat ≤ ended.pos.toNat) ∧
    (busy.openf = true ∧ busy.Holds [0xAB]) := by decide

theorem witness_HasmoreCommand :
    State.reset.openf = false ∧ (ended.openf = true ∧ ended.pos ≠ ended.len - 1) ∧
    (busy.openf = true ∧ busy.pos = busy.len - 1) := by decide

theorem witness_RdbyteCommand :
    State.reset.openf = false ∧ (ended.openf = true ∧ ended.len.toNat ≤ ended.pos.toNat) ∧
    (busy.openf = true ∧ busy.Holds [0xAB]) := by decide

theorem witness_RdwordCommand :
    State.reset.openf = false ∧ (ended.openf = true ∧ ended.len.toNat ≤ ended.pos.toNat) ∧
    (busy.openf = true ∧ busy.Holds [0xAB] ∧ busy.len = busy.pos + 1) ∧
    (inside.openf = true ∧ inside.Holds [0x3C, 0x0F]) := by decide

theorem witness_RdintCommand :
    State.reset.openf = false ∧ (ended.Holds [] ∧ ended.len.toNat = ended.pos.toNat + 0) ∧
    ((stream 0 [1, 2, 3]).openf = true ∧ (stream 0 [1, 2, 3]).Holds [1, 2, 3] ∧
      (stream 0 [1, 2, 3]).len.toNat = (stream 0 [1, 2, 3]).pos.toNat + 3) ∧
    (stream 1 [1, 2, 3, 4]).Holds [1, 2, 3, 4] := by decide

theorem witness_ByteOrderRoundTrip :
    (stream 0 [0x12, 0x34]).Holds
      (if (stream 0 [0x12, 0x34]).cfg.getLsbD 0 then
        [(0x1234#16).extractLsb' 0 8, (0x1234#16).extractLsb' 8 8]
      else [(0x1234#16).extractLsb' 8 8, (0x1234#16).extractLsb' 0 8]) ∧
    (stream 1 [0xEF, 0xBE, 0xAD, 0xDE]).Holds
      (if (stream 1 [0xEF, 0xBE, 0xAD, 0xDE]).cfg.getLsbD 0 then
        [(0xDEADBEEF#32).extractLsb' 0 8, (0xDEADBEEF#32).extractLsb' 8 8,
          (0xDEADBEEF#32).extractLsb' 16 8, (0xDEADBEEF#32).extractLsb' 24 8]
      else [(0xDEADBEEF#32).extractLsb' 24 8, (0xDEADBEEF#32).extractLsb' 16 8,
          (0xDEADBEEF#32).extractLsb' 8 8, (0xDEADBEEF#32).extractLsb' 0 8]) := by decide

theorem witness_BufferReadToItsEnd :
    (stream 0 [0x11, 0x22, 0x33]).openf = true ∧ (stream 0 [0x11, 0x22, 0x33]).pos = 0 ∧
    (stream 0 [0x11, 0x22, 0x33]).bitoff = 0 ∧ (stream 0 [0x11, 0x22, 0x33]).BufSupplied := by decide

theorem witness_RdbitInsideByte :
    State.reset.openf = false ∧ busy.openf = true ∧ busy.bitoff ≠ 0 ∧ ({ busy with bitoff := 7 } : State).bitoff ≠ 0 := by
  decide

theorem witness_RdbitFetchesThroughFilter :
    (stream 2 [0xFF, 0xFF, 0xD7, 0x05]).openf = true ∧ (stream 2 [0xFF, 0xFF, 0xD7, 0x05]).bitoff = 0 ∧
    (stream 2 [0xFF, 0xFF, 0xD7, 0x05]).Holds [0xFF, 0xFF, 0xD7, 0x05] ∧
    (stream 2 [0xFF, 0xFF, 0xD7, 0x05]).len.toNat = (stream 2 [0xFF, 0xFF, 0xD7, 0x05]).pos.toNat + 4 ∧
    fetchFrom true false [0xFF, 0xFF, 0xD7, 0x05] = (.ok 0x05, 4) ∧
    (ended.Holds [] ∧ ended.len.toNat = ended.pos.toNat + 0) := by decide

theorem witness_EscapeSequencesResolved :
    (stream 0 [0xFF]).ef = false ∧ (stream 0 [0xFF]).Holds [0xFF] ∧ (stream 2 [0xFE]).Holds [0xFE] ∧
    ((stream 2 [0xFF, 0x00]).ef = true ∧ (stream 2 [0xFF, 0x00]).Holds (List.replicate (0 + 1) 0xFF ++ [0x00])) ∧
    (stream 2 [0xFF, 0xFF, 0xD0, 0xFE]).Holds (List.replicate (1 + 1) 0xFF ++ [0xD0, 0xFE]) ∧
    (stream 2 [0xFF, 0xD7, 0xFF]).Holds (List.replicate (0 + 1) 0xFF ++ [0xD7, 0xFF]) ∧
    ((rescanning (stream 2 [0xFF, 0xD0, 0xFF, 0x00])).config.rstRescan = true ∧
      (rescanning (stream 2 [0xFF, 0xD0, 0xFF, 0x00])).Holds [0xFF, 0xD0, 0xFF, 0x00]) ∧
    (rescanning (stream 2 [0xFF, 0xD0, 0xFF, 0xD7, 0xFE])).Holds [0xFF, 0xD0, 0xFF, 0xD7, 0xFE] := by decide

theorem witness_EscapeSequencesRefused :
    (ended.openf = true ∧ ended.bitoff = 0 ∧ ended.len.toNat ≤ ended.pos.toNat) ∧
    ((stream 2 [0xFF, 0xCF]).ef = true ∧ (stream 2 [0xFF, 0xCF]).Holds (List.replicate (0 + 1) 0xFF ++ [0xCF])) ∧
    (stream 2 [0xFF, 0xFF, 0xD8]).Holds (List.replicate (1 + 1) 0xFF ++ [0xD8]) ∧
    ((stream 2 [0xFF]).Holds (List.replicate (0 + 1) 0xFF) ∧
      (stream 2 [0xFF]).len.toNat = (stream 2 [0xFF]).pos.toNat + (0 + 1)) ∧
    ((stream 2 [0xFF, 0xD0]).Holds (List.replicate (0 + 1) 0xFF ++ [0xD0]) ∧
      (stream 2 [0xFF, 0xD0]).len.toNat = (stream 2 [0xFF, 0xD0]).pos.toNat + (0 + 2)) ∧
    ((rescanning (stream 2 [0xFF, 0xD7, 0xFF])).config.rstRescan = true ∧
      (rescanning (stream 2 [0xFF, 0xD7, 0xFF])).Holds [0xFF, 0xD7, 0xFF] ∧
      (rescanning (stream 2 [0xFF, 0xD7, 0xFF])).len.toNat =
        (rescanning (stream 2 [0xFF, 0xD7, 0xFF])).pos.toNat + 3) := by decide

/-- Two bits of the byte in CURBYTE, then a whole byte, then one bit of the next. -/
theorem witness_RdbitsReadsNextBits :
    inside.openf = true ∧ inside.ef = false ∧
    inside.HoldsBits [false, true, false, false, true, true, true, true, false, false, false] ∧
    (stream 4 [0x2D, 0xFF, 0x00, 0x80]).HoldsBits
      ([true, false, true, true, false, true, false, false] ++ List.replicate 8 true ++ List.replicate 15 false
        ++ [true]) := by decide

theorem witness_RdbitsRunsOut :
    ({ inside with pos := 3 } : State).HoldsBits [false, true] ∧
    ({ inside with pos := 3 } : State).bitoff + BitVec.ofNat 3 2 = 0 ∧
    ({ inside with pos := 3 } : State).len.toNat ≤
      ({ inside with pos := 3 } : State).pos.toNat + ({ inside with pos := 3 } : State).bytesFetched 2 ∧
    (ended.HoldsBits [] ∧ ended.bitoff + BitVec.ofNat 3 0 = 0 ∧
      ended.len.toNat ≤ ended.pos.toNat + ended.bytesFetched 0) := by decide

theorem witness_RdbitsIsRepeatedRdbit :
    (∃ u, runInstrs (List.replicate 5 .rdbit) busy = .next u ∧
      decide (u.responses = busy.responses ++
        [true, true, true, true, true].map fun b => ⟨.ok, some (if b then 1 else 0)⟩) = true) ∧
    ∃ v, exec .rdbit ended = .next v ∧ decide (v.responses = ended.responses ++ [⟨.invalidRead, none⟩]) = true :=
  ⟨exists_next (by decide), exists_next (by decide)⟩

theorem witness_RdbitsOperand :
    answer (exec (.rdbits 33) busy) = some ⟨.invalidArgs, none⟩ ∧
    answer (exec (.rdbits 32) State.reset) = some ⟨.badState, none⟩ ∧
    answer (exec (.rdbits 0) ended) = some ⟨.ok, some 0⟩ := by decide

theorem witness_RdbitsSplits :
    ∃ t, exec (.rdbits 2) inside = .next t ∧
      decide (t.responses = inside.responses ++ [⟨.ok, some 0b01⟩] ∧
        leaves (exec (.rdbits 3) t) (fun u => u.responses) = some (t.responses ++ [⟨.ok, some 0b001⟩])) = true :=
  exists_next (by decide)

theorem witness_BitOrderRoundTrip :
    (0x2D3#32).toNat < 2 ^ 10 ∧
    (∀ j, j < 10 → (stream 0 [0xB4, 0xC0]).pos.toNat + j / 8 < (stream 0 [0xB4, 0xC0]).len.toNat ∧
      ((stream 0 [0xB4, 0xC0]).buf.read (0 + j / 8)).map (fun b => b.getLsbD (7 - j % 8)) =
        some ((0x2D3#32).getLsbD (10 - 1 - j))) ∧
    (∀ j, j < 10 → ((stream 4 [0xD3, 0x02]).buf.read (0 + j / 8)).map (fun b => b.getLsbD (j % 8)) =
      some ((0x2D3#32).getLsbD j)) := by decide

theorem witness_ResultsFitTheirWidth :
    (∃ t, exec (.rdbits 5) busy = .next t ∧ decide (t.responses = [⟨.ok, some 31⟩]) = true) ∧
    (∃ t, exec .rdword (stream 0 [0xFF, 0xFF]) = .next t ∧
      decide (t.responses = [⟨.ok, some 0xFFFF⟩]) = true) ∧
    (∃ t, exec .rdbyte busy = .next t ∧ decide (t.responses = [⟨.ok, some 0xAB⟩]) = true) ∧
    (∃ t, exec .hasmore busy = .next t ∧ decide (t.responses = [⟨.ok, some 0⟩]) = true) ∧
    (∃ t, exec (.decode 0) { busy with cfg := 0, curbyte := 0 } = .next t ∧
      decide (t.responses = [⟨.ok, some 0x43⟩]) = true) :=
  ⟨exists_next (by decide), exists_next (by decide), exists_next (by decide),
    exists_next (by decide), exists_next (by decide)⟩

theorem witness_AlignCommand : State.reset.openf = false ∧ busy.openf = true := by decide

theorem witness_AlignForcesFreshByte :
    ∃ t, exec .align busy = .next t ∧
      decide (leaves (exec .rdbit t) (fun u => u.responses) = some (t.responses ++ [⟨.ok, some 1⟩])) = true :=
  exists_next (by decide)

theorem witness_TcreateCommand :
    busy.config.nTrees ≤ 4 ∧ (0 < busy.config.nTrees ∧ busy.tree 0 ≠ .nil) ∧
    (3 < busy.config.nTrees ∧ busy.tree 3 = .nil ∧ busy.trees.length = busy.config.nTrees ∧
      busy.config.nTrees ≤ 16) ∧
    answer (exec (.tcreate 3) busy) = some ⟨.ok, none⟩ := by decide

theorem witness_TdestroyCommand :
    busy.config.nTrees ≤ 4 ∧ (3 < busy.config.nTrees ∧ busy.tree 3 = .nil) ∧
    (0 < busy.config.nTrees ∧ busy.tree 0 ≠ .nil) ∧ busy.Inv ∧
    ∃ u, exec (.tdestroy 0) busy = .next u ∧ decide (u.nodes = 0) = true :=
  ⟨by decide, by decide, by decide, busy_inv, exists_next (by decide)⟩

theorem witness_TinsertPreconditions :
    (opcode 0x11F0003F = 0x11 ∧ (0x11F0003F#32).extractLsb' 6 14 = 0) ∧
    answer (exec (.tinsert 4 1 0 0) busy) = some ⟨.invalidArgs, none⟩ ∧
    answer (exec (.tinsert 0 0 0 0) busy) = some ⟨.invalidArgs, none⟩ ∧
    answer (exec (.tinsert 0 33 0 0) busy) = some ⟨.invalidArgs, none⟩ ∧
    answer (exec (.tinsert 0 1 0 0x10000) busy) = some ⟨.invalidArgs, none⟩ ∧
    answer (exec (.tinsert 3 32 0 0xFFFF) busy) = some ⟨.badState, none⟩ := by decide

/-- A path of length 1, and one of length 32 with exactly enough room. -/
theorem witness_TinsertWritesSymbol :
    ((freshTree 1).tree 0 ≠ .nil ∧ (freshTree 1).config.nodeCap < 2 ^ 32 ∧
      (freshTree 1).nodes.toNat + ((freshTree 1).tree 0).missing [true] 1 ≤ (freshTree 1).config.nodeCap) ∧
    (freshTree 32).nodes.toNat + ((freshTree 32).tree 0).missing (List.replicate 32 false) 32 ≤
      (freshTree 32).config.nodeCap ∧
    List.replicate 32 false = (List.range 32).map (fun k => (0#32).getLsbD (32 - 1 - k)) ∧
    (busy.nodes.toNat + (busy.tree 0).missing [true, true] 2 ≤ busy.config.nodeCap ∧
      (busy.tree 0).missing [true, true] 2 = 1) := by decide

theorem witness_TinsertPoolExhausted :
    ((freshTree 2).tree 0 ≠ .nil ∧ (freshTree 2).nodes.toNat ≤ (freshTree 2).config.nodeCap ∧
      (freshTree 2).config.nodeCap <
        (freshTree 2).nodes.toNat + ((freshTree 2).tree 0).missing [true, false, true] 3) ∧
    ((freshTree 0).nodes.toNat ≤ (freshTree 0).config.nodeCap ∧
      (freshTree 0).config.nodeCap < (freshTree 0).nodes.toNat + ((freshTree 0).tree 0).missing [true] 1) := by
  decide

/-- The code 0, 10, 11 with exactly enough room. -/
theorem witness_PrefixCodeBecomesDecodable :
    (freshTree 5).tree 0 = .node (freshTree 5).config.placeholder .nil .nil ∧
    (freshTree 5).trees.length = (freshTree 5).config.nTrees ∧
    ([(1, 0, 7), (2, 2, 8), (2, 3, 9)] : List (Nat × Word × Word)).Pairwise (fun e f =>
      ¬ (List.range e.1).map (fun k => e.2.1.getLsbD (e.1 - 1 - k)) <+:
          (List.range f.1).map (fun k => f.2.1.getLsbD (f.1 - 1 - k)) ∧
      ¬ (List.range f.1).map (fun k => f.2.1.getLsbD (f.1 - 1 - k)) <+:
          (List.range e.1).map (fun k => e.2.1.getLsbD (e.1 - 1 - k))) ∧
    (freshTree 5).nodes.toNat + (([(1, 0, 7), (2, 2, 8), (2, 3, 9)] : List (Nat × Word × Word)).map
      fun e => e.1).sum ≤ (freshTree 5).config.nodeCap := by decide

theorem witness_DecodePreconditions :
    answer (exec (.decode 4) busy) = some ⟨.invalidArgs, none⟩ ∧
    answer (exec (.decode 3) busy) = some ⟨.badState, none⟩ ∧
    answer (exec (.decode 0) { busy with openf := false }) = some ⟨.badState, none⟩ := by decide

theorem witness_DecodeReturnsSymbol :
    (({ busy with cfg := 0, curbyte := 0 } : State).ef = false ∧
      (({ busy with cfg := 0, curbyte := 0 } : State).tree 0).walk [false, false, false] = .node 0x43 .nil .nil ∧
      ({ busy with cfg := 0, curbyte := 0 } : State).HoldsBits [false, false, false]) ∧
    (({ ended with trees := [.node 0xFFFF .nil .nil] } : State).tree 0).walk [] = .node 0xFFFF .nil .nil := by
  decide

/-- Two ones reach a missing branch of S6's tree at the second; one bit and then the end of the stream. -/
theorem witness_DecodeFollowsRdbits :
    (∃ u, runInstrs (List.replicate 1 .rdbit) busy = .next u ∧
      decide (u.responses = busy.responses ++ [true].map (fun b => ⟨.ok, some (if b then 1 else 0)⟩) ∧
        (busy.tree 0).walk [true] ≠ .nil ∧ ((busy.tree 0).walk [true]).child true = .nil ∧
        answer (exec .rdbit u) = some ⟨.ok, some 1⟩) = true) ∧
    ∃ u, runInstrs (List.replicate 1 .rdbit) { busy with pos := 3, bitoff := 7 } = .next u ∧
      decide (answer (exec .rdbit u) = some ⟨.invalidRead, none⟩) = true :=
  ⟨exists_next (by decide), exists_next (by decide)⟩

theorem witness_CompleteTreeHasNoMissingBranch :
    PTree.isComplete (.node 0xFFFF (.node 1 .nil .nil) (.node 2 .nil .nil)) = true ∧
    ∃ u, exec (.decode 0) { busy with trees := [.node 0xFFFF (.node 1 .nil .nil) (.node 2 .nil .nil)] } = .next u ∧
      decide (u.responses = busy.responses ++ [⟨.ok, some 2⟩]) = true :=
  ⟨by decide, exists_next (by decide)⟩

theorem witness_RdregCommand :
    answer (exec (.rdreg 9) busy) = some ⟨.invalidArgs, none⟩ ∧
    answer (exec (.rdreg 15) busy) = some ⟨.invalidArgs, none⟩ ∧ busy.trees.length ≤ 32 := by decide

theorem witness_OperandRangeCheckedFirst :
    (Instr.rdreg 9).operandsInRange busy.config = false ∧ (Instr.rdreg 8).operandsInRange busy.config = true ∧
    (Instr.tinsert 3 32 0 0xFFFF).operandsInRange busy.config = true ∧
    (Instr.tinsert 3 33 0 0xFFFF).operandsInRange busy.config = false ∧
    ∃ t, exec (.tinsert 3 32 0 0xFFFF) busy = .next t ∧
      decide (t.responses = busy.responses ++ [⟨.badState, none⟩]) = true :=
  ⟨by decide, by decide, by decide, by decide, exists_next (by decide)⟩

theorem witness_StateCheckedSecond :
    (Instr.decode 3).operandsInRange busy.config = true ∧ (Instr.decode 3).stateReady busy = false ∧
    (Instr.decode 0).operandsInRange busy.config = true ∧ (Instr.decode 0).stateReady busy = true ∧
    ∃ t, exec (.decode 0) busy = .next t ∧
      decide (t.responses = busy.responses ++ [⟨.noBranch, none⟩]) = true :=
  ⟨by decide, by decide, by decide, by decide, exists_next (by decide)⟩

theorem witness_StatusCausesAsListed :
    (∃ t, exec (.decode 0) busy = .next t ∧
      decide (t.responses = busy.responses ++ [⟨.noBranch, none⟩]) = true) ∧
    ∃ t, exec (.tinsert 0 1 0 0x7) (freshTree 0) = .next t ∧
      decide (t.responses = [⟨.allocationFailure, none⟩]) = true :=
  ⟨exists_next (by decide), exists_next (by decide)⟩

theorem witness_FaultLatchTakesFirstCode :
    (busy.fault ≠ 0 ∧ ∃ t, step { busy with inputs := [.packet [0x13000000]] } = .next t ∧
      decide (t.responses = busy.responses ++ [⟨.noBranch, none⟩]) = true) ∧
    (ended.fault = 0 ∧ ∃ t, step { ended with inputs := [.packet [0x08000000]] } = .next t ∧
      decide (t.responses = ended.responses ++ [⟨.outOfBounds, none⟩]) = true) ∧
    (∃ t, step { busy with inputs := [.bufWrite 3 [0x55]] } = .next t ∧ decide (t.fault = 2) = true) ∧
    busy.inputs = [] :=
  ⟨⟨by decide, exists_next (by decide)⟩, ⟨by decide, exists_next (by decide)⟩,
    exists_next (by decide), by decide⟩

theorem witness_FaultStaysUntilReset :
    busy.fault ≠ 0 ∧ { busy with inputs := [.packet [0x13000000], .reset] }.inputs.head? ≠ some .reset ∧
    ∃ t, step { busy with inputs := [.packet [0x13000000], .reset] } = .next t ∧
      decide (t.responses = busy.responses ++ [⟨.noBranch, none⟩]) = true :=
  ⟨by decide, by decide, exists_next (by decide)⟩

theorem witness_CommandsKeepStream :
    (Instr.peek.setsStream = false ∧ Instr.align.movesCursor = false ∧ Instr.peek.movesBits = false ∧
      Instr.rdint.fetches = false) ∧ ∃ t, exec .peek busy = .next t ∧ decide (t.pos = 2) = true :=
  ⟨by decide, exists_next (by decide)⟩

theorem witness_CommandsKeepTrees :
    ((Instr.tdestroy 0).writesSlot ≠ some 1 ∧ (Instr.decode 0).writesSlot = none ∧
      (Instr.tcreate 0).writesNodes = false) ∧ ∃ t, exec (.tdestroy 0) busy = .next t ∧ decide (t.nodes = 0) = true :=
  ⟨by decide, exists_next (by decide)⟩

theorem witness_OptionsFixedWhileOpen :
    busy.openf = true ∧ ∃ t, step (busy.withFetchWord 32 0x0B000000) = .next t ∧ decide (t.openf = true) = true :=
  ⟨by decide, exists_next (by decide)⟩

theorem witness_PositionNeverDecreases :
    busy.Inv ∧ busy.openf = true ∧
    ∃ t, step (busy.withFetchWord 32 0x08000000) = .next t ∧ decide (t.openf = true ∧ t.pos = 3) = true :=
  ⟨busy_inv, by decide, exists_next (by decide)⟩

theorem witness_BitOffsetStateMachine :
    (∃ t, exec .rdbit { busy with bitoff := 7 } = .next t ∧ decide (t.bitoff = 0) = true) ∧
    (∃ t, exec .rdbit ended = .next t ∧
      decide (t.responses.getLast?.map Response.status ≠ some .ok) = true) ∧
    (∃ t, exec .rdint busy = .next t ∧ decide (t.bitoff = 0) = true) ∧
    (∃ t, exec .close busy = .next t ∧
      decide (t.responses.getLast?.map Response.status = some .ok) = true) ∧
    (∃ t, exec .peek busy = .next t ∧ decide (Instr.peek.movesBits = false) = true) :=
  ⟨exists_next (by decide), exists_next (by decide), exists_next (by decide),
    exists_next (by decide), exists_next (by decide)⟩

/-- The open stream of busy covers indices 0 to 2: the same byte at 2 and a new one at 3 may be placed; another
byte at 2 may not. -/
theorem witness_HostWritesBuffer :
    (∀ k, k < [0xAB#8, 0x55#8].length → busy.openf = true → 2 + k < busy.len.toNat →
      busy.buf.read (2 + k) = [0xAB#8, 0x55#8][k]?) ∧
    (2 + 0 < busy.len.toNat ∧ busy.buf.read (2 + 0) ≠ [0xAC#8][0]?) := by decide

theorem witness_UnsuppliedByteStops :
    ({ ended with pos := 1, buf := [(0, 0x11)] } : State).openf = true ∧
    ({ ended with pos := 1, buf := [(0, 0x11)] } : State).pos.toNat <
      ({ ended with pos := 1, buf := [(0, 0x11)] } : State).len.toNat ∧
    ({ ended with pos := 1, buf := [(0, 0x11)] } : State).buf.read 1 = none := by decide

end Sys2Proof.Tests
end

section
/-! ## What a command body can leave

A body leaves a state by returning or by raising; either way the command completes from that state. One inversion
lemma per combinator, so that no proof about a command splits the combinators again. -/

namespace Sys2Proof.Machine

variable {α β : Type} {s s' t : State}

/-- The body ends in state s', returning or raising (R256: what was written stays written). -/
def Op.Leaves (x : Op α) (s s' : State) : Prop :=
  (∃ v, x s = .ok v s') ∨ ∃ k, x s = .raise k s'

theorem Op.Ensures.of_leaves {R : State → State → Prop} {x : Op α} (hx : Op.Ensures R x)
    (h : x.Leaves s s') : R s s' := by
  rcases h with ⟨v, h⟩ | ⟨k, h⟩
  · exact (hx s).1 v s' h
  · exact (hx s).2 k s' h

/-- A failed test leaves the state it was made in. -/
theorem Op.leaves_require {c : State → Bool} {k : Status} {x : Op α}
    (h : (Op.require c k x).Leaves s s') : s' = s ∨ (c s = true ∧ x.Leaves s s') := by
  cases hc : c s with
  | true => exact .inr ⟨rfl, by simpa only [Op.Leaves, Op.require_true hc] using h⟩
  | false =>
    rw [Op.Leaves, Op.require_false hc] at h
    rcases h with ⟨_, h⟩ | ⟨_, h⟩ <;> cases h
    exact .inl rfl

/-- A write followed by a value leaves the written state. -/
theorem Op.leaves_modify_pure {g : State → State} {v : β}
    (h : (Op.bind (Op.modify g) fun _ => Op.pure v).Leaves s s') : s' = g s := by
  rcases h with ⟨_, h⟩ | ⟨_, h⟩ <;> cases h
  rfl

/-- The command completes from s': the response is given, and a status other than OK is latched (R93, R255). -/
def State.Completes (s' t : State) : Prop :=
  (∃ r, t = s'.answered r) ∨ ∃ k, t = s'.failed k

/-- A command that has a next state completes from a state its body leaves. -/
theorem complete_next {body : Op (Option Word)} (h : complete body s = .next t) :
    ∃ s', body.Leaves s s' ∧ s'.Completes t := by
  rcases complete_cases body s with ⟨r, s', hb, e⟩ | ⟨k, s', hb, e⟩ | ⟨f, _, e⟩ <;> rw [e] at h <;> cases h
  · exact ⟨s', .inl ⟨r, hb⟩, .inl ⟨r, rfl⟩⟩
  · exact ⟨s', .inr ⟨k, hb⟩, .inr ⟨k, rfl⟩⟩

/-- Completion writes FAULT and the responses only. -/
theorem State.Completes.frame (h : State.Completes s' t) :
    t = { s' with fault := t.fault, responses := t.responses } := by
  rcases h with ⟨r, rfl⟩ | ⟨k, rfl⟩ <;> rfl

/-- The latch keeps a fault that is recorded (R38). -/
theorem State.Completes.fault_eq (h : State.Completes s' t) (hf : s'.fault ≠ 0) : t.fault = s'.fault := by
  rcases h with ⟨r, rfl⟩ | ⟨k, rfl⟩
  · rfl
  · rw [State.failed_fault, if_neg hf]

theorem Status.code_le (k : Status) : k.code.toNat ≤ 7 := by
  cases k <;> decide

/-- The latch takes status codes only (R39). -/
theorem State.Completes.fault_le (h : State.Completes s' t) (hf : s'.fault.toNat ≤ 7) :
    t.fault.toNat ≤ 7 := by
  rcases h with ⟨r, rfl⟩ | ⟨k, rfl⟩
  · exact hf
  · rw [State.failed_fault]
    split
    · exact k.code_le
    · exact hf

end Sys2Proof.Machine
end

section
/-! ## What each command can do to the state

The one inversion of exec: every frame, safety and invariant statement is derived from `exec_effect` by cases on the
effect, and none of them unfolds a command again. -/

namespace Sys2Proof.Machine

variable {s s' t : State}

/-- The state TINSERT leaves once its tests have passed, whether or not the pool runs out (R206, R256). -/
def State.insertInto (s : State) (t len : Nat) (cw sym : Word) : State :=
  { s.setTree t (insertWalk s.config sym (codewordBits cw len) (s.tree t) s.nodes).tree with
    nodes := (insertWalk s.config sym (codewordBits cw len) (s.tree t) s.nodes).nodes }

theorem insertBody_leaves {k len : Nat} {cw sym : Word} (h : (insertBody k len cw sym).Leaves s s') :
    s' = s.insertInto k len cw sym := by
  simp only [Op.Leaves, insertBody] at h
  split at h <;> rcases h with ⟨_, h⟩ | ⟨_, h⟩ <;> cases h <;> rfl

/-- What the body of a command can leave of state s, with the tests that have passed. -/
inductive Effect (s : State) : Instr → State → Prop where
  /-- A failed test, or a command that only reads registers or the byte at POS. -/
  | unchanged (i : Instr) : Effect s i s
  /-- OPEN (R135). -/
  | opened (cfgrsv : BitVec 21) (rb ef le : Bool) {len : Word} (closed : s.openf = false) (nonempty : len ≠ 0) :
    Effect s (.openStream cfgrsv rb ef le len) (s.openWith (cfgOf rb ef le) len)
  /-- CLOSE (R136). -/
  | closed : Effect s .close s.closeStream
  /-- ALIGN (R177). -/
  | aligned (isOpen : s.openf = true) : Effect s .align { s with bitoff := 0 }
  /-- A byte-aligned read (R161 to R163): BITOFF is cleared, then POS moves. -/
  | bytesRead {i : Instr} {s' : State} (isOpen : s.openf = true) (reader : i ∈ [.rdbyte, .rdword, .rdint])
    (moved : PosStep { s with bitoff := 0 } s') : Effect s i s'
  /-- Bit reads (R175, R176, R208). -/
  | bitsRead {i : Instr} {s' : State} (isOpen : s.openf = true) (reader : i.fetches = true)
    (keepsStream : i.setsStream = false) (moved : StreamStep s s') : Effect s i s'
  /-- TCREATE (R205). -/
  | created {k : Nat} (inRange : k < s.config.nTrees) (absent : s.tree k = .nil) :
    Effect s (.tcreate k) (s.setTree k (PTree.fresh s.config.placeholder))
  /-- TINSERT (R206). -/
  | inserted {k len : Nat} (cw : Word) {sym : Word} (inRange : k < s.config.nTrees) (short : len ≤ 32)
    (fits : sym.toNat < 2 ^ s.config.symW) (present : (s.tree k).present = true) :
    Effect s (.tinsert k len cw sym) (s.insertInto k len cw sym)
  /-- TDESTROY (R207). -/
  | destroyed {k : Nat} (inRange : k < s.config.nTrees) : Effect s (.tdestroy k) (s.releaseTree k)

theorem curPeek_keeps : Op.Ensures Eq curPeek := by
  intro s
  rcases curPeek_cases s with ⟨_, h⟩ | ⟨_, b, _, h⟩ | ⟨_, _, h⟩ <;> rw [h] <;>
    refine ⟨fun _ _ e => ?_, fun _ _ e => ?_⟩ <;> cases e <;> rfl

/-- A failed test has no effect, so what a test guards may assume it passed (R241). -/
theorem Effect.of_require {c : State → Bool} {k : Status} {x : Op (Option Word)} {i : Instr}
    (h : (Op.require c k x).Leaves s s') (hx : c s = true → x.Leaves s s' → Effect s i s') : Effect s i s' := by
  rcases Op.leaves_require h with rfl | ⟨hc, h⟩
  · exact .unchanged i
  · exact hx hc h

/-- It is enough to give the effect of the body of a command. -/
theorem complete_effect {body : Op (Option Word)} {i : Instr} (h : complete body s = .next t)
    (hbody : ∀ s', body.Leaves s s' → Effect s i s') : ∃ s', Effect s i s' ∧ s'.Completes t := by
  obtain ⟨s', hl, hc⟩ := complete_next h
  exact ⟨s', hbody s' hl, hc⟩

/-- The commands whose body keeps the state. -/
theorem readOnly_effect {body : Op (Option Word)} {i : Instr} (h : complete body s = .next t)
    (hk : Op.Ensures Eq body) : ∃ s', Effect s i s' ∧ s'.Completes t :=
  complete_effect h fun s' hl => by
    obtain rfl := hk.of_leaves hl
    exact .unchanged i

/-- The byte-aligned reads, from what follows the clearing of BITOFF. -/
theorem byteRead_effect {rest : Op (Option Word)} {i : Instr}
    (h : complete (Op.require isOpen .badState <| Op.bind clearBitoff fun _ => rest) s = .next t)
    (hi : i ∈ [.rdbyte, .rdword, .rdint]) (hrest : Op.Ensures PosStep rest) :
    ∃ s', Effect s i s' ∧ s'.Completes t :=
  complete_effect h fun _ hl => .of_require hl fun ho hl =>
    .bytesRead ho hi (hrest.of_leaves (s := { s with bitoff := 0 }) hl)

theorem openStream_effect {cfgrsv : BitVec 21} {rb ef le : Bool} {len : Word}
    (h : exec (.openStream cfgrsv rb ef le len) s = .next t) :
    ∃ s', Effect s (.openStream cfgrsv rb ef le len) s' ∧ s'.Completes t :=
  complete_effect h fun s' hl => .of_require hl fun hargs hl => .of_require hl fun hclosed hl => by
    obtain rfl := Op.leaves_modify_pure hl
    simp only [openArgsInRange, Bool.and_eq_true, decide_eq_true_eq] at hargs
    exact .opened _ _ _ _ (by simpa [isClosed] using hclosed) hargs.2

theorem close_effect (h : exec .close s = .next t) : ∃ s', Effect s .close s' ∧ s'.Completes t :=
  complete_effect h fun s' hl => .of_require hl fun _ hl => by
    obtain rfl := Op.leaves_modify_pure hl
    exact .closed

theorem align_effect (h : exec .align s = .next t) : ∃ s', Effect s .align s' ∧ s'.Completes t :=
  complete_effect h fun s' hl => .of_require hl fun ho hl => by
    obtain rfl := Op.leaves_modify_pure hl
    exact .aligned ho

theorem rdbit_effect (h : exec .rdbit s = .next t) : ∃ s', Effect s .rdbit s' ∧ s'.Completes t :=
  complete_effect h fun s' hl => .of_require hl fun ho hl => by
    have hread := Op.ensures_bind StreamStep.trans readBit_streamStep
      fun b => Op.ensures_pure StreamStep.refl (some (bitWord b))
    exact .bitsRead ho rfl rfl (hread.of_leaves hl)

theorem rdbits_effect {n : Nat} (h : exec (.rdbits n) s = .next t) :
    ∃ s', Effect s (.rdbits n) s' ∧ s'.Completes t :=
  complete_effect h fun s' hl => .of_require hl fun _ hl => .of_require hl fun ho hl => by
    have hread := Op.ensures_bind StreamStep.trans (readBits_streamStep n 0 0)
      fun v => Op.ensures_pure StreamStep.refl (some v)
    exact .bitsRead ho rfl rfl (hread.of_leaves hl)

theorem decode_effect {k : Nat} (h : exec (.decode k) s = .next t) :
    ∃ s', Effect s (.decode k) s' ∧ s'.Completes t :=
  complete_effect h fun s' hl => .of_require hl fun _ hl => .of_require hl fun hready hl => by
    have hwalk : Op.Ensures StreamStep fun s => decodeWalk (s.tree k) s :=
      fun s => decodeWalk_streamStep (s.tree k) s
    have hread := Op.ensures_bind StreamStep.trans hwalk fun v => Op.ensures_pure StreamStep.refl (some v)
    exact .bitsRead (Bool.and_eq_true_iff.1 hready).2 rfl rfl (hread.of_leaves hl)

theorem tcreate_effect {k : Nat} (h : exec (.tcreate k) s = .next t) :
    ∃ s', Effect s (.tcreate k) s' ∧ s'.Completes t :=
  complete_effect h fun s' hl => .of_require hl fun hk hl => .of_require hl fun habs hl => by
    obtain rfl := Op.leaves_modify_pure hl
    exact .created (of_decide_eq_true hk) (PTree.absent_iff.1 (by simpa [slotAbsent] using habs))

theorem tinsert_effect {k len : Nat} {cw sym : Word} (h : exec (.tinsert k len cw sym) s = .next t) :
    ∃ s', Effect s (.tinsert k len cw sym) s' ∧ s'.Completes t :=
  complete_effect h fun s' hl => .of_require hl fun hargs hl => .of_require hl fun hp hl => by
    obtain rfl := insertBody_leaves hl
    simp only [insertArgsInRange, slotInRange, Bool.and_eq_true, decide_eq_true_eq] at hargs
    obtain ⟨⟨⟨hk, _⟩, hlen⟩, hsym⟩ := hargs
    exact .inserted cw hk hlen hsym hp

theorem tdestroy_effect {k : Nat} (h : exec (.tdestroy k) s = .next t) :
    ∃ s', Effect s (.tdestroy k) s' ∧ s'.Completes t :=
  complete_effect h fun s' hl => .of_require hl fun hk hl => .of_require hl fun _ hl => by
    obtain rfl := Op.leaves_modify_pure hl
    exact .destroyed (of_decide_eq_true hk)

/-- Every command that has a next state completes from one of its effects. -/
theorem exec_effect {i : Instr} (h : exec i s = .next t) : ∃ s', Effect s i s' ∧ s'.Completes t := by
  have keeps : ∀ s : State, s = s := fun _ => rfl
  have stays : ∀ (v : State → Option Word), Op.Ensures Eq fun s => .ok (v s) s :=
    fun v s => Op.ensures_pure keeps (v s) s
  have moves : ∀ (v : State → Option Word), Op.Ensures PosStep fun s => .ok (v s) s :=
    fun v s => Op.ensures_pure PosStep.refl (v s) s
  have reads : ∀ {f : Byte → Op (Option Word)}, (∀ b, Op.Ensures PosStep (f b)) →
      Op.Ensures PosStep (Op.bind curRead f) := Op.ensures_bind PosStep.trans curRead_posStep
  cases i with
  | openStream cfgrsv rb ef le len => exact openStream_effect h
  | close => exact close_effect h
  | pos => exact readOnly_effect h (Op.ensures_require keeps (stays _))
  | endpos => exact readOnly_effect h (Op.ensures_require keeps (stays _))
  | peek =>
    exact readOnly_effect h <| Op.ensures_require keeps <|
      Op.ensures_bind (R := Eq) (fun _ _ _ => Eq.trans) curPeek_keeps fun _ => Op.ensures_pure keeps _
  | hasmore => exact readOnly_effect h (Op.ensures_require keeps (stays _))
  | rdbyte => exact byteRead_effect h (by simp) (reads fun _ => Op.ensures_pure PosStep.refl _)
  | rdword => exact byteRead_effect h (by simp) (reads fun _ => reads fun _ => moves _)
  | rdint =>
    exact byteRead_effect h (by simp) (reads fun _ => reads fun _ => reads fun _ => reads fun _ => moves _)
  | rdbit => exact rdbit_effect h
  | rdbits n => exact rdbits_effect h
  | align => exact align_effect h
  | tcreate k => exact tcreate_effect h
  | tinsert k len cw sym => exact tinsert_effect h
  | tdestroy k => exact tdestroy_effect h
  | decode k => exact decode_effect h
  | rdreg r => exact readOnly_effect h (Op.ensures_require keeps (stays _))

end Sys2Proof.Machine
end

section
/-! ## What an effect leaves unchanged (R30) -/

namespace Sys2Proof.Instr

variable {i : Instr}

theorem movesCursor_of_byteRead (h : i ∈ [.rdbyte, .rdword, .rdint]) : i.movesCursor = true := by
  simp only [List.mem_cons, List.not_mem_nil, or_false] at h
  rcases h with rfl | rfl | rfl <;> rfl

theorem movesCursor_of_fetches (h : i.fetches = true) : i.movesCursor = true := by
  cases i <;> cases h <;> rfl

theorem movesBits_of_movesCursor (h : i.movesCursor = true) : i.movesBits = true := by
  cases i <;> cases h <;> rfl

end Sys2Proof.Instr

namespace Sys2Proof.Machine

variable {s s' : State} {i : Instr}

theorem Effect.openf_cfg_len_eq (h : Effect s i s') (hi : i.setsStream = false) :
    s'.openf = s.openf ∧ s'.cfg = s.cfg ∧ s'.len = s.len := by
  cases h with
  | opened => cases hi
  | closed => cases hi
  | bytesRead _ _ moved => rw [moved.onlyPos]; exact ⟨rfl, rfl, rfl⟩
  | bitsRead _ _ _ moved => rw [moved.frame]; exact ⟨rfl, rfl, rfl⟩
  | unchanged | aligned | created | inserted | destroyed => exact ⟨rfl, rfl, rfl⟩

theorem Effect.pos_eq (h : Effect s i s') (hi : i.movesCursor = false) : s'.pos = s.pos := by
  cases h with
  | opened => cases hi
  | closed => cases hi
  | bytesRead _ reader => cases hi.symm.trans (Instr.movesCursor_of_byteRead reader)
  | bitsRead _ reader => cases hi.symm.trans (Instr.movesCursor_of_fetches reader)
  | unchanged | aligned | created | inserted | destroyed => rfl

theorem Effect.bitoff_eq (h : Effect s i s') (hi : i.movesBits = false) : s'.bitoff = s.bitoff := by
  have still : ¬ i.movesCursor = true := fun hm => by cases hi.symm.trans (Instr.movesBits_of_movesCursor hm)
  cases h with
  | opened => cases hi
  | closed => cases hi
  | aligned => cases hi
  | bytesRead _ reader => exact absurd (Instr.movesCursor_of_byteRead reader) still
  | bitsRead _ reader => exact absurd (Instr.movesCursor_of_fetches reader) still
  | unchanged | created | inserted | destroyed => rfl

theorem Effect.curbyte_eq (h : Effect s i s') (hi : i.fetches = false) : s'.curbyte = s.curbyte := by
  cases h with
  | opened => cases hi
  | closed => cases hi
  | bytesRead _ _ moved => rw [moved.onlyPos]
  | bitsRead _ reader => cases hi.symm.trans reader
  | unchanged | aligned | created | inserted | destroyed => rfl

/-- No command writes BUF, the parameters or the pending inputs (R48, R64). -/
theorem Effect.buf_config_inputs_eq (h : Effect s i s') :
    s'.buf = s.buf ∧ s'.config = s.config ∧ s'.inputs = s.inputs := by
  cases h with
  | bytesRead _ _ moved => rw [moved.onlyPos]; exact ⟨rfl, rfl, rfl⟩
  | bitsRead _ _ _ moved => rw [moved.frame]; exact ⟨rfl, rfl, rfl⟩
  | unchanged | opened | closed | aligned | created | inserted | destroyed => exact ⟨rfl, rfl, rfl⟩

/-- FAULT is written on completion only (R255). -/
theorem Effect.fault_eq (h : Effect s i s') : s'.fault = s.fault := by
  cases h with
  | bytesRead _ _ moved => rw [moved.onlyPos]
  | bitsRead _ _ _ moved => rw [moved.frame]
  | unchanged | opened | closed | aligned | created | inserted | destroyed => rfl

theorem Effect.trees_eq (h : Effect s i s') (hi : i.writesSlot = none) : s'.trees = s.trees := by
  cases h with
  | bytesRead _ _ moved => rw [moved.onlyPos]
  | bitsRead _ _ _ moved => rw [moved.frame]
  | created | inserted | destroyed => cases hi
  | unchanged | opened | closed | aligned => rfl

theorem Effect.nodes_eq (h : Effect s i s') (hi : i.writesNodes = false) : s'.nodes = s.nodes := by
  cases h with
  | bytesRead _ _ moved => rw [moved.onlyPos]
  | bitsRead _ _ _ moved => rw [moved.frame]
  | inserted | destroyed => cases hi
  | unchanged | opened | closed | aligned | created => rfl

/-- The slots afterwards: as before, or with the one slot that the command names replaced. -/
theorem Effect.trees_eq_or_set (h : Effect s i s') :
    s'.trees = s.trees ∨ ∃ k v, i.writesSlot = some k ∧ s'.trees = s.trees.set k v := by
  cases h with
  | bytesRead _ _ moved => rw [moved.onlyPos]; exact .inl rfl
  | bitsRead _ _ _ moved => rw [moved.frame]; exact .inl rfl
  | created | inserted | destroyed => exact .inr ⟨_, _, rfl, rfl⟩
  | unchanged | opened | closed | aligned => exact .inl rfl

theorem Effect.tree_eq (h : Effect s i s') {k : Nat} (hk : i.writesSlot ≠ some k) : s'.tree k = s.tree k := by
  unfold State.tree
  rcases h.trees_eq_or_set with e | ⟨j, v, hj, e⟩ <;> rw [e]
  have hne : j ≠ k := fun hjk => hk (hjk ▸ hj)
  simp [List.getD, List.getElem?_set_ne hne]

theorem Effect.trees_length_eq (h : Effect s i s') : s'.trees.length = s.trees.length := by
  rcases h.trees_eq_or_set with e | ⟨_, _, _, e⟩ <;> simp [e]

/-- While the stream stays open, a command moves POS forward only and keeps the options and LEN (R25, R26, R27). -/
theorem Effect.of_stays_open (h : Effect s i s') (ho : s.openf = true) (ho' : s'.openf = true) :
    s'.cfg = s.cfg ∧ s'.len = s.len ∧ s.pos.toNat ≤ s'.pos.toNat := by
  cases h with
  | opened _ _ _ _ closed => cases ho.symm.trans closed
  | closed => cases ho'
  | bytesRead _ _ moved => exact ⟨moved.cfg_eq, moved.len_eq, moved.forward⟩
  | bitsRead _ _ _ moved => exact ⟨by rw [moved.frame], by rw [moved.frame], moved.forward⟩
  | unchanged | aligned | created | inserted | destroyed => exact ⟨rfl, rfl, le_refl _⟩

end Sys2Proof.Machine
end

section
/-! ## What a step can do -/

namespace Sys2Proof.Machine

variable {s t : State}

/-- A packet has the effect of some command; an illegal one changes nothing before it completes (R100, R240). -/
theorem runPacket_effect {ws : Packet} (h : runPacket ws s = .next t) :
    ∃ i s', Effect s i s' ∧ s'.Completes t := by
  unfold runPacket at h
  split at h
  · next i _ => exact ⟨i, exec_effect h⟩
  · obtain ⟨s', hl, hc⟩ := complete_next h
    obtain rfl := (Op.ensures_fail (R := Eq) (fun _ => rfl) _).of_leaves hl
    exact ⟨.close, s, .unchanged _, hc⟩

/-- Everything a step with a next state can do, by the host's oldest input (R240, R275, R280, R285). -/
theorem step_cases (h : step s = .next t) :
    (s.inputs = [] ∧ t = s) ∨
    (∃ ws rest i s', s.inputs = .packet ws :: rest ∧ Effect { s with inputs := rest } i s' ∧ s'.Completes t) ∨
    (∃ base bytes rest, s.inputs = .bufWrite base bytes :: rest ∧
      changesCovered { s with inputs := rest } base bytes = false ∧
      t = { s with inputs := rest, buf := s.buf.writeBytes base bytes }) ∨
    (∃ rest, s.inputs = .reset :: rest ∧ t = ({ s with inputs := rest } : State).hostReset) := by
  unfold step at h
  split at h
  · next hin => cases h; exact .inl ⟨hin, rfl⟩
  · next ws rest hin =>
    obtain ⟨i, s', he, hc⟩ := runPacket_effect h
    exact .inr (.inl ⟨ws, rest, i, s', hin, he, hc⟩)
  · next base bytes rest hin =>
    unfold hostBufWrite at h
    split at h
    · cases h
    · next hcov =>
      cases h
      exact .inr (.inr (.inl ⟨base, bytes, rest, hin, by simpa using hcov, rfl⟩))
  · next rest hin => cases h; exact .inr (.inr (.inr ⟨rest, hin, rfl⟩))

/-- While the stream stays open, a step moves POS forward only and keeps the options and LEN (R25, R26, R27). -/
theorem step_of_stays_open (h : step s = .next t) (ho : s.openf = true) (ht : t.openf = true) :
    t.cfg = s.cfg ∧ t.len = s.len ∧ s.pos.toNat ≤ t.pos.toNat := by
  rcases step_cases h with ⟨_, rfl⟩ | ⟨ws, rest, i, s', _, he, hc⟩ | ⟨_, _, _, _, _, rfl⟩ | ⟨_, _, rfl⟩
  · exact ⟨rfl, rfl, le_refl _⟩
  · rw [hc.frame] at ht ⊢
    exact he.of_stays_open ho ht
  · exact ⟨rfl, rfl, le_refl _⟩
  · cases ht

end Sys2Proof.Machine
end

section
/-! ## What the invariant needs of trees and of BUF -/

namespace Sys2Proof.Machine

/-- Replacing a slot's tree replaces its share of the pool. -/
theorem poolTotal_set {ts : List PTree} {k : Nat} (v : PTree) (hk : k < ts.length) :
    poolTotal (ts.set k v) + (ts.getD k .nil).poolNodes = poolTotal ts + v.poolNodes := by
  induction ts generalizing k with
  | nil => simp at hk
  | cons u us ih =>
    cases k with
    | zero => simp only [poolTotal, List.set_cons_zero, List.map_cons, List.sum_cons, List.getD_cons_zero]; omega
    | succ k =>
      have := ih (Nat.lt_of_succ_lt_succ hk)
      simp only [poolTotal, List.set_cons_succ, List.map_cons, List.sum_cons, List.getD_cons_succ] at this ⊢
      omega

@[simp] theorem poolTotal_replicate_nil (n : Nat) : poolTotal (List.replicate n .nil) = 0 := by
  simp [poolTotal, PTree.poolNodes, PTree.count]

/-- Every node of the tree TINSERT leaves is a node it had, or stands on the codeword's path with the symbol
inserted or PLACEHOLDER (R206, R256). -/
theorem insertWalk_sym?_cases {c : Config} {sym : Word} {bits : List Bool} {n : PTree} {nodes : Word}
    (hcap : c.nodeCap < 2 ^ 32) (hn : n.present = true) (hle : nodes.toNat ≤ c.nodeCap) {p : List Bool} {v : Word}
    (hv : ((insertWalk c sym bits n nodes).tree.walk p).sym? = some v) :
    (n.walk p).sym? = some v ∨ p <+: bits ∧ (v = sym ∨ v = c.placeholder) := by
  by_cases hroom : nodes.toNat + n.missing bits bits.length ≤ c.nodeCap
  · rw [insertWalk_sym?_room c sym hcap bits n nodes hn hroom p] at hv
    split at hv
    · next hp => cases hv; exact .inr ⟨hp ▸ List.prefix_refl _, .inl rfl⟩
    split at hv
    · exact .inl hv
    split at hv
    · next hp => cases hv; exact .inr ⟨hp, .inr rfl⟩
    · cases hv
  · rw [insertWalk_sym?_full c sym hcap bits n nodes hn hle (by omega) p] at hv
    split at hv
    · exact .inl hv
    split at hv
    · next hp => cases hv; exact .inr ⟨hp.1, .inr rfl⟩
    · cases hv

/-- A walk of k branches makes no tree deeper than k, unless it was (R34). -/
theorem insertWalk_depth_le {c : Config} {sym : Word} {bits : List Bool} {n : PTree} {nodes : Word} {k : Nat}
    (hcap : c.nodeCap < 2 ^ 32) (hn : n.present = true) (hle : nodes.toNat ≤ c.nodeCap)
    (hd : n.depth ≤ k) (hbits : bits.length ≤ k) : (insertWalk c sym bits n nodes).tree.depth ≤ k := by
  refine (PTree.depth_le_iff _ _).2 fun p hp => ?_
  rw [← PTree.sym?_isSome, Option.isSome_iff_exists] at hp
  obtain ⟨v, hv⟩ := hp
  rcases insertWalk_sym?_cases hcap hn hle hv with hold | ⟨hp, _⟩
  · exact (PTree.depth_le_iff _ _).1 hd p (by rw [← PTree.sym?_isSome, hold]; rfl)
  · exact le_trans hp.length_le hbits

theorem insertWalk_symsBelow {c : Config} {sym : Word} {bits : List Bool} {n : PTree} {nodes : Word} {m : Nat}
    (hcap : c.nodeCap < 2 ^ 32) (hn : n.present = true) (hle : nodes.toNat ≤ c.nodeCap)
    (hold : n.symsBelow m = true) (hsym : sym.toNat < m) (hph : c.placeholder.toNat < m) :
    (insertWalk c sym bits n nodes).tree.symsBelow m = true := by
  refine (PTree.symsBelow_iff _ _).2 fun p v hv => ?_
  rcases insertWalk_sym?_cases hcap hn hle hv with h | ⟨_, rfl | rfl⟩
  · exact (PTree.symsBelow_iff _ _).1 hold p v h
  · exact hsym
  · exact hph

/-- A host write is accepted exactly when it gives every byte an open stream covers its present value (R291). -/
theorem changesCovered_eq_false_iff (s : State) (base : Nat) (bytes : List Byte) :
    changesCovered s base bytes = false ↔
      ∀ k, k < bytes.length → s.openf = true → base + k < s.len.toNat → s.buf.read (base + k) = bytes[k]? := by
  induction bytes generalizing base with
  | nil => simp [changesCovered]
  | cons b bs ih =>
    rw [changesCovered, Bool.or_eq_false_iff, ih]
    constructor
    · rintro ⟨h0, hs⟩ k hk ho hlt
      cases k with
      | zero => simpa [ho, show base < s.len.toNat from hlt] using h0
      | succ k =>
        have := hs k (by simpa using hk) ho (by omega)
        rwa [Nat.add_assoc, Nat.add_comm 1 k] at this
    · intro h
      refine ⟨?_, fun k hk ho hlt => ?_⟩
      · have := h 0 (by simp)
        simp only [Nat.add_zero, List.getElem?_cons_zero] at this
        simpa using this
      · rw [Nat.add_assoc, Nat.add_comm 1 k] at hlt ⊢
        simpa using h (k + 1) (by simpa using hk) ho hlt

/-- A host write that is not refused leaves the bytes an open stream covers (R26, R291). -/
theorem writeBytes_read_covered {s : State} {base a : Nat} {bytes : List Byte}
    (h : changesCovered s base bytes = false) (ho : s.openf = true) (ha : a < s.len.toNat) :
    (s.buf.writeBytes base bytes).read a = s.buf.read a := by
  rw [Memory.read_writeBytes]
  split
  · next hin =>
    have := (changesCovered_eq_false_iff s base bytes).1 h (a - base) (by omega) ho (by omega)
    rw [Nat.add_sub_of_le hin.1] at this
    exact this.symm
  · rfl

end Sys2Proof.Machine
end

section
/-! ## The invariant of R50 is kept -/

namespace Sys2Proof.Machine

/-- The reset state of every legal setting has the invariant (R45 to R47). -/
theorem State.resetWith_inv {c : Config} (hc : c.Legal) : (State.resetWith c).Inv where
  closedCleared _ := ⟨rfl, rfl, rfl, rfl, rfl⟩
  openBounds h := by cases h
  curbyteIsByte := Nat.zero_le _
  nodesWithinCap := Nat.zero_le _
  nodesCounted := (poolTotal_replicate_nil c.nTrees).symm
  curbyteWasRead h := absurd rfl h
  depthBounded t ht := by rw [List.eq_of_mem_replicate ht]; exact Nat.zero_le _
  legalConfig := hc
  slotCount := List.length_replicate
  symbolsFit t ht := by rw [List.eq_of_mem_replicate ht]; rfl
  faultLegal := Nat.zero_le _
  bufCanonical := rfl

namespace State.Inv

variable {s s' t : State}

theorem openf_of_bitoff (h : s.Inv) (hb : s.bitoff ≠ 0) : s.openf = true := by
  by_contra hc
  obtain ⟨_, _, _, hbit, _⟩ := h.closedCleared (by simpa using hc)
  exact hb hbit

/-- What a slot holds is a tree the invariant speaks of, or absent. -/
theorem tree_bounds (h : s.Inv) (k : Nat) :
    (s.tree k).depth ≤ 32 ∧ (s.tree k).symsBelow (2 ^ s.config.symW) = true := by
  unfold State.tree
  rcases Nat.lt_or_ge k s.trees.length with hk | hk
  · rw [List.getD_eq_getElem _ _ hk]
    exact ⟨h.depthBounded _ (List.getElem_mem hk), h.symbolsFit _ (List.getElem_mem hk)⟩
  · rw [List.getD_eq_default _ _ hk]
    exact ⟨Nat.zero_le _, rfl⟩

/-- NODES after a slot's tree is replaced, counted without subtraction. -/
theorem poolTotal_set_tree (h : s.Inv) {k : Nat} (v : PTree) (hk : k < s.config.nTrees) :
    poolTotal (s.trees.set k v) + (s.tree k).poolNodes = s.nodes.toNat + v.poolNodes := by
  rw [h.nodesCounted]
  exact poolTotal_set v (h.slotCount ▸ hk)

theorem withInputs (h : s.Inv) (rest : List HostInput) : ({ s with inputs := rest } : State).Inv :=
  { h with }

theorem completes (h : s'.Inv) (hc : s'.Completes t) : t.Inv := by
  have hf := hc.fault_le h.faultLegal
  rw [hc.frame]
  exact { h with faultLegal := hf }

theorem openWith (h : s.Inv) (c : BitVec 3) {n : Word} (hn : n ≠ 0) : (s.openWith c n).Inv :=
  { h with
    closedCleared := fun hc => by cases hc
    openBounds := fun _ => ⟨Nat.one_le_iff_ne_zero.2 fun h0 => hn (BitVec.eq_of_toNat_eq h0), Nat.zero_le _⟩
    curbyteIsByte := Nat.zero_le _
    curbyteWasRead := fun hb => absurd rfl hb }

theorem closeStream (h : s.Inv) : s.closeStream.Inv :=
  { h with
    closedCleared := fun _ => ⟨rfl, rfl, rfl, rfl, rfl⟩
    openBounds := fun ho => by cases ho
    curbyteIsByte := Nat.zero_le _
    curbyteWasRead := fun hb => absurd rfl hb }

/-- Reads of an open stream keep the invariant. -/
theorem streamStep (h : s.Inv) (ho : s.openf = true) (hs : StreamStep s s') : s'.Inv := by
  obtain ⟨hlen, hpos⟩ := h.openBounds ho
  rw [hs.frame]
  exact { h with
    closedCleared := fun hc => by cases ho.symm.trans hc
    openBounds := fun _ => ⟨hlen, hs.bounded hpos⟩
    curbyteIsByte := hs.isByte h.curbyteIsByte
    curbyteWasRead := hs.wasRead h.curbyteWasRead }

/-- A slot may take any tree within the bounds, when NODES follows the pool. -/
theorem setTree (h : s.Inv) {k : Nat} {v : PTree} {n : Word} (hk : k < s.config.nTrees) (hd : v.depth ≤ 32)
    (hv : v.symsBelow (2 ^ s.config.symW) = true) (hcap : n.toNat ≤ s.config.nodeCap)
    (hn : n.toNat + (s.tree k).poolNodes = s.nodes.toNat + v.poolNodes) :
    ({ s.setTree k v with nodes := n } : State).Inv := by
  have hpool := h.poolTotal_set_tree v hk
  exact { h with
    nodesWithinCap := hcap
    nodesCounted := by simp only [State.setTree_trees]; omega
    depthBounded := fun u hu => (List.mem_or_eq_of_mem_set hu).elim (h.depthBounded u) (· ▸ hd)
    slotCount := List.length_set.trans h.slotCount
    symbolsFit := fun u hu => (List.mem_or_eq_of_mem_set hu).elim (h.symbolsFit u) (· ▸ hv) }

theorem create (h : s.Inv) {k : Nat} (hk : k < s.config.nTrees) (habs : s.tree k = .nil) :
    (s.setTree k (PTree.fresh s.config.placeholder)).Inv := by
  obtain ⟨_, hph, _⟩ := h.legalConfig
  exact h.setTree (n := s.nodes) hk (Nat.zero_le _) (by simpa [PTree.fresh, PTree.symsBelow] using hph)
    h.nodesWithinCap (by simp [habs, PTree.poolNodes, PTree.count])

theorem insertInto (h : s.Inv) {k len : Nat} (cw : Word) {sym : Word} (hk : k < s.config.nTrees) (hlen : len ≤ 32)
    (hsym : sym.toNat < 2 ^ s.config.symW) (hp : (s.tree k).present = true) :
    (s.insertInto k len cw sym).Inv := by
  obtain ⟨_, hph, _, hcap⟩ := h.legalConfig
  obtain ⟨hdepth, hsyms⟩ := h.tree_bounds k
  obtain ⟨hle, hcount, hpres⟩ :=
    insertWalk_nodes s.config sym hcap (codewordBits cw len) (s.tree k) s.nodes hp h.nodesWithinCap
  have hold := PTree.count_pos hp
  have hnew := PTree.count_pos hpres
  exact h.setTree hk (insertWalk_depth_le hcap hp h.nodesWithinCap hdepth (by simpa using hlen))
    (insertWalk_symsBelow hcap hp h.nodesWithinCap hsyms hsym hph) hle (by simp only [PTree.poolNodes]; omega)

theorem releaseTree (h : s.Inv) {k : Nat} (hk : k < s.config.nTrees) : (s.releaseTree k).Inv := by
  have hpool := h.poolTotal_set_tree .nil hk
  have hnil : PTree.nil.poolNodes = 0 := rfl
  have hlt := s.nodes.isLt
  have hnodes : (s.nodes - BitVec.ofNat 32 (s.tree k).poolNodes).toNat =
      s.nodes.toNat - (s.tree k).poolNodes := by
    rw [BitVec.toNat_sub, BitVec.toNat_ofNat]
    omega
  exact h.setTree hk (Nat.zero_le _) rfl (by have := h.nodesWithinCap; omega) (by omega)

/-- A host write that is not refused keeps the byte CURBYTE came from. -/
theorem bufWrite (h : s.Inv) {base : Nat} {bytes : List Byte} (hcov : changesCovered s base bytes = false) :
    ({ s with buf := s.buf.writeBytes base bytes } : State).Inv :=
  { h with
    curbyteWasRead := fun hb => by
      have ho := h.openf_of_bitoff hb
      obtain ⟨_, hpos⟩ := h.openBounds ho
      obtain ⟨a, ha, hr⟩ := h.curbyteWasRead hb
      exact ⟨a, ha, (writeBytes_read_covered hcov ho (lt_of_lt_of_le ha hpos)).trans hr⟩
    bufCanonical := Memory.wf_writeBytes _ _ _ h.bufCanonical }

theorem hostReset (h : s.Inv) : s.hostReset.Inv :=
  { State.resetWith_inv h.legalConfig with
    curbyteWasRead := fun hb => absurd rfl hb
    bufCanonical := h.bufCanonical }

end State.Inv

theorem clearBitoff_streamStep (s : State) : StreamStep s { s with bitoff := 0 } where
  frame := rfl
  forward := le_refl _
  bounded := id
  isByte := id
  wasRead _ hb := absurd rfl hb

variable {s s' t : State}

/-- Every effect of a command keeps the invariant. -/
theorem Effect.inv {i : Instr} (h : Effect s i s') (hs : s.Inv) : s'.Inv := by
  cases h with
  | unchanged => exact hs
  | opened _ _ _ _ _ nonempty => exact hs.openWith _ nonempty
  | closed => exact hs.closeStream
  | aligned isOpen => exact hs.streamStep isOpen (clearBitoff_streamStep s)
  | bytesRead isOpen _ moved =>
    exact hs.streamStep isOpen (StreamStep.trans _ _ _ (clearBitoff_streamStep s) moved.streamStep)
  | bitsRead isOpen _ _ moved => exact hs.streamStep isOpen moved
  | created inRange absent => exact hs.create inRange absent
  | inserted cw inRange short fits present => exact hs.insertInto cw inRange short fits present
  | destroyed inRange => exact hs.releaseTree inRange

/-- Every step keeps the invariant. -/
theorem step_inv (hs : s.Inv) (h : step s = .next t) : t.Inv := by
  rcases step_cases h with ⟨_, rfl⟩ | ⟨_, rest, _, _, _, he, hc⟩ | ⟨_, _, rest, _, hcov, rfl⟩ | ⟨rest, _, rfl⟩
  · exact hs
  · exact (he.inv (hs.withInputs rest)).completes hc
  · exact (hs.withInputs rest).bufWrite hcov
  · exact (hs.withInputs rest).hostReset

end Sys2Proof.Machine
end

section
/-! ## The state after reset -/

namespace Sys2Proof.Machine

@[simp] theorem presenceBits_replicate_nil (n : Nat) : presenceBits (List.replicate n .nil) = 0 := by
  induction n with
  | zero => rfl
  | succ n ih => rw [List.replicate_succ, presenceBits, ih]; rfl

theorem State.resetWith_tree (c : Config) (k : Nat) : (State.resetWith c).tree k = .nil := by
  simp [State.tree, State.resetWith]

theorem State.resetWith_reg (c : Config) {r : Nat} (hr : r ≤ 8) : (State.resetWith c).reg r = some 0 := by
  have htrees : (State.resetWith c).treesReg = 0 := presenceBits_replicate_nil c.nTrees
  match r, hr with
  | 6, _ => exact congrArg some htrees
  | 0, _ | 1, _ | 2, _ | 3, _ | 4, _ | 5, _ | 7, _ | 8, _ => rfl

end Sys2Proof.Machine
end

section
/-! ## The obligations of 10_state -/

namespace Sys2Proof.StateProofs

open Sys2Proof.Machine

/-- Settles O1. -/
theorem resetClearsEverything : Obligations.ResetClearsEverything := by
  unfold Obligations.ResetClearsEverything
  exact fun c => ⟨fun _ hr => State.resetWith_reg c hr, State.resetWith_tree c, rfl, rfl, rfl⟩

/-- Settles O3. -/
theorem resetMeetsInvariant : Obligations.ResetMeetsInvariant := by
  unfold Obligations.ResetMeetsInvariant
  exact ⟨State.resetWith_inv (c := Config.default) (by decide), fun _ hc => State.resetWith_inv hc⟩

/-- Settles O4, by cases on the effect of the step. -/
theorem stepKeepsInvariant : Obligations.StepKeepsInvariant := by
  unfold Obligations.StepKeepsInvariant
  exact fun _ _ hs h => step_inv hs h

/-- Settles O52: no effect of a command writes FAULT, and the latch keeps what it holds. -/
theorem faultStaysUntilReset : Obligations.FaultStaysUntilReset := by
  unfold Obligations.FaultStaysUntilReset
  intro s t hf hin h
  rcases step_cases h with ⟨_, rfl⟩ | ⟨_, _, _, s', _, he, hc⟩ | ⟨_, _, _, _, _, rfl⟩ | ⟨_, hreset, _⟩
  · rfl
  · have hs' : s'.fault = s.fault := he.fault_eq
    exact (hc.fault_eq (hs' ▸ hf)).trans hs'
  · rfl
  · simp [hreset] at hin

/-- Settles O53, from the frame of each effect. -/
theorem commandsKeepStream : Obligations.CommandsKeepStream := by
  unfold Obligations.CommandsKeepStream
  intro s t i h
  obtain ⟨s', he, hc⟩ := exec_effect h
  obtain ⟨hbuf, hconfig, hinputs⟩ := he.buf_config_inputs_eq
  rw [hc.frame]
  exact ⟨he.openf_cfg_len_eq, he.pos_eq, he.bitoff_eq, he.curbyte_eq, fun a => congrArg (Memory.read · a) hbuf,
    hbuf, hconfig, hinputs⟩

/-- Settles O54, from the frame of each effect. -/
theorem commandsKeepTrees : Obligations.CommandsKeepTrees := by
  unfold Obligations.CommandsKeepTrees
  intro s t i h
  obtain ⟨s', he, hc⟩ := exec_effect h
  rw [hc.frame]
  exact ⟨fun _ hk => he.tree_eq hk, he.trees_eq, he.nodes_eq, he.trees_length_eq⟩

/-- Settles O55: only OPEN, CLOSE and reset write CFG and LEN, and none of them goes from open to open. -/
theorem optionsFixedWhileOpen : Obligations.OptionsFixedWhileOpen := by
  unfold Obligations.OptionsFixedWhileOpen
  intro s t ho ht h
  obtain ⟨hcfg, hlen, _⟩ := step_of_stays_open h ho ht
  exact ⟨hcfg, hlen⟩

/-- Settles O56: reads move POS forward, and the invariant, which the step keeps, bounds it by LEN. -/
theorem positionNeverDecreases : Obligations.PositionNeverDecreases := by
  unfold Obligations.PositionNeverDecreases
  intro s t hs ho ht h
  obtain ⟨_, _, hpos⟩ := step_of_stays_open h ho ht
  obtain ⟨_, hle⟩ := (step_inv hs h).openBounds ht
  exact ⟨hpos, hle⟩

end Sys2Proof.StateProofs
end

section
/-! ## A write of the host to BUF -/

namespace Sys2Proof.Machine

variable {s : State} {base : Nat} {bytes : List Byte}

/-- The step of a pending host write takes it from the inputs and acts on it (R61, R285). -/
theorem step_bufWrite {rest : List HostInput} (h : s.inputs = .bufWrite base bytes :: rest) :
    step s = hostBufWrite base bytes { s with inputs := rest } := by
  simp only [step, h]

theorem hostBufWrite_of_keepsCovered (h : changesCovered s base bytes = false) :
    hostBufWrite base bytes s = .next { s with buf := s.buf.writeBytes base bytes } := by
  simp [hostBufWrite, h]

theorem hostBufWrite_of_changesCovered (h : changesCovered s base bytes = true) :
    hostBufWrite base bytes s = .refused .bufChangedWhileOpen := by
  simp [hostBufWrite, h]

/-- One changed byte that an open stream covers is enough for a host write to count as a change (R291). -/
theorem changesCovered_of_changed {k : Nat} (hk : k < bytes.length) (ho : s.openf = true)
    (hlt : base + k < s.len.toNat) (hne : s.buf.read (base + k) ≠ bytes[k]?) :
    changesCovered s base bytes = true := by
  by_contra hcov
  exact hne ((changesCovered_eq_false_iff s base bytes).1 (Bool.eq_false_of_not_eq_true hcov) k hk ho hlt)

end Sys2Proof.Machine
end

section
/-! ## The obligations of 20_memory -/

namespace Sys2Proof.MemoryProofs

open Sys2Proof.Machine

/-- Settles O58: the model's test on the bytes decides between the write and the refusal. -/
theorem hostWritesBuffer : Obligations.HostWritesBuffer := by
  unfold Obligations.HostWritesBuffer
  intro s base bytes rest hin
  rw [step_bufWrite hin]
  constructor
  · intro hkeep
    have hcov : changesCovered { s with inputs := rest } base bytes = false :=
      (changesCovered_eq_false_iff _ _ _).2 hkeep
    exact ⟨s.buf.writeBytes base bytes, hostBufWrite_of_keepsCovered hcov,
      fun a => Memory.read_writeBytes bytes s.buf base a⟩
  · intro k hk ho hlt hne
    exact hostBufWrite_of_changesCovered (changesCovered_of_changed hk ho hlt hne)

end Sys2Proof.MemoryProofs
end

section
/-! ## The fields of a first word

A first word is its opcode and its 24 low bits (R95), and every format cuts the low bits by concatenation: the encoder
concatenates fields, the decoder extracts them, and both meet in `headWord`. -/

namespace Sys2Proof

variable {op : BitVec 8} {low : BitVec 24} {w : Word}

theorem headWord_opcode_low (w : Word) : headWord (opcode w) (w.extractLsb' 0 24) = w :=
  BitVec.extractLsb'_append_extractLsb'

theorem headWord_inj {op' : BitVec 8} {low' : BitVec 24} :
    headWord op low = headWord op' low' ↔ op = op' ∧ low = low' := by
  constructor
  · intro h
    have hlow := congrArg (BitVec.extractLsb' 0 24) h
    simp only [headWord, BitVec.extractLsb'_append_eq_right] at hlow
    exact ⟨by rw [← opcode_headWord op low, h, opcode_headWord], hlow⟩
  · rintro ⟨rfl, rfl⟩
    rfl

/-- A field below the opcode is a field of the low bits. -/
theorem extractLsb'_headWord {start len : Nat} (h : start + len ≤ 24) :
    (headWord op low).extractLsb' start len = low.extractLsb' start len :=
  BitVec.extractLsb'_append_eq_of_add_le h

theorem getLsbD_headWord {k : Nat} (h : k < 24) : (headWord op low).getLsbD k = low.getLsbD k := by
  rw [headWord, BitVec.getLsbD_append, if_pos h]

/-- The sum of R105's encoding column. -/
theorem headWord_eq_or : headWord op low = (op.setWidth 32 <<< 24) ||| low.setWidth 32 := by
  rw [← BitVec.setWidth_append_eq_shiftLeft_setWidth_or, BitVec.setWidth_eq]
  rfl

/-- The bits of a field, as a mask on a word. -/
def fieldMask (start len : Nat) : Word := (BitVec.allOnes len).setWidth 32 <<< start

/-- A masked field is zero exactly when the field is. -/
theorem and_fieldMask_eq_zero_iff {start len : Nat} (h : start + len ≤ 32) :
    w &&& fieldMask start len = 0 ↔ w.extractLsb' start len = 0#len := by
  simp only [BitVec.eq_of_getLsbD_eq_iff, fieldMask, BitVec.ofNat_eq_ofNat, BitVec.getLsbD_and,
    BitVec.getLsbD_shiftLeft, BitVec.getLsbD_setWidth, BitVec.getLsbD_allOnes, BitVec.getLsbD_extractLsb',
    BitVec.getLsbD_zero]
  constructor
  · intro hw k hk
    simpa [hk, show start + k < 32 by omega, show k < 32 by omega] using hw (start + k) (by omega)
  · intro hw k hk
    by_cases hin : start ≤ k ∧ k - start < len
    · have hbit : w.getLsbD k = false := by
        simpa [hin.2, Nat.add_sub_of_le hin.1] using hw (k - start) hin.2
      simp [hbit]
    · have hout : k < start ∨ ¬ k - start < len := by omega
      rcases hout with hk' | hk' <;> simp [hk']

end Sys2Proof
end

section
/-! ## The formats of R95 and their inverses -/

namespace Sys2Proof

variable {op : BitVec 8} {w : Word} {i j : Instr}

theorem toNat_ofNat_of_lt {n k : Nat} (h : k < 2 ^ n) : (BitVec.ofNat n k).toNat = k := by
  rw [BitVec.toNat_ofNat, Nat.mod_eq_of_lt h]

/-! ### What the decoder reads from the encoder's first word -/

theorem formatC_headWord {f : Nat → Instr} {n : Nat} (hn : n < 64) :
    formatC (headWord op (0#18 ++ BitVec.ofNat 6 n)) f = .ok (f n) := by
  rw [formatC, extractLsb'_headWord (by decide), extractLsb'_headWord (by decide),
    BitVec.extractLsb'_append_eq_left, BitVec.extractLsb'_append_eq_right, if_pos rfl, toNat_ofNat_of_lt hn]

theorem formatT_headWord {f : Nat → Instr} {t : Nat} (ht : t < 16) :
    formatT (headWord op (lowT t)) f = .ok (f t) := by
  rw [formatT, lowT, extractLsb'_headWord (by decide), extractLsb'_headWord (by decide),
    BitVec.extractLsb'_append_eq_left, BitVec.extractLsb'_append_eq_right, if_pos rfl, toNat_ofNat_of_lt ht]

/-- The 24 low bits of format I. -/
def lowI (t len : Nat) : BitVec 24 := BitVec.ofNat 4 t ++ 0#14 ++ BitVec.ofNat 6 len

theorem lowI_slot (t len : Nat) : (lowI t len).extractLsb' 20 4 = BitVec.ofNat 4 t := by
  rw [lowI, BitVec.extractLsb'_append_eq_of_le (by decide)]
  exact BitVec.extractLsb'_append_eq_left

theorem lowI_zero (t len : Nat) : (lowI t len).extractLsb' 6 14 = 0#14 := by
  rw [lowI, BitVec.extractLsb'_append_eq_of_le (by decide)]
  exact BitVec.extractLsb'_append_eq_right

theorem lowI_len (t len : Nat) : (lowI t len).extractLsb' 0 6 = BitVec.ofNat 6 len :=
  BitVec.extractLsb'_append_eq_right

theorem formatI_headWord {t len : Nat} {cw sym : Word} (ht : t < 16) (hlen : len < 64) :
    formatI (headWord op (lowI t len)) cw sym = .ok (.tinsert t len cw sym) := by
  rw [formatI, extractLsb'_headWord (by decide), extractLsb'_headWord (by decide),
    extractLsb'_headWord (by decide), lowI_slot, lowI_zero, lowI_len, if_pos rfl, toNat_ofNat_of_lt ht,
    toNat_ofNat_of_lt hlen]

theorem formatO_headWord {low : BitVec 24} {len : Word} :
    formatO (headWord op low) len =
      .openStream (low.extractLsb' 3 21) (low.getLsbD 2) (low.getLsbD 1) (low.getLsbD 0) len := by
  rw [formatO, extractLsb'_headWord (by decide), getLsbD_headWord (by decide), getLsbD_headWord (by decide),
    getLsbD_headWord (by decide)]

/-- The 24 low bits of format O. -/
def lowO (cfgrsv : BitVec 21) (rb ef le : Bool) : BitVec 24 :=
  cfgrsv ++ BitVec.ofBool rb ++ BitVec.ofBool ef ++ BitVec.ofBool le

theorem ofBool_getLsbD {n : Nat} (x : BitVec n) (k : Nat) :
    BitVec.ofBool (x.getLsbD k) = x.extractLsb' k 1 := by
  ext i hi
  simp [show i = 0 by omega]

/-- Format O leaves out no low bit (R95, R99). -/
theorem lowO_of_fields (low : BitVec 24) :
    lowO (low.extractLsb' 3 21) (low.getLsbD 2) (low.getLsbD 1) (low.getLsbD 0) = low := by
  rw [lowO, ofBool_getLsbD, ofBool_getLsbD, ofBool_getLsbD,
    BitVec.extractLsb'_append_extractLsb'_eq_extractLsb' (by rfl : 3 = 2 + 1),
    BitVec.extractLsb'_append_extractLsb'_eq_extractLsb' (by rfl : 2 = 1 + 1),
    BitVec.extractLsb'_append_extractLsb'_eq_extractLsb' (by rfl : 1 = 0 + 1), BitVec.extractLsb'_eq_self]

theorem formatO_lowO (cfgrsv : BitVec 21) (rb ef le : Bool) (len : Word) :
    formatO (headWord op (lowO cfgrsv rb ef le)) len = .openStream cfgrsv rb ef le len := by
  have hcfgrsv : (lowO cfgrsv rb ef le).extractLsb' 3 21 = cfgrsv := by
    rw [lowO, BitVec.extractLsb'_append_eq_of_le (by decide), BitVec.extractLsb'_append_eq_of_le (by decide)]
    exact BitVec.extractLsb'_append_eq_left
  have hrb : (lowO cfgrsv rb ef le).getLsbD 2 = rb := by
    rw [lowO, BitVec.getLsbD_append, if_neg (by decide), BitVec.getLsbD_append, if_neg (by decide),
      BitVec.getLsbD_append, if_pos (by decide)]
    exact BitVec.getLsbD_ofBool rb 0
  have hef : (lowO cfgrsv rb ef le).getLsbD 1 = ef := by
    rw [lowO, BitVec.getLsbD_append, if_neg (by decide), BitVec.getLsbD_append, if_pos (by decide)]
    exact BitVec.getLsbD_ofBool ef 0
  have hle : (lowO cfgrsv rb ef le).getLsbD 0 = le := by
    rw [lowO, BitVec.getLsbD_append, if_pos (by decide)]
    exact BitVec.getLsbD_ofBool le 0
  rw [formatO_headWord, hcfgrsv, hrb, hef, hle]

/-- Decoding inverts encoding (R95, R98). -/
theorem decodePacket_encode (h : i.wf = true) : decodePacket (encode i) = .ok i := by
  cases i with
  | openStream cfgrsv rb ef le len =>
    rw [encode, decodePacket, opcode_headWord]
    exact congrArg Except.ok (formatO_lowO ..)
  | rdbits n =>
    rw [encode, decodePacket, decodeOneWord, opcode_headWord]
    exact formatC_headWord (of_decide_eq_true h)
  | tinsert t len cw sym =>
    obtain ⟨ht, hlen⟩ := Bool.and_eq_true_iff.1 h
    rw [encode, decodePacket, opcode_headWord]
    exact formatI_headWord (of_decide_eq_true ht) (of_decide_eq_true hlen)
  | tcreate t | tdestroy t | decode t | rdreg t =>
    rw [encode, decodePacket, decodeOneWord, opcode_headWord]
    exact formatT_headWord (of_decide_eq_true h)
  | close | pos | endpos | peek | hasmore | rdbyte | rdword | rdint | rdbit | align => rfl

/-! ### What a first word is that a format accepts -/

theorem formatN_eq_ok (h : formatN w i = .ok j) : j = i ∧ w = headWord (opcode w) 0#24 := by
  unfold formatN at h
  split at h
  · next hlow => cases h; exact ⟨rfl, by rw [← hlow, headWord_opcode_low]⟩
  · cases h

theorem formatC_eq_ok {f : Nat → Instr} (h : formatC w f = .ok j) :
    ∃ n, n < 64 ∧ j = f n ∧ w = headWord (opcode w) (0#18 ++ BitVec.ofNat 6 n) := by
  unfold formatC at h
  split at h
  · next hzero =>
    cases h
    refine ⟨_, (w.extractLsb' 0 6).isLt, rfl, ?_⟩
    rw [BitVec.ofNat_toNat, BitVec.setWidth_eq, ← hzero,
      BitVec.extractLsb'_append_extractLsb'_eq_extractLsb' (by rfl : 6 = 0 + 6), headWord_opcode_low]
  · cases h

theorem formatT_eq_ok {f : Nat → Instr} (h : formatT w f = .ok j) :
    ∃ t, t < 16 ∧ j = f t ∧ w = headWord (opcode w) (lowT t) := by
  unfold formatT at h
  split at h
  · next hzero =>
    cases h
    refine ⟨_, (w.extractLsb' 0 4).isLt, rfl, ?_⟩
    rw [lowT, BitVec.ofNat_toNat, BitVec.setWidth_eq, ← hzero,
      BitVec.extractLsb'_append_extractLsb'_eq_extractLsb' (by rfl : 4 = 0 + 4), headWord_opcode_low]
  · cases h

theorem formatI_eq_ok {cw sym : Word} (h : formatI w cw sym = .ok j) :
    ∃ t len, t < 16 ∧ len < 64 ∧ j = .tinsert t len cw sym ∧ w = headWord (opcode w) (lowI t len) := by
  unfold formatI at h
  split at h
  · next hzero =>
    cases h
    refine ⟨_, _, (w.extractLsb' 20 4).isLt, (w.extractLsb' 0 6).isLt, rfl, ?_⟩
    rw [lowI, BitVec.ofNat_toNat, BitVec.setWidth_eq, BitVec.ofNat_toNat, BitVec.setWidth_eq, ← hzero,
      BitVec.extractLsb'_append_extractLsb'_eq_extractLsb' (by rfl : 20 = 6 + 14),
      BitVec.extractLsb'_append_extractLsb'_eq_extractLsb' (by rfl : 6 = 0 + 6), headWord_opcode_low]
  · cases h

/-! ### The decoder gives the command whose packet it was given -/

theorem encode_of_formatN (hop : opcode w = op) (he : encode i = [headWord op 0#24]) (hwf : i.wf = true)
    (h : formatN w i = .ok j) : encode j = [w] ∧ j.wf = true := by
  obtain ⟨rfl, hw⟩ := formatN_eq_ok h
  exact ⟨by rw [he, ← hop, ← hw], hwf⟩

theorem encode_of_formatC (hop : opcode w = 0x0C#8) (h : formatC w .rdbits = .ok j) :
    encode j = [w] ∧ j.wf = true := by
  obtain ⟨n, hn, rfl, hw⟩ := formatC_eq_ok h
  exact ⟨by rw [encode, ← hop, ← hw], decide_eq_true hn⟩

theorem encode_of_formatT {f : Nat → Instr} (hop : opcode w = op)
    (he : ∀ t, encode (f t) = [headWord op (lowT t)]) (hwf : ∀ t, t < 16 → (f t).wf = true)
    (h : formatT w f = .ok j) : encode j = [w] ∧ j.wf = true := by
  obtain ⟨t, ht, rfl, hw⟩ := formatT_eq_ok h
  exact ⟨by rw [he, ← hop, ← hw], hwf t ht⟩

theorem encode_of_formatI {cw sym : Word} (hop : opcode w = 0x11#8) (h : formatI w cw sym = .ok j) :
    encode j = [w, cw, sym] ∧ j.wf = true := by
  obtain ⟨t, len, ht, hlen, rfl, hw⟩ := formatI_eq_ok h
  exact ⟨by rw [encode, ← lowI, ← hop, ← hw], by simp [Instr.wf, ht, hlen]⟩

theorem encode_formatO (len : Word) (hop : opcode w = 0x01#8) : encode (formatO w len) = [w, len] := by
  have hw : w = headWord 0x01#8 (w.extractLsb' 0 24) := by rw [← hop, headWord_opcode_low]
  rw [hw, formatO_headWord, encode, ← lowO, lowO_of_fields]

/-- The one-word rows by format: RDBITS is the tenth, the T and R rows are the twelfth to fifteenth, the last three are
errors, and all others have format N. -/
theorem encode_of_decodeOneWord (h : decodeOneWord w = .ok j) : encode j = [w] ∧ j.wf = true := by
  unfold decodeOneWord at h
  split at h
  case h_10 hop => exact encode_of_formatC hop h
  case h_12 hop | h_13 hop | h_14 hop | h_15 hop =>
    exact encode_of_formatT hop (fun _ => rfl) (fun _ => decide_eq_true) h
  case h_16 | h_17 | h_18 => cases h
  all_goals exact encode_of_formatN ‹_› rfl rfl h

/-- Encoding inverts decoding, and what is decoded is well formed (R95, R98, R100). -/
theorem encode_of_decodePacket {ws : Packet} (h : decodePacket ws = .ok i) : encode i = ws ∧ i.wf = true := by
  unfold decodePacket at h
  split at h
  · cases h
  · exact encode_of_decodeOneWord h
  · split at h
    · next hop => cases h; exact ⟨encode_formatO _ hop, rfl⟩
    · cases h
  · split at h
    · next hop => exact encode_of_formatI hop h
    · cases h
  · cases h

end Sys2Proof
end

section
/-! ## The tests of R100

A packet decodes exactly when its opcode is defined, the bits its format marks 0 are zero, and it has the words its
opcode asks for. -/

namespace Sys2Proof

variable {op : BitVec 8} {w : Word} {rest : List Word}

/-- The packet with first word w and further words rest is none of R100's illegal ones. -/
structure PassesTests (w : Word) (rest : List Word) : Prop where
  opcode_mem : opcode w ∈ definedOpcodes
  zero : w &&& mustBeZero (opcode w) = 0
  count : rest.length + 1 = packetWords (opcode w)

theorem exists_ite_ok {c : Prop} [Decidable c] {x : Instr} {e : DecodeError} :
    (∃ i, (if c then Except.ok x else Except.error e) = Except.ok i) ↔ c := by
  split <;> simp_all

/-! ### Each format accepts the words whose zero bits are zero -/

theorem formatN_ok_iff {x : Instr} : (∃ i, formatN w x = .ok i) ↔ w &&& 0x00FFFFFF#32 = 0 :=
  exists_ite_ok.trans (and_fieldMask_eq_zero_iff (start := 0) (len := 24) (by decide)).symm

theorem formatC_ok_iff {f : Nat → Instr} : (∃ i, formatC w f = .ok i) ↔ w &&& 0x00FFFFC0#32 = 0 :=
  exists_ite_ok.trans (and_fieldMask_eq_zero_iff (start := 6) (len := 18) (by decide)).symm

theorem formatT_ok_iff {f : Nat → Instr} : (∃ i, formatT w f = .ok i) ↔ w &&& 0x00FFFFF0#32 = 0 :=
  exists_ite_ok.trans (and_fieldMask_eq_zero_iff (start := 4) (len := 20) (by decide)).symm

theorem formatI_ok_iff {cw sym : Word} : (∃ i, formatI w cw sym = .ok i) ↔ w &&& 0x000FFFC0#32 = 0 :=
  exists_ite_ok.trans (and_fieldMask_eq_zero_iff (start := 6) (len := 14) (by decide)).symm

/-! ### The decoder makes the tests -/

theorem packetWords_eq_two_iff : packetWords op = 2 ↔ op = 0x01#8 := by
  unfold packetWords
  split_ifs <;> simp_all

theorem packetWords_eq_three_iff : packetWords op = 3 ↔ op = 0x11#8 := by
  unfold packetWords
  split_ifs <;> simp_all

theorem packetWords_le (op : BitVec 8) : packetWords op ≤ 3 := by
  unfold packetWords
  split_ifs <;> decide

/-- What is left of the tests for a word of a one-word row. -/
theorem passesTests_one_iff {accepted : Prop} {mask : Word} (hop : opcode w = op) (hmem : op ∈ definedOpcodes)
    (hone : packetWords op = 1) (hmask : mustBeZero op = mask) (h : accepted ↔ w &&& mask = 0) :
    accepted ↔ PassesTests w [] := by
  subst hop hmask
  exact h.trans ⟨fun hz => ⟨hmem, hz, hone.symm⟩, PassesTests.zero⟩

/-- The one-word rows by format: RDBITS is the tenth, the T and R rows are the twelfth to fifteenth, then come OPEN and
TINSERT, which want more words, and the undefined opcodes; all others have format N. -/
theorem decodeOneWord_ok_iff : (∃ i, decodeOneWord w = .ok i) ↔ PassesTests w [] := by
  have fails : ∀ {e : DecodeError}, ¬ PassesTests w [] →
      ((∃ i : Instr, Except.error e = .ok i) ↔ PassesTests w []) := fun hn => by simp [hn]
  unfold decodeOneWord
  split
  case h_10 hop => exact passesTests_one_iff hop (by decide) rfl (by decide) formatC_ok_iff
  case h_12 hop | h_13 hop | h_14 hop | h_15 hop =>
    exact passesTests_one_iff hop (by decide) rfl (by decide) formatT_ok_iff
  case h_16 hop | h_17 hop => exact fails fun hp => absurd (hop ▸ hp.count) (by decide)
  case h_18 => exact fails fun hp => absurd hp.opcode_mem (by simp_all [definedOpcodes])
  all_goals exact passesTests_one_iff ‹opcode w = _› (by decide) rfl (by decide) formatN_ok_iff

/-- The decoder accepts exactly the packets that pass the tests of R100. -/
theorem decodePacket_ok_iff : (∃ i, decodePacket (w :: rest) = .ok i) ↔ PassesTests w rest := by
  match rest with
  | [] => exact decodeOneWord_ok_iff
  | [w1] =>
    rw [decodePacket, exists_ite_ok]
    constructor
    · intro hop
      exact ⟨by rw [hop]; decide, by rw [hop]; exact BitVec.and_zero, by rw [hop]; rfl⟩
    · exact fun hp => packetWords_eq_two_iff.1 hp.count.symm
  | [w1, w2] =>
    constructor
    · rw [decodePacket]
      split
      · next hop =>
        intro hi
        exact ⟨by rw [hop]; decide, by rw [hop]; exact formatI_ok_iff.1 hi, by rw [hop]; rfl⟩
      · simp
    · intro hp
      have hop := packetWords_eq_three_iff.1 hp.count.symm
      rw [decodePacket, if_pos hop]
      have hzero := hp.zero
      rw [hop] at hzero
      exact formatI_ok_iff.2 hzero
  | _ :: _ :: _ :: ws =>
    constructor
    · rintro ⟨i, hi⟩
      cases hi
    · intro hp
      have hcount := hp.count
      have hle := packetWords_le (opcode w)
      simp only [List.length_cons] at hcount
      omega

/-- R100's list of opcodes is what R98 leaves. -/
theorem undefined_opcode_iff : ∀ op : BitVec 8,
    (op = 0x00 ∨ op = 0x07 ∨ op = 0x0E ∨ op = 0x0F ∨ (0x14 ≤ op.toNat ∧ op.toNat ≤ 0x1E) ∨ 0x20 ≤ op.toNat) ↔
      op ∉ definedOpcodes := by
  intro op
  simp only [definedOpcodes, List.mem_cons, List.not_mem_nil, or_false, ← BitVec.toNat_inj, BitVec.toNat_ofNat,
    BitVec.ofNat_eq_ofNat]
  omega

theorem illegalPacket_cons_iff : illegalPacket (w :: rest) = true ↔ ¬ PassesTests w rest := by
  have hle := packetWords_le (opcode w)
  have hshape : illegalPacket (w :: rest) = true ↔
      ((3 < rest.length + 1 ∨ opcode w ∉ definedOpcodes) ∨ w &&& mustBeZero (opcode w) ≠ 0) ∨
        rest.length + 1 ≠ packetWords (opcode w) := by
    simp only [illegalPacket, Bool.or_eq_true, decide_eq_true_eq, undefined_opcode_iff]
    rfl
  rw [hshape]
  constructor
  · rintro (((hlong | hop) | hzero) | hcount) hp
    · have := hp.count
      omega
    · exact hop hp.opcode_mem
    · exact hzero hp.zero
    · exact hcount hp.count
  · intro hn
    by_contra hall
    push Not at hall
    obtain ⟨⟨⟨_, hop⟩, hzero⟩, hcount⟩ := hall
    exact hn ⟨hop, hzero, hcount⟩

/-- The packets of R100 are those that do not decode. -/
theorem illegalPacket_iff (ws : Packet) : illegalPacket ws = true ↔ ∀ i, decodePacket ws ≠ .ok i := by
  cases ws with
  | nil => exact ⟨fun _ _ => nofun, fun _ => rfl⟩
  | cons w rest => rw [illegalPacket_cons_iff, ← decodePacket_ok_iff, not_exists]

end Sys2Proof
end

section
/-! ## The answer to an illegal packet -/

namespace Sys2Proof.Machine

variable {s : State} {ws : Packet}

theorem step_packet {rest : List HostInput} (h : s.inputs = .packet ws :: rest) :
    step s = runPacket ws { s with inputs := rest } := by
  simp only [step, h]

theorem rejectPacket_eq (s : State) : rejectPacket s = .next (s.failed .illegalCommand) :=
  complete_raise (Op.fail_apply _ s)

theorem runPacket_of_not_decoded (h : ∀ i, decodePacket ws ≠ .ok i) (s : State) :
    runPacket ws s = .next (s.failed .illegalCommand) := by
  unfold runPacket
  split
  · next i hi => exact absurd hi (h i)
  · exact rejectPacket_eq s

end Sys2Proof.Machine
end

section
/-! ## The opcode of a command, the opcode table and the word counts of a listing -/

namespace Sys2Proof

variable {w : Word} {rest : List Word} {i : Instr}

/-- The opcode of a command (R98). -/
def Instr.op : Instr → BitVec 8
  | .openStream _ _ _ _ _ => 0x01
  | .close => 0x02
  | .pos => 0x03
  | .endpos => 0x04
  | .peek => 0x05
  | .hasmore => 0x06
  | .rdbyte => 0x08
  | .rdword => 0x09
  | .rdint => 0x0A
  | .rdbit => 0x0B
  | .rdbits _ => 0x0C
  | .align => 0x0D
  | .tcreate _ => 0x10
  | .tinsert _ _ _ _ => 0x11
  | .tdestroy _ => 0x12
  | .decode _ => 0x13
  | .rdreg _ => 0x1F

/-- The packet of a command starts with its opcode and has the words that opcode asks for (R97). -/
theorem encode_eq_cons (i : Instr) :
    ∃ w rest, encode i = w :: rest ∧ opcode w = i.op ∧ rest.length = packetWords i.op - 1 := by
  cases i <;> exact ⟨_, _, rfl, opcode_headWord _ _, rfl⟩

theorem op_of_decodePacket (h : decodePacket (w :: rest) = .ok i) : i.op = opcode w := by
  obtain ⟨henc, _⟩ := encode_of_decodePacket h
  obtain ⟨w', rest', hcons, hop, _⟩ := encode_eq_cons i
  rw [henc, List.cons.injEq] at hcons
  rw [hcons.1, hop]

/-! ### The rows of R98 -/

theorem definedOpcodes_eq_rows : definedOpcodes = opcodeRows.map fun r => opcode r.val := by decide

theorem op_mem_definedOpcodes (i : Instr) : i.op ∈ definedOpcodes := by
  cases i <;> simp [Instr.op, definedOpcodes]

/-- A row has the mnemonic of the commands with its opcode. -/
theorem mnemonic_eq_iff {r : OpcodeRow} (hr : r ∈ opcodeRows) :
    i.mnemonic = r.mnemonic ↔ i.op = opcode r.val := by
  revert r
  cases i <;> simp only [Instr.mnemonic, Instr.op] <;> decide

theorem opcode_mustBeZero (op : BitVec 8) : opcode (mustBeZero op) = 0#8 := by
  unfold mustBeZero
  split_ifs <;> rfl

theorem exists_headWord (w : Word) : ∃ op low, w = headWord op low :=
  ⟨_, _, (headWord_opcode_low w).symm⟩

/-- A mask over the opcode and some lower bits, with a match in which these are zero, tests the two apart. -/
theorem and_mask_eq_iff {z v : Word} (hz : opcode z = 0#8) (hv : v.extractLsb' 0 24 = 0#24) :
    w &&& (0xFF000000#32 ||| z) = v ↔ opcode w = opcode v ∧ w &&& z = 0 := by
  obtain ⟨op, low, rfl⟩ := exists_headWord w
  obtain ⟨_, zero, rfl⟩ := exists_headWord z
  obtain ⟨val, _, rfl⟩ := exists_headWord v
  rw [opcode_headWord] at hz
  rw [headWord, BitVec.extractLsb'_append_eq_right] at hv
  subst hz hv
  have hmask : 0xFF000000#32 ||| headWord 0#8 zero = headWord (BitVec.allOnes 8) zero := by
    rw [show 0xFF000000#32 = headWord (BitVec.allOnes 8) 0#24 from rfl, headWord, headWord, BitVec.or_append,
      BitVec.or_zero, BitVec.zero_or]
    rfl
  have hand : ∀ a b, headWord op low &&& headWord a b = headWord (op &&& a) (low &&& b) :=
    fun _ _ => BitVec.and_append
  rw [hmask, hand, hand, opcode_headWord, opcode_headWord, BitVec.and_allOnes, BitVec.and_zero,
    show (0 : Word) = headWord 0#8 0#24 from rfl, headWord_inj, headWord_inj, eq_self, true_and]

/-- Mask, match and word count of every row follow from its opcode. -/
theorem row_eq : ∀ r ∈ opcodeRows, r.mask = 0xFF000000#32 ||| mustBeZero (opcode r.val) ∧
    r.val.extractLsb' 0 24 = 0#24 ∧ r.words = packetWords (opcode r.val) := by
  decide

theorem matches_cons_iff {r : OpcodeRow} (hr : r ∈ opcodeRows) :
    r.matches (w :: rest) = true ↔ opcode w = opcode r.val ∧ PassesTests w rest := by
  obtain ⟨hmask, hval, hwords⟩ := row_eq r hr
  have hmem : opcode r.val ∈ definedOpcodes := by
    rw [definedOpcodes_eq_rows]
    exact List.mem_map_of_mem hr
  simp only [OpcodeRow.matches, Bool.and_eq_true, decide_eq_true_eq, hmask, hwords,
    and_mask_eq_iff (opcode_mustBeZero _) hval]
  constructor
  · rintro ⟨⟨hop, hzero⟩, hcount⟩
    exact ⟨hop, ⟨hop ▸ hmem, hop ▸ hzero, hop ▸ hcount⟩⟩
  · rintro ⟨hop, hp⟩
    exact ⟨⟨hop, hop ▸ hp.zero⟩, hop ▸ hp.count⟩

/-- A row of R98 decides which packets are its command. -/
theorem matches_iff {r : OpcodeRow} (hr : r ∈ opcodeRows) (ws : Packet) :
    r.matches ws = true ↔ ∃ i, decodePacket ws = .ok i ∧ i.mnemonic = r.mnemonic := by
  cases ws with
  | nil => exact ⟨nofun, nofun⟩
  | cons w rest =>
    rw [matches_cons_iff hr]
    constructor
    · rintro ⟨hop, hp⟩
      obtain ⟨i, hi⟩ := decodePacket_ok_iff.2 hp
      exact ⟨i, hi, (mnemonic_eq_iff hr).2 ((op_of_decodePacket hi).trans hop)⟩
    · rintro ⟨i, hi, hm⟩
      exact ⟨(op_of_decodePacket hi).symm.trans ((mnemonic_eq_iff hr).1 hm), decodePacket_ok_iff.1 ⟨i, hi⟩⟩

theorem exists_row (i : Instr) : ∃ r ∈ opcodeRows, i.mnemonic = r.mnemonic := by
  have hmem := op_mem_definedOpcodes i
  rw [definedOpcodes_eq_rows] at hmem
  obtain ⟨r, hr, hop⟩ := List.mem_map.1 hmem
  exact ⟨r, hr, (mnemonic_eq_iff hr).2 hop.symm⟩

/-! ### Listings (R97) -/

/-- Any bound from the number of words on is enough to cut a listing of commands. -/
theorem splitListingUpTo_encode (is : List Instr) {k : Nat} (hk : (is.map encode).flatten.length ≤ k) :
    splitListingUpTo k (is.map encode).flatten = is.map encode := by
  induction is generalizing k with
  | nil => cases k <;> rfl
  | cons i is ih =>
    obtain ⟨w, rest, henc, hop, hlen⟩ := encode_eq_cons i
    simp only [List.map_cons, List.flatten_cons, henc, List.cons_append, List.length_cons,
      List.length_append] at hk ⊢
    cases k with
    | zero => omega
    | succ k =>
      rw [splitListingUpTo, hop, ← hlen, List.take_left, List.drop_left, ih (by omega)]

theorem splitListing_encode (is : List Instr) : splitListing (is.map encode).flatten = is.map encode :=
  splitListingUpTo_encode is le_rfl

end Sys2Proof
end

section
/-! ## The encoding column of R105 -/

namespace Sys2Proof

variable {op : BitVec 8}

theorem setWidth_zero_append {k n m : Nat} (x : BitVec n) : (0#k ++ x).setWidth m = x.setWidth m := by
  rw [BitVec.setWidth_append_eq_shiftLeft_setWidth_or, BitVec.setWidth_zero, BitVec.zero_shiftLeft,
    BitVec.zero_or]

theorem headWord_bitCount {n : Nat} (hn : n < 64) :
    headWord op (0#18 ++ BitVec.ofNat 6 n) = (op.setWidth 32 <<< 24) ||| BitVec.ofNat 32 n := by
  rw [headWord_eq_or, setWidth_zero_append, BitVec.setWidth_ofNat_of_le_of_lt (by decide) hn]

theorem headWord_lowT {t : Nat} (ht : t < 16) :
    headWord op (lowT t) = (op.setWidth 32 <<< 24) ||| BitVec.ofNat 32 t := by
  rw [headWord_eq_or, lowT, setWidth_zero_append, BitVec.setWidth_ofNat_of_le_of_lt (by decide) ht]

theorem headWord_lowI {t len : Nat} (ht : t < 16) (hlen : len < 64) :
    headWord op (lowI t len) =
      (op.setWidth 32 <<< 24) ||| (BitVec.ofNat 32 t <<< 20) ||| BitVec.ofNat 32 len := by
  rw [headWord_eq_or, lowI, BitVec.setWidth_append_append_eq_shiftLeft_setWidth_or, BitVec.setWidth_zero,
    BitVec.zero_shiftLeft, BitVec.or_zero, BitVec.setWidth_ofNat_of_le_of_lt (by decide) ht,
    BitVec.setWidth_ofNat_of_le_of_lt (by decide) hlen, BitVec.or_assoc]

theorem decodePacket_open (cfg : BitVec 24) (len : Word) :
    decodePacket [0x01000000#32 ||| cfg.setWidth 32, len] =
      .ok (.openStream (cfg.extractLsb' 3 21) (cfg.getLsbD 2) (cfg.getLsbD 1) (cfg.getLsbD 0) len) := by
  have hw : 0x01000000#32 ||| cfg.setWidth 32 = headWord 0x01#8 cfg := by
    rw [headWord_eq_or, show (0x01#8).setWidth 32 <<< 24 = 0x01000000#32 by decide]
  rw [hw, decodePacket, if_pos (opcode_headWord _ _), formatO_headWord]

end Sys2Proof
end

section
/-! ## A command is its operand test, its state test and its body

Every command makes the two tests of R241 in this order, and its body runs only when both have passed. -/

namespace Sys2Proof.Machine

/-- What a command does once its tests have passed. -/
def execBody : Instr → Op (Option Word)
  | .openStream _ rb ef le len =>
    Op.bind (Op.modify fun s => s.openWith (cfgOf rb ef le) len) fun _ => Op.pure none
  | .close => Op.bind (Op.modify State.closeStream) fun _ => Op.pure none
  | .pos => fun s => .ok (some s.pos) s
  | .endpos => fun s => .ok (some (s.len - 1)) s
  | .peek => Op.bind curPeek fun b => Op.pure (some (b.setWidth 32))
  | .hasmore => fun s => .ok (some (bitWord (decide (s.pos ≠ s.len - 1)))) s
  | .rdbyte => Op.bind clearBitoff fun _ => Op.bind curRead fun b => Op.pure (some (b.setWidth 32))
  | .rdword =>
    Op.bind clearBitoff fun _ => Op.bind curRead fun b0 => Op.bind curRead fun b1 =>
      fun s => .ok (some (assemble16 s.le b0 b1)) s
  | .rdint =>
    Op.bind clearBitoff fun _ => Op.bind curRead fun b0 => Op.bind curRead fun b1 => Op.bind curRead fun b2 =>
      Op.bind curRead fun b3 => fun s => .ok (some (assemble32 s.le b0 b1 b2 b3)) s
  | .rdbit => Op.bind readBit fun b => Op.pure (some (bitWord b))
  | .rdbits n => Op.bind (readBits 0 0 n) fun v => Op.pure (some v)
  | .align => Op.bind clearBitoff fun _ => Op.pure none
  | .tcreate t => Op.bind (Op.modify fun s => s.setTree t (PTree.fresh s.config.placeholder)) fun _ => Op.pure none
  | .tinsert t len cw sym => insertBody t len cw sym
  | .tdestroy t => Op.bind (Op.modify fun s => s.releaseTree t) fun _ => Op.pure none
  | .decode t => Op.bind (fun s => decodeWalk (s.tree t) s) fun v => Op.pure (some v)
  | .rdreg r => fun s => .ok (s.reg r) s

theorem openArgsInRange_eq (cfgrsv : BitVec 21) (len : Word) :
    openArgsInRange cfgrsv len = fun _ => cfgrsv == 0 && len != 0 := by
  funext s
  rw [openArgsInRange, decide_not]
  rfl

theorem slotPresent_eq (t : Nat) : slotPresent t = fun s => s.tree t != .nil := by
  funext s
  rw [Bool.eq_iff_iff, slotPresent, PTree.present_iff, bne_iff_ne]

theorem slotAbsent_eq (t : Nat) : slotAbsent t = fun s => s.tree t == .nil := by
  funext s
  rw [Bool.eq_iff_iff, slotAbsent, Bool.not_eq_true', PTree.absent_iff, beq_iff_eq]

/-- Every command in the order of R241; a test it does not have is one that always passes. -/
theorem exec_eq (i : Instr) (s : State) :
    exec i s = complete (Op.require (fun s => i.operandsInRange s.config) .invalidArgs <|
      Op.require (fun s => i.stateReady s) .badState <| execBody i) s := by
  cases i with
  | openStream => rw [exec, execOpenStream, openArgsInRange_eq]; rfl
  | tcreate => rw [exec, execTcreate, slotAbsent_eq]; rfl
  | tinsert => rw [exec, execTinsert, slotPresent_eq]; rfl
  | tdestroy => rw [exec, execTdestroy, slotPresent_eq]; rfl
  | decode => rw [exec, execDecode, slotPresent_eq]; rfl
  | close | pos | endpos | peek | hasmore | rdbyte | rdword | rdint | rdbit | rdbits | align | rdreg => rfl

variable {i : Instr} {s t : State}

/-- An operand out of range fails before anything else (R101, R241). -/
theorem exec_of_operands_out (h : i.operandsInRange s.config = false) :
    exec i s = .next (s.failed .invalidArgs) := by
  rw [exec_eq]
  exact complete_raise (Op.require_false h)

/-- A missing stream or tree fails next (R241, R262). -/
theorem exec_of_not_ready (h : i.operandsInRange s.config = true) (hr : i.stateReady s = false) :
    exec i s = .next (s.failed .badState) := by
  rw [exec_eq]
  exact complete_raise ((Op.require_true h).trans (Op.require_false hr))

/-- A command whose tests pass is its body. -/
theorem exec_of_ready (h : i.operandsInRange s.config = true) (hr : i.stateReady s = true) :
    exec i s = complete (execBody i) s := by
  have hbody : Op.require (fun s => i.operandsInRange s.config) .invalidArgs
      (Op.require (fun s => i.stateReady s) .badState <| execBody i) s = execBody i s :=
    (Op.require_true h).trans (Op.require_true hr)
  rw [exec_eq, complete, hbody, complete]

end Sys2Proof.Machine
end

section
/-! ## Responses

What a command answers, from what its body returns or raises. -/

namespace Sys2Proof.Machine

variable {i : Instr} {s t : State} {rs : List Response} {r : Response}

theorem last_response_eq {r' : Response} (h : rs ++ [r] = s.responses ++ [r']) : r = r' := by
  simpa using List.append_inj_right' h rfl

theorem complete_response {x : Op (Option Word)} (h : complete x s = .next t) (hr : t.responses = rs ++ [r]) :
    (∃ v s', x s = .ok v s' ∧ r = ⟨.ok, v⟩) ∨ ∃ k s', x s = .raise k s' ∧ r = ⟨k, none⟩ := by
  rcases complete_cases x s with ⟨v, s', hx, e⟩ | ⟨k, s', hx, e⟩ | ⟨f, _, e⟩ <;> rw [e] at h <;> cases h
  · exact .inl ⟨v, s', hx, last_response_eq hr.symm⟩
  · exact .inr ⟨k, s', hx, last_response_eq hr.symm⟩

/-- The response of a command: a failed test, or what its body returned or raised. -/
theorem exec_response (h : exec i s = .next t) (hr : t.responses = rs ++ [r]) :
    (i.operandsInRange s.config = false ∧ r = ⟨.invalidArgs, none⟩) ∨
    (i.operandsInRange s.config = true ∧ i.stateReady s = false ∧ r = ⟨.badState, none⟩) ∨
    (∃ v s', execBody i s = .ok v s' ∧ r = ⟨.ok, v⟩) ∨
    ∃ k s', execBody i s = .raise k s' ∧ r = ⟨k, none⟩ := by
  cases hargs : i.operandsInRange s.config with
  | false =>
    rw [exec_of_operands_out hargs] at h
    cases h
    exact .inl ⟨rfl, last_response_eq hr.symm⟩
  | true =>
    cases hready : i.stateReady s with
    | false =>
      rw [exec_of_not_ready hargs hready] at h
      cases h
      exact .inr (.inl ⟨rfl, rfl, last_response_eq hr.symm⟩)
    | true =>
      rw [exec_of_ready hargs hready] at h
      exact .inr (.inr (complete_response h hr))

/-- A result is what the body returned. -/
theorem execBody_of_result {v : Word} (h : exec i s = .next t) (hr : t.responses = rs ++ [⟨.ok, some v⟩]) :
    ∃ s', execBody i s = .ok (some v) s' := by
  rcases exec_response h hr with ⟨_, e⟩ | ⟨_, _, e⟩ | ⟨_, s', hb, e⟩ | ⟨_, _, _, e⟩ <;> cases e
  exact ⟨s', hb⟩

end Sys2Proof.Machine
end

section
/-! ## The statuses a body raises -/

namespace Sys2Proof.Machine

variable {α β : Type} {P Q : Status → Prop}

/-- Every status the primitive raises is one of P. -/
def Op.Raises (P : Status → Prop) (x : Op α) : Prop := ∀ s k s', x s = .raise k s' → P k

theorem Op.Raises.mono {x : Op α} (hx : x.Raises P) (h : ∀ k, P k → Q k) : x.Raises Q :=
  fun s k s' e => h k (hx s k s' e)

/-- A primitive that always returns. -/
theorem Op.raises_ok {v : State → α} {g : State → State} : Op.Raises P fun s => .ok (v s) (g s) := nofun

theorem Op.raises_pure {v : α} : (Op.pure v).Raises P := nofun

theorem Op.raises_modify {g : State → State} : (Op.modify g).Raises P := nofun

theorem Op.raises_fail {k : Status} (hk : P k) : Op.Raises P (Op.fail k : Op α) :=
  fun _ _ _ e => by cases e; exact hk

theorem Op.raises_require {c : State → Bool} {k : Status} {x : Op α} (hk : P k) (hx : x.Raises P) :
    (Op.require c k x).Raises P := by
  intro s k' s' e
  cases hc : c s with
  | true =>
    rw [Op.require_true hc] at e
    exact hx s k' s' e
  | false =>
    rw [Op.require_false hc] at e
    cases e
    exact hk

theorem Op.raises_bind {x : Op α} {f : α → Op β} (hx : x.Raises P) (hf : ∀ v, (f v).Raises P) :
    (Op.bind x f).Raises P := by
  intro s k s' e
  rcases Op.bind_eq_raise e with h | ⟨v, s1, _, h⟩
  · exact hx s k s' h
  · exact hf v s1 k s' h

/-- The statuses of a bit read (R172, R174). -/
abbrev BitFault (k : Status) : Prop := k = .outOfBounds ∨ k = .invalidRead

theorem curPeek_raises : curPeek.Raises (· = .outOfBounds) := by
  intro s k s' e
  rcases curPeek_cases s with ⟨_, h⟩ | ⟨_, _, _, h⟩ | ⟨_, _, h⟩ <;> rw [h] at e <;> cases e
  rfl

theorem curRead_raises : curRead.Raises (· = .outOfBounds) :=
  Op.raises_bind curPeek_raises fun _ => Op.raises_ok

theorem skipRun_raises (k : Nat) : (skipRun k).Raises (· = .outOfBounds) := by
  induction k with
  | zero => exact Op.raises_fail rfl
  | succ k ih =>
    refine Op.raises_bind curPeek_raises fun m => ?_
    split
    · exact Op.raises_bind curRead_raises fun _ => ih
    · exact Op.raises_ok

theorem resolveEscape_raises (k : Nat) : (resolveEscape k).Raises BitFault := by
  have reads : curRead.Raises BitFault := curRead_raises.mono fun _ => .inl
  induction k with
  | zero => exact Op.raises_fail (.inl rfl)
  | succ k ih =>
    refine Op.raises_bind (fun s => (skipRun_raises s.remaining).mono (fun _ => .inl) s) fun m => ?_
    split
    · exact Op.raises_bind reads fun _ => Op.raises_ok
    split
    · refine Op.raises_bind reads fun _ => Op.raises_bind reads fun b s => ?_
      split
      · exact ih s
      · nofun
    · exact Op.raises_fail (.inr rfl)

theorem dataByte_raises (b : Byte) : (dataByte b).Raises BitFault := by
  intro s
  unfold dataByte
  split
  · exact resolveEscape_raises _ s
  · nofun

theorem fetchDataByte_raises : fetchDataByte.Raises BitFault :=
  Op.raises_require (.inr rfl) <| Op.raises_bind (curRead_raises.mono fun _ => .inl) fun b =>
    Op.raises_bind (dataByte_raises b) fun _ => Op.raises_ok

theorem readBit_raises : readBit.Raises BitFault := by
  refine Op.raises_bind (fun s => ?_) fun _ => Op.raises_ok
  split
  · exact fetchDataByte_raises s
  · nofun

theorem readBits_raises (n : Nat) : ∀ i acc, (readBits i acc n).Raises BitFault := by
  induction n with
  | zero => exact fun _ _ => Op.raises_ok
  | succ n ih => exact fun _ _ => Op.raises_bind readBit_raises fun _ s => ih _ _ s

theorem decodeWalk_raises (t : PTree) : (decodeWalk t).Raises fun k => BitFault k ∨ k = .noBranch := by
  induction t with
  | nil => exact Op.raises_fail (.inr rfl)
  | node v z o ihz iho =>
    unfold decodeWalk
    split
    · refine Op.raises_bind (readBit_raises.mono fun _ => .inl) fun b => ?_
      split
      · exact iho
      · exact ihz
    · exact Op.raises_ok

theorem insertBody_raises (t len : Nat) (cw sym : Word) :
    (insertBody t len cw sym).Raises (· = .allocationFailure) := by
  intro s k s' e
  simp only [insertBody] at e
  split at e <;> cases e
  rfl

/-- The statuses R251 lists for a command, but for the two that its tests answer. -/
abbrev BodyFault (i : Instr) (k : Status) : Prop := k ∈ i.mayRaise ∧ k ≠ .invalidArgs ∧ k ≠ .badState

theorem byteReads_raise {i : Instr} (hi : .outOfBounds ∈ i.mayRaise) {f : Byte → Op α}
    (hf : ∀ b, (f b).Raises (BodyFault i)) : (Op.bind curRead f).Raises (BodyFault i) :=
  Op.raises_bind (curRead_raises.mono fun k hk => by subst hk; exact ⟨hi, by decide, by decide⟩) hf

/-- What a command fails with once its tests have passed (R251). -/
theorem execBody_raises (i : Instr) : (execBody i).Raises (BodyFault i) := by
  unfold execBody
  cases i with
  | openStream | close | align | tcreate | tdestroy =>
    exact Op.raises_bind Op.raises_modify fun _ => Op.raises_pure
  | pos | endpos | hasmore | rdreg => exact Op.raises_ok
  | peek => exact Op.raises_bind (curPeek_raises.mono (by simp [BodyFault, Instr.mayRaise])) fun _ => Op.raises_pure
  | rdbyte =>
    have hi : .outOfBounds ∈ Instr.rdbyte.mayRaise := by decide
    exact Op.raises_bind Op.raises_modify fun _ => byteReads_raise hi fun _ => Op.raises_pure
  | rdword =>
    have hi : .outOfBounds ∈ Instr.rdword.mayRaise := by decide
    exact Op.raises_bind Op.raises_modify fun _ => byteReads_raise hi fun _ => byteReads_raise hi fun _ =>
      Op.raises_ok
  | rdint =>
    have hi : .outOfBounds ∈ Instr.rdint.mayRaise := by decide
    exact Op.raises_bind Op.raises_modify fun _ => byteReads_raise hi fun _ => byteReads_raise hi fun _ =>
      byteReads_raise hi fun _ => byteReads_raise hi fun _ => Op.raises_ok
  | rdbit =>
    exact Op.raises_bind (readBit_raises.mono (by simp [BodyFault, Instr.mayRaise])) fun _ => Op.raises_pure
  | rdbits n =>
    exact Op.raises_bind ((readBits_raises n 0 0).mono (by simp [BodyFault, Instr.mayRaise])) fun _ => Op.raises_pure
  | tinsert t len cw sym => exact (insertBody_raises t len cw sym).mono (by simp [BodyFault, Instr.mayRaise])
  | decode t =>
    refine Op.raises_bind (fun s => (decodeWalk_raises (s.tree t)).mono ?_ s) fun _ => Op.raises_pure
    rintro k ((rfl | rfl) | rfl) <;> simp [BodyFault, Instr.mayRaise]

end Sys2Proof.Machine
end

section
/-! ## The values a body returns (R94) -/

namespace Sys2Proof.Machine

variable {α β : Type} {P : α → Prop}

/-- Every value the primitive returns has the property. -/
def Op.Returns (P : α → Prop) (x : Op α) : Prop := ∀ s v s', x s = .ok v s' → P v

/-- The value of the first part matters for that of the second. -/
theorem Op.returns_bind_of {Q : β → Prop} {x : Op β} {f : β → Op α} (hx : x.Returns Q)
    (hf : ∀ u, Q u → (f u).Returns P) : (Op.bind x f).Returns P := by
  intro s v s' e
  obtain ⟨u, s1, hu, h⟩ := Op.bind_eq_ok e
  exact hf u (hx s u s1 hu) s1 v s' h

theorem Op.returns_bind {x : Op β} {f : β → Op α} (hf : ∀ u, (f u).Returns P) : (Op.bind x f).Returns P :=
  Op.returns_bind_of (Q := fun _ => True) (fun _ _ _ _ => trivial) fun u _ => hf u

theorem Op.returns_ok {v : State → α} {g : State → State} (h : ∀ s, P (v s)) :
    Op.Returns P fun s => .ok (v s) (g s) :=
  fun s _ _ e => by cases e; exact h s

theorem Op.returns_fail {k : Status} : (Op.fail k).Returns P := nofun

/-! ### How wide the values are -/

theorem bitWord_lt (b : Bool) : (bitWord b).toNat < 2 := by cases b <;> decide

theorem byte_lt (b : Byte) : (b.setWidth 32 : Word).toNat < 2 ^ 8 := by
  rw [BitVec.toNat_setWidth_of_le (by decide)]
  exact b.isLt

theorem toNat_shiftLeft_lt {v : Word} {m n : Nat} (hv : v.toNat < 2 ^ m) : (v <<< n).toNat < 2 ^ (m + n) := by
  rw [BitVec.toNat_shiftLeft, Nat.shiftLeft_eq, Nat.pow_add]
  exact lt_of_le_of_lt (Nat.mod_le _ _) (Nat.mul_lt_mul_of_pos_right hv (Nat.two_pow_pos n))

theorem toNat_or_lt {v u : Word} {m : Nat} (hv : v.toNat < 2 ^ m) (hu : u.toNat < 2 ^ m) :
    (v ||| u).toNat < 2 ^ m := by
  rw [BitVec.toNat_or]
  exact Nat.or_lt_two_pow hv hu

theorem assemble16_lt (le : Bool) (b0 b1 : Byte) : (assemble16 le b0 b1).toNat < 2 ^ 16 := by
  have low : ∀ b : Byte, (b.setWidth 32 : Word).toNat < 2 ^ 16 :=
    fun b => lt_trans (byte_lt b) (by decide)
  have high : ∀ b : Byte, ((b.setWidth 32 : Word) <<< 8).toNat < 2 ^ 16 :=
    fun b => toNat_shiftLeft_lt (m := 8) (byte_lt b)
  unfold assemble16
  split
  · exact toNat_or_lt (low b0) (high b1)
  · exact toNat_or_lt (high b0) (low b1)

/-- Packing bit i makes the accumulator at most one bit wider (R71). -/
theorem packBit_lt {rb : Bool} {i : Nat} {acc : Word} {b : Bool} (h : acc.toNat < 2 ^ i) :
    (packBit rb i acc b).toNat < 2 ^ (i + 1) := by
  have hacc : acc.toNat < 2 ^ (i + 1) := lt_of_lt_of_le h (Nat.pow_le_pow_right (by decide) (Nat.le_succ i))
  have hbit : (bitWord b).toNat < 2 ^ (i + 1) :=
    lt_of_lt_of_le (bitWord_lt b) (Nat.le_self_pow (Nat.succ_ne_zero i) 2)
  have hshifted : (bitWord b <<< i).toNat < 2 ^ (i + 1) :=
    Nat.add_comm 1 i ▸ toNat_shiftLeft_lt (m := 1) (bitWord_lt b)
  unfold packBit
  split
  · exact toNat_or_lt hacc hshifted
  · exact toNat_or_lt (toNat_shiftLeft_lt h) hbit

theorem readBits_returns (n : Nat) : ∀ {i : Nat} {acc : Word}, acc.toNat < 2 ^ i →
    (readBits i acc n).Returns (·.toNat < 2 ^ (i + n)) := by
  induction n with
  | zero => exact fun h => Op.returns_ok fun _ => h
  | succ n ih =>
    intro i acc h
    refine Op.returns_bind fun b s => ?_
    have hrest := ih (packBit_lt (rb := s.rb) (b := b) h) s
    rwa [Nat.add_assoc, Nat.add_comm 1 n] at hrest

/-- A walk gives a symbol of its tree (R208). -/
theorem decodeWalk_returns {m : Nat} (t : PTree) (h : t.symsBelow m = true) :
    (decodeWalk t).Returns (·.toNat < m) := by
  induction t with
  | nil => exact Op.returns_fail
  | node v z o ihz iho =>
    simp only [PTree.symsBelow, Bool.and_eq_true, decide_eq_true_eq] at h
    obtain ⟨⟨hv, hz⟩, ho⟩ := h
    unfold decodeWalk
    split
    · refine Op.returns_bind fun b => ?_
      split
      · exact iho ho
      · exact ihz hz
    · exact Op.returns_ok fun _ => hv

/-- The result of a body has the property. -/
abbrev ResultIs (P : Word → Prop) (r : Option Word) : Prop := ∀ v, r = some v → P v

theorem resultIs_some {P : Word → Prop} {v : Word} (h : P v) : ResultIs P (some v) := fun _ e => by
  cases e
  exact h

theorem rdbits_result_lt (n : Nat) : (execBody (.rdbits n)).Returns (ResultIs (·.toNat < 2 ^ n)) :=
  Op.returns_bind_of (readBits_returns n (i := 0) (acc := 0) (by decide)) fun _ hv =>
    Op.returns_ok fun _ => resultIs_some (Nat.zero_add n ▸ hv)

theorem rdword_result_lt : (execBody .rdword).Returns (ResultIs (·.toNat < 2 ^ 16)) := by
  unfold execBody
  exact Op.returns_bind fun _ => Op.returns_bind fun b0 => Op.returns_bind fun b1 =>
    Op.returns_ok fun s => resultIs_some (assemble16_lt s.le b0 b1)

theorem rdbyte_result_lt : (execBody .rdbyte).Returns (ResultIs (·.toNat < 2 ^ 8)) := by
  unfold execBody
  exact Op.returns_bind fun _ => Op.returns_bind fun b => Op.returns_ok fun _ => resultIs_some (byte_lt b)

theorem peek_result_lt : (execBody .peek).Returns (ResultIs (·.toNat < 2 ^ 8)) :=
  Op.returns_bind fun b => Op.returns_ok fun _ => resultIs_some (byte_lt b)

theorem rdbit_result_lt : (execBody .rdbit).Returns (ResultIs (·.toNat < 2)) :=
  Op.returns_bind fun b => Op.returns_ok fun _ => resultIs_some (bitWord_lt b)

theorem hasmore_result_lt : (execBody .hasmore).Returns (ResultIs (·.toNat < 2)) :=
  Op.returns_ok fun _ => resultIs_some (bitWord_lt _)

variable {s s' : State} {v : Word}

/-- In a state with the invariant DECODE gives a symbol of SYM_W bits (R32, R208). -/
theorem decode_result_lt {k : Nat} (hs : s.Inv) (h : execBody (.decode k) s = .ok (some v) s') :
    v.toNat < 2 ^ s.config.symW := by
  obtain ⟨u, s1, hwalk, h⟩ := Op.bind_eq_ok h
  cases h
  obtain ⟨_, hsyms⟩ := hs.tree_bounds k
  exact decodeWalk_returns (s.tree k) hsyms s v s' hwalk

end Sys2Proof.Machine
end

section
/-! ## The obligations of 30_encoding -/

namespace Sys2Proof.EncodingProofs

open Sys2Proof.Machine

/-- Settles O8, format by format: what the decoder cuts out of a first word the encoder has put together. -/
theorem decodeOfEncode : Obligations.DecodeOfEncode := by
  unfold Obligations.DecodeOfEncode
  exact fun _ hi => decodePacket_encode hi

/-- Settles O9: a format that accepts a first word has tested every bit that it does not give to an operand. -/
theorem encodeOfDecode : Obligations.EncodeOfDecode := by
  unfold Obligations.EncodeOfDecode
  exact fun _ _ h => encode_of_decodePacket h

/-- Settles O6: R100's list is the negation of the tests the decoder makes. -/
theorem illegalPacketRejected : Obligations.IllegalPacketRejected := by
  unfold Obligations.IllegalPacketRejected
  refine ⟨illegalPacket_iff, fun s ws rest hin hill => ?_⟩
  rw [step_packet hin]
  exact runPacket_of_not_decoded ((illegalPacket_iff ws).1 hill) _

/-- Settles O10: a row makes the decoder's tests for its own opcode. -/
theorem opcodeTableDecides : Obligations.OpcodeTableDecides := by
  unfold Obligations.OpcodeTableDecides
  exact ⟨fun ws _ hr => matches_iff hr ws, exists_row⟩

/-- Settles O11: the column's sums are the concatenated fields. -/
theorem encodingColumn : Obligations.EncodingColumn := by
  unfold Obligations.EncodingColumn
  have hT : ∀ (op : BitVec 8) {t : Nat}, t < 16 →
      [headWord op (lowT t)] = [(op.setWidth 32 <<< 24) ||| BitVec.ofNat 32 t] :=
    fun _ _ ht => congrArg (fun w => [w]) (headWord_lowT ht)
  exact ⟨decodePacket_open, rfl, rfl, rfl, rfl, rfl, rfl, rfl, rfl, rfl,
    fun _ hn => congrArg (fun w => [w]) (headWord_bitCount hn), rfl, fun _ => hT 0x10,
    fun _ _ cw sym ht hlen => congrArg (fun w => [w, cw, sym]) (headWord_lowI ht hlen),
    fun _ => hT 0x12, fun _ => hT 0x13, fun _ => hT 0x1F⟩

/-- Settles O13: each packet has the words its own opcode asks for. -/
theorem listingSplitsIntoPackets : Obligations.ListingSplitsIntoPackets := by
  unfold Obligations.ListingSplitsIntoPackets
  exact fun is _ => splitListing_encode is

/-- Settles O34: a result is what the body returns, and each body returns values of its width. -/
theorem resultsFitTheirWidth : Obligations.ResultsFitTheirWidth := by
  unfold Obligations.ResultsFitTheirWidth
  intro s t v i h hr
  obtain ⟨s', hb⟩ := execBody_of_result h hr
  refine ⟨?_, ?_, ?_, ?_, ?_⟩
  · rintro n rfl
    exact rdbits_result_lt n s _ s' hb v rfl
  · rintro rfl
    exact rdword_result_lt s _ s' hb v rfl
  · rintro (rfl | rfl)
    · exact rdbyte_result_lt s _ s' hb v rfl
    · exact peek_result_lt s _ s' hb v rfl
  · rintro (rfl | rfl)
    · exact rdbit_result_lt s _ s' hb v rfl
    · exact hasmore_result_lt s _ s' hb v rfl
  · rintro k rfl hs
    exact decode_result_lt hs hb

/-- Settles O48: the operand test comes first, and nothing after it raises INVALID_ARGS. -/
theorem operandRangeCheckedFirst : Obligations.OperandRangeCheckedFirst := by
  unfold Obligations.OperandRangeCheckedFirst
  intro s i
  refine ⟨exec_of_operands_out, fun hargs t r h hr => ?_⟩
  rcases exec_response h hr with ⟨hout, _⟩ | ⟨_, _, rfl⟩ | ⟨_, _, _, rfl⟩ | ⟨k, s', hb, rfl⟩
  · cases hargs.symm.trans hout
  · nofun
  · nofun
  · obtain ⟨_, hk, _⟩ := execBody_raises i s k s' hb
    exact hk

/-- Settles O12, by running the assembler and the decoder on R106's lines. -/
theorem workedEncodings : Obligations.WorkedEncodings := by
  unfold Obligations.WorkedEncodings
  decide

end Sys2Proof.EncodingProofs
end

section
/-! ## What a command answers, from the run of its body -/

namespace Sys2Proof.Machine

variable {i : Instr} {s s' t : State}

/-- A command whose tests pass and whose body returns completes with OK (R93). -/
theorem exec_of_body_ok {r : Option Word} (h : i.operandsInRange s.config = true) (hr : i.stateReady s = true)
    (hb : execBody i s = .ok r s') : exec i s = .next (s'.answered r) := by
  rw [exec_of_ready h hr, complete_ok hb]

/-- A command whose tests pass and whose body raises delivers the fault (R255). -/
theorem exec_of_body_raise {k : Status} (h : i.operandsInRange s.config = true) (hr : i.stateReady s = true)
    (hb : execBody i s = .raise k s') : exec i s = .next (s'.failed k) := by
  rw [exec_of_ready h hr, complete_raise hb]

/-! ### A list of commands -/

theorem runInstrs_cons {is : List Instr} (h : exec i s = .next t) : runInstrs (i :: is) s = runInstrs is t := by
  rw [runInstrs, h]

theorem runInstrs_append {is js : List Instr} (h : runInstrs is s = .next t) :
    runInstrs (is ++ js) s = runInstrs js t := by
  induction is generalizing s with
  | nil =>
    cases h
    rfl
  | cons i is ih =>
    cases hi : exec i s with
    | next u =>
      rw [runInstrs_cons hi] at h
      rw [List.cons_append, runInstrs_cons hi, ih h]
    | fault | refused => simp [runInstrs, hi] at h

end Sys2Proof.Machine
end

section
/-! ## OPEN: its packet and its operands -/

namespace Sys2Proof

open Machine

/-- The operands of OPEN are out of range exactly when R135's first test fails. -/
theorem openStream_operandsInRange_eq_false_iff {c : Config} {cfgrsv : BitVec 21} {rb ef le : Bool} {len : Word} :
    (Instr.openStream cfgrsv rb ef le len).operandsInRange c = false ↔ cfgrsv ≠ 0 ∨ len = 0 := by
  rw [Instr.operandsInRange, Bool.and_eq_false_iff, beq_eq_false_iff_ne, bne_eq_false_iff_eq]

/-- Format O has no bit to test (R99). -/
theorem decodePacket_formatO {w0 : Word} (w1 : Word) (h : opcode w0 = 0x01) :
    decodePacket [w0, w1] = .ok (formatO w0 w1) := by
  rw [decodePacket]
  exact if_pos h

end Sys2Proof
end

section
/-! ## PEEK and RDBYTE -/

namespace Sys2Proof.Machine

variable {s : State} {b : Byte}

theorem exec_peek_end (ho : s.openf = true) (h : s.len.toNat ≤ s.pos.toNat) :
    exec .peek s = .next (s.failed .outOfBounds) :=
  exec_of_body_raise rfl ho (Op.bind_raise (curPeek_end h))

theorem exec_peek_byte (ho : s.openf = true) (h : s.pos.toNat < s.len.toNat)
    (hb : s.buf.read s.pos.toNat = some b) : exec .peek s = .next (s.answered (some (b.setWidth 32))) :=
  exec_of_body_ok rfl ho (Op.bind_ok (curPeek_byte h hb))

/-- RDBYTE clears BITOFF before the cursor fails (R161). -/
theorem exec_rdbyte_end (ho : s.openf = true) (h : s.len.toNat ≤ s.pos.toNat) :
    exec .rdbyte s = .next (({ s with bitoff := 0 } : State).failed .outOfBounds) :=
  exec_of_body_raise rfl ho
    (Op.bind_raise (x := curRead) (s := { s with bitoff := 0 }) (curRead_end h))

theorem exec_rdbyte_byte (ho : s.openf = true) (h : s.pos.toNat < s.len.toNat)
    (hb : s.buf.read s.pos.toNat = some b) :
    exec .rdbyte s =
      .next (({ s with bitoff := 0, pos := s.pos + 1 } : State).answered (some (b.setWidth 32))) :=
  exec_of_body_ok rfl ho
    (Op.bind_ok (x := curRead) (s := { s with bitoff := 0 }) (curRead_byte h hb))

/-- Clearing BITOFF where it is 0 already. -/
theorem State.clearBitoff_eq_self (hz : s.bitoff = 0) : ({ s with bitoff := 0 } : State) = s := by
  rw [← hz]

/-- The byte a stream holds next is the byte at POS, below LEN. -/
theorem State.Holds.next_byte (h : s.Holds [b]) :
    s.pos.toNat < s.len.toNat ∧ s.buf.read s.pos.toNat = some b :=
  h 0 Nat.one_pos

/-! ### Reading byte after byte -/

/-- After n byte-aligned reads that succeed, from BITOFF = 0: POS has moved on and BUF's bytes have been answered in
order (R132, R161). -/
def State.afterBytes (s : State) (n : Nat) : State :=
  { s with
    pos := s.pos + BitVec.ofNat 32 n
    responses := s.responses ++ (List.range n).map fun a =>
      ⟨.ok, (s.buf.read (s.pos.toNat + a)).map fun b => b.setWidth 32⟩ }

theorem State.afterBytes_zero (s : State) : s.afterBytes 0 = s := by
  simp [State.afterBytes]

/-- One more byte read. -/
theorem State.afterBytes_succ {n : Nat} (hz : s.bitoff = 0) (hb : s.buf.read (s.pos.toNat + n) = some b) :
    s.afterBytes (n + 1) =
      ({ s.afterBytes n with bitoff := 0, pos := (s.afterBytes n).pos + 1 } : State).answered
        (some (b.setWidth 32)) := by
  simp [State.afterBytes, State.answered, List.range_succ, hz, hb, BitVec.ofNat_add, BitVec.add_assoc]

/-- POS does not wrap up to LEN (R27). -/
theorem State.afterBytes_pos_toNat {n : Nat} (h : s.pos.toNat + n ≤ s.len.toNat) :
    (s.afterBytes n).pos.toNat = s.pos.toNat + n := by
  have hlt := s.len.isLt
  rw [State.afterBytes, BitVec.toNat_add, BitVec.toNat_ofNat]
  omega

/-- R133, by induction on the number of bytes read: each RDBYTE finds its byte below LEN. -/
theorem runInstrs_rdbytes (ho : s.openf = true) (hz : s.bitoff = 0) (n : Nat)
    (hlen : s.pos.toNat + n ≤ s.len.toNat)
    (hbuf : ∀ a, a < n → (s.buf.read (s.pos.toNat + a)).isSome = true) :
    runInstrs (List.replicate n .rdbyte) s = .next (s.afterBytes n) := by
  induction n with
  | zero => rw [s.afterBytes_zero]; rfl
  | succ n ih =>
    have hrun := ih (by omega) fun a ha => hbuf a (by omega)
    obtain ⟨b, hb⟩ := Option.isSome_iff_exists.1 (hbuf n (by omega))
    have hpos : (s.afterBytes n).pos.toNat = s.pos.toNat + n := State.afterBytes_pos_toNat (by omega)
    have hread : exec .rdbyte (s.afterBytes n) = .next (s.afterBytes (n + 1)) := by
      rw [exec_rdbyte_byte (s := s.afterBytes n) ho (hpos.trans_lt hlen) (hpos ▸ hb), State.afterBytes_succ hz hb]
    rw [List.replicate_succ', runInstrs_append hrun, runInstrs_cons hread, runInstrs]

end Sys2Proof.Machine
end

section
/-! ## The obligations of 40_cursor -/

namespace Sys2Proof.CursorProofs

open Sys2Proof.Machine

/-- Settles O23: LEN reads reach LEN, where the cursor's bounds test fails. -/
theorem bufferReadToItsEnd : Obligations.BufferReadToItsEnd := by
  unfold Obligations.BufferReadToItsEnd
  intro s ho hp hz hbuf
  have hp0 : s.pos.toNat = 0 := by rw [hp]; rfl
  have hrun : runInstrs (List.replicate s.len.toNat .rdbyte) s = .next (s.afterBytes s.len.toNat) :=
    runInstrs_rdbytes ho hz _ (by omega) fun a ha => by rw [hp0, Nat.zero_add]; exact hbuf a ha
  have hend : (s.afterBytes s.len.toNat).pos.toNat = s.len.toNat := by
    rw [State.afterBytes_pos_toNat (by omega), hp0, Nat.zero_add]
  refine ⟨s.afterBytes s.len.toNat, hrun, ?_, ?_, exec_peek_end (s := s.afterBytes s.len.toNat) ho hend.ge⟩
  · simp [State.afterBytes, hp]
  · rw [exec_rdbyte_end (s := s.afterBytes s.len.toNat) ho hend.ge, State.clearBitoff_eq_self]
    exact hz

/-- Settles O14: the operand test, the state test, then one write. -/
theorem openCommand : Obligations.OpenCommand := by
  unfold Obligations.OpenCommand
  intro s cfgrsv rb ef le len
  have hargs (hc : cfgrsv = 0) (hl : len ≠ 0) :
      (Instr.openStream cfgrsv rb ef le len).operandsInRange s.config = true := by
    rw [← Bool.not_eq_false, openStream_operandsInRange_eq_false_iff]
    exact not_or.2 ⟨not_not.2 hc, hl⟩
  refine ⟨fun h => ?_, fun hc hl ho => ?_, fun hc hl ho => ?_, fun w0 w1 => decodePacket_formatO w1⟩
  · exact exec_of_operands_out (openStream_operandsInRange_eq_false_iff.2 h)
  · exact exec_of_not_ready (hargs hc hl) (congrArg not ho)
  · exact exec_of_body_ok (hargs hc hl) (congrArg not ho) rfl

/-- Settles O15: the body is the one write of `State.closeStream`. -/
theorem closeCommand : Obligations.CloseCommand := by
  unfold Obligations.CloseCommand
  exact ⟨decodePacket_encode (i := .close) rfl, fun _ =>
    ⟨fun ho => exec_of_not_ready rfl ho, fun ho => exec_of_body_ok rfl ho rfl⟩⟩

/-- Settles O16: the bodies return a register's value and write nothing. -/
theorem positionQueries : Obligations.PositionQueries := by
  unfold Obligations.PositionQueries
  exact ⟨decodePacket_encode (i := .pos) rfl, decodePacket_encode (i := .endpos) rfl, fun _ =>
    ⟨fun ho => ⟨exec_of_not_ready rfl ho, exec_of_not_ready rfl ho⟩,
      fun ho => ⟨exec_of_body_ok rfl ho rfl, exec_of_body_ok rfl ho rfl⟩⟩⟩

/-- Settles O17: PEEK is CurPeek behind the state test. -/
theorem peekCommand : Obligations.PeekCommand := by
  unfold Obligations.PeekCommand
  refine ⟨decodePacket_encode (i := .peek) rfl, fun s =>
    ⟨fun ho => exec_of_not_ready rfl ho, exec_peek_end, fun b ho h => ?_⟩⟩
  obtain ⟨hlt, hb⟩ := h.next_byte
  exact exec_peek_byte ho hlt hb

end Sys2Proof.CursorProofs
end

section
/-! ## Byte-aligned reads: several bytes in a row

RDBYTE, RDWORD and RDINT clear BITOFF, read 1, 2 or 4 bytes, and make a value of them. -/

namespace Sys2Proof.Machine

variable {α : Type} {s : State} {b : Byte} {bs : List Byte}

/-- POS n bytes on. -/
def State.skip (s : State) (n : Nat) : State := { s with pos := s.pos + BitVec.ofNat 32 n }

@[simp] theorem State.skip_len (s : State) (n : Nat) : (s.skip n).len = s.len := rfl
@[simp] theorem State.skip_pos (s : State) (n : Nat) : (s.skip n).pos = s.pos + BitVec.ofNat 32 n := rfl
@[simp] theorem State.skip_buf (s : State) (n : Nat) : (s.skip n).buf = s.buf := rfl
@[simp] theorem State.skip_config (s : State) (n : Nat) : (s.skip n).config = s.config := rfl
@[simp] theorem State.skip_zero (s : State) : s.skip 0 = s := by rw [State.skip, BitVec.add_zero]

@[simp] theorem State.skip_skip (s : State) (m n : Nat) : (s.skip m).skip n = s.skip (m + n) := by
  simp only [State.skip, BitVec.ofNat_add, BitVec.add_assoc]

/-- POS does not wrap up to LEN (R27). -/
theorem State.skip_pos_toNat {n : Nat} (h : s.pos.toNat + n ≤ s.len.toNat) :
    (s.skip n).pos.toNat = s.pos.toNat + n := by
  have hlt := s.len.isLt
  rw [State.skip_pos, BitVec.toNat_add, BitVec.toNat_ofNat]
  omega

/-- Where LEN is n bytes on, n bytes on POS is LEN. -/
theorem State.skip_to_len {n : Nat} (h : s.len.toNat = s.pos.toNat + n) : s.skip n = { s with pos := s.len } := by
  have hpos : (s.skip n).pos = s.len := BitVec.eq_of_toNat_eq ((State.skip_pos_toNat h.ge).trans h.symm)
  rw [State.skip_pos] at hpos
  rw [State.skip, hpos]

/-- The first byte a stream holds is the byte at POS, below LEN. -/
theorem State.Holds.head (h : s.Holds (b :: bs)) :
    s.pos.toNat < s.len.toNat ∧ s.buf.read s.pos.toNat = some b :=
  h 0 (Nat.succ_pos _)

theorem State.Holds.skip_one_pos (h : s.Holds (b :: bs)) : (s.skip 1).pos.toNat = s.pos.toNat + 1 :=
  State.skip_pos_toNat h.head.1

/-- Past its first byte a stream holds the others. -/
theorem State.Holds.tail (h : s.Holds (b :: bs)) : (s.skip 1).Holds bs := by
  intro i hi
  obtain ⟨hlt, hb⟩ := h (i + 1) (Nat.succ_lt_succ hi)
  rw [h.skip_one_pos, Nat.add_assoc, Nat.add_comm 1 i]
  exact ⟨hlt, hb⟩

theorem curRead_of_holds (h : s.Holds (b :: bs)) : curRead s = .ok b (s.skip 1) :=
  curRead_byte h.head.1 h.head.2

/-- n CurReads, and then what is made of the bytes. -/
def readBytes : Nat → (List Byte → Op α) → Op α
  | 0, f => f []
  | n + 1, f => Op.bind curRead fun b => readBytes n fun bs => f (b :: bs)

theorem readBytes_of_holds (h : s.Holds bs) (f : List Byte → Op α) :
    readBytes bs.length f s = f bs (s.skip bs.length) := by
  induction bs generalizing s f with
  | nil => rw [List.length_nil, State.skip_zero, readBytes]
  | cons b bs ih =>
    rw [List.length_cons, readBytes, Op.bind_ok (curRead_of_holds h), ih h.tail, State.skip_skip, Nat.add_comm]

/-- The bytes there are stay consumed when one is missing (R162, R163, R256). -/
theorem readBytes_out {n : Nat} (h : s.Holds bs) (hend : s.len.toNat ≤ s.pos.toNat + bs.length)
    (hn : bs.length < n) (f : List Byte → Op α) :
    readBytes n f s = .raise .outOfBounds (s.skip bs.length) := by
  induction bs generalizing s n f with
  | nil =>
    obtain ⟨n, rfl⟩ := Nat.exists_eq_succ_of_ne_zero hn.ne'
    rw [List.length_nil, State.skip_zero, readBytes, Op.bind_raise (curRead_end hend)]
  | cons b bs ih =>
    obtain ⟨n, rfl⟩ := Nat.exists_eq_succ_of_ne_zero (Nat.ne_zero_of_lt hn)
    have hend' : (s.skip 1).len.toNat ≤ (s.skip 1).pos.toNat + bs.length := by
      rw [h.skip_one_pos, Nat.add_assoc, Nat.add_comm 1]
      exact hend
    rw [readBytes, Op.bind_ok (curRead_of_holds h), ih h.tail hend' (Nat.lt_of_succ_lt_succ hn), State.skip_skip,
      List.length_cons, Nat.add_comm]

/-! ### The three commands -/

/-- A command that clears BITOFF, reads n bytes and returns a value of them. -/
def ReadsBytes (i : Instr) (n : Nat) (value : Bool → List Byte → Word) : Prop :=
  (∀ c : Config, i.operandsInRange c = true) ∧ (∀ s : State, i.stateReady s = s.openf) ∧
    execBody i = Op.bind clearBitoff fun _ => readBytes n fun bs s => .ok (some (value s.le bs)) s

theorem rdbyte_readsBytes : ReadsBytes .rdbyte 1 fun _ bs => (bs.getD 0 0).setWidth 32 :=
  ⟨fun _ => rfl, fun _ => rfl, rfl⟩

/-- What RDWORD makes of the two bytes it reads (R162). -/
def wordOfBytes (le : Bool) (bs : List Byte) : Word := assemble16 le (bs.getD 0 0) (bs.getD 1 0)

/-- What RDINT makes of the four bytes it reads (R163). -/
def intOfBytes (le : Bool) (bs : List Byte) : Word :=
  assemble32 le (bs.getD 0 0) (bs.getD 1 0) (bs.getD 2 0) (bs.getD 3 0)

theorem rdword_readsBytes : ReadsBytes .rdword 2 wordOfBytes := ⟨fun _ => rfl, fun _ => rfl, rfl⟩

theorem rdint_readsBytes : ReadsBytes .rdint 4 intOfBytes := ⟨fun _ => rfl, fun _ => rfl, rfl⟩

section ReadsBytes
variable {i : Instr} {n : Nat} {value : Bool → List Byte → Word}

theorem ReadsBytes.exec_closed (hi : ReadsBytes i n value) (ho : s.openf = false) :
    exec i s = .next (s.failed .badState) := by
  obtain ⟨hargs, hready, _⟩ := hi
  exact exec_of_not_ready (hargs _) ((hready s).trans ho)

theorem ReadsBytes.exec_ok (hi : ReadsBytes i bs.length value) (ho : s.openf = true) (h : s.Holds bs) :
    exec i s =
      .next ((({ s with bitoff := 0 } : State).skip bs.length).answered (some (value s.le bs))) := by
  obtain ⟨hargs, hready, hbody⟩ := hi
  refine exec_of_body_ok (hargs _) ((hready s).trans ho) ?_
  rw [hbody]
  exact readBytes_of_holds (s := { s with bitoff := 0 }) h _

/-- BITOFF is cleared and the bytes there are are consumed before the cursor fails (R161 to R163). -/
theorem ReadsBytes.exec_out (hi : ReadsBytes i n value) (ho : s.openf = true) (h : s.Holds bs)
    (hend : s.len.toNat ≤ s.pos.toNat + bs.length) (hn : bs.length < n) :
    exec i s = .next ((({ s with bitoff := 0 } : State).skip bs.length).failed .outOfBounds) := by
  obtain ⟨hargs, hready, hbody⟩ := hi
  refine exec_of_body_raise (hargs _) ((hready s).trans ho) ?_
  rw [hbody]
  exact readBytes_out (s := { s with bitoff := 0 }) h hend hn _

/-- At the end of the buffer only BITOFF is written. -/
theorem ReadsBytes.exec_end (hi : ReadsBytes i n value) (ho : s.openf = true) (hend : s.len.toNat ≤ s.pos.toNat)
    (hn : 0 < n) : exec i s = .next (({ s with bitoff := 0 } : State).failed .outOfBounds) := by
  have hout := hi.exec_out (bs := []) ho nofun hend hn
  rwa [List.length_nil, State.skip_zero] at hout

/-- All bytes that are left, and fewer than asked for: POS reaches LEN. -/
theorem ReadsBytes.exec_short (hi : ReadsBytes i n value) (ho : s.openf = true) (h : s.Holds bs)
    (hend : s.len.toNat = s.pos.toNat + bs.length) (hn : bs.length < n) :
    exec i s = .next (({ s with bitoff := 0, pos := s.len } : State).failed .outOfBounds) := by
  rw [hi.exec_out ho h hend.le hn, State.skip_to_len (s := { s with bitoff := 0 }) hend]

end ReadsBytes

/-! ### The value of the bytes (R68) -/

/-- Two bytes side by side, the one consumed last on the left when CFG.LE = 1. -/
theorem assemble16_eq_append (le : Bool) (b0 b1 : Byte) :
    assemble16 le b0 b1 = (if le then b1 ++ b0 else b0 ++ b1).setWidth 32 := by
  cases le with
  | false => exact BitVec.setWidth_append_eq_shiftLeft_setWidth_or.symm
  | true => exact (BitVec.or_comm _ _).trans BitVec.setWidth_append_eq_shiftLeft_setWidth_or.symm

/-- Four bytes side by side, the one consumed last on the left when CFG.LE = 1. -/
theorem assemble32_eq_append (le : Bool) (b0 b1 b2 b3 : Byte) :
    assemble32 le b0 b1 b2 b3 = if le then b3 ++ b2 ++ b1 ++ b0 else b0 ++ b1 ++ b2 ++ b3 := by
  have hcat : ∀ a b c d : Byte, (a ++ b ++ c ++ d : Word) =
      (a.setWidth 32 <<< 24) ||| (b.setWidth 32 <<< 16) ||| (c.setWidth 32 <<< 8) ||| d.setWidth 32 := fun a b c d =>
    (BitVec.setWidth_eq _).symm.trans BitVec.setWidth_append_append_append_eq_shiftLeft_setWidth_or
  cases le with
  | false => exact (hcat b0 b1 b2 b3).symm
  | true =>
    have hrev : ∀ w x y z : Word, w ||| x ||| y ||| z = z ||| y ||| x ||| w := fun _ _ _ _ => by ac_rfl
    refine Eq.trans ?_ (hcat b3 b2 b1 b0).symm
    rw [assemble32, if_pos rfl]
    exact hrev _ _ _ _

theorem toNat_append_byte {n : Nat} (x : BitVec n) (b : Byte) : (x ++ b).toNat = 256 * x.toNat + b.toNat := by
  rw [BitVec.toNat_append, ← Nat.shiftLeft_add_eq_or_of_lt b.isLt, Nat.shiftLeft_eq, Nat.mul_comm]

theorem assemble16_eq_ofNat (le : Bool) (b0 b1 : Byte) :
    assemble16 le b0 b1 =
      BitVec.ofNat 32 (if le then b0.toNat + 256 * b1.toNat else 256 * b0.toNat + b1.toNat) := by
  rw [assemble16_eq_append, ← BitVec.ofNat_toNat]
  cases le with
  | false => rw [if_neg nofun, if_neg nofun, toNat_append_byte]
  | true => rw [if_pos rfl, if_pos rfl, toNat_append_byte, Nat.add_comm]

theorem assemble32_eq_ofNat (le : Bool) (b0 b1 b2 b3 : Byte) :
    assemble32 le b0 b1 b2 b3 = BitVec.ofNat 32
      (if le then b0.toNat + 256 * b1.toNat + 65536 * b2.toNat + 16777216 * b3.toNat
      else 16777216 * b0.toNat + 65536 * b1.toNat + 256 * b2.toNat + b3.toNat) := by
  have hcat : ∀ a b c d : Byte, (a ++ b ++ c ++ d : Word) =
      BitVec.ofNat 32 (16777216 * a.toNat + 65536 * b.toNat + 256 * c.toNat + d.toNat) := fun a b c d => by
    rw [← BitVec.setWidth_eq (a ++ b ++ c ++ d), ← BitVec.ofNat_toNat, toNat_append_byte, toNat_append_byte,
      toNat_append_byte]
    congr 1
    omega
  rw [assemble32_eq_append]
  cases le with
  | false => rw [if_neg nofun, if_neg nofun, hcat]
  | true =>
    rw [if_pos rfl, if_pos rfl, hcat]
    congr 1
    omega

/-! ### A value laid out in the stream's byte order (R164) -/

/-- The bytes of a 16-bit value in consumption order. -/
def layout16 (le : Bool) (v : BitVec 16) : List Byte :=
  if le then [v.extractLsb' 0 8, v.extractLsb' 8 8] else [v.extractLsb' 8 8, v.extractLsb' 0 8]

/-- The bytes of a 32-bit value in consumption order. -/
def layout32 (le : Bool) (v : Word) : List Byte :=
  if le then [v.extractLsb' 0 8, v.extractLsb' 8 8, v.extractLsb' 16 8, v.extractLsb' 24 8]
  else [v.extractLsb' 24 8, v.extractLsb' 16 8, v.extractLsb' 8 8, v.extractLsb' 0 8]

theorem layout16_length (le : Bool) (v : BitVec 16) : (layout16 le v).length = 2 := by cases le <;> rfl

theorem layout32_length (le : Bool) (v : Word) : (layout32 le v).length = 4 := by cases le <;> rfl

theorem wordOfBytes_layout16 (le : Bool) (v : BitVec 16) : wordOfBytes le (layout16 le v) = v.setWidth 32 := by
  have hcut : v.extractLsb' 8 8 ++ v.extractLsb' 0 8 = v :=
    (BitVec.extractLsb'_append_extractLsb'_eq_extractLsb' rfl).trans BitVec.extractLsb'_eq_self
  cases le <;> exact (assemble16_eq_append ..).trans (congrArg (BitVec.setWidth 32) hcut)

theorem intOfBytes_layout32 (le : Bool) (v : Word) : intOfBytes le (layout32 le v) = v := by
  have hcut : v.extractLsb' 24 8 ++ v.extractLsb' 16 8 ++ v.extractLsb' 8 8 ++ v.extractLsb' 0 8 = v := by
    rw [BitVec.extractLsb'_append_extractLsb'_eq_extractLsb' (by rfl : 24 = 16 + 8),
      BitVec.extractLsb'_append_extractLsb'_eq_extractLsb' (by rfl : 16 = 8 + 8),
      BitVec.extractLsb'_append_extractLsb'_eq_extractLsb' (by rfl : 8 = 0 + 8), BitVec.extractLsb'_eq_self]
  cases le <;> exact (assemble32_eq_append ..).trans hcut

end Sys2Proof.Machine
end

section
/-! ## The escape filter over the bytes of the stream

`unescape` and `fetchFrom` say what a fetch does with a list of bytes. The machine's loops do the same on a stream that
holds these bytes, as long as the fetch ends among them or the buffer ends with them. -/

namespace Sys2Proof.Machine

variable {s : State} {b m d : Byte} {bs : List Byte} {rescan : Bool} {n k : Nat}

/-- The bytes D0 to D7 (R16). -/
abbrev Marker (m : Byte) : Prop := 0xD0 ≤ m.toNat ∧ m.toNat ≤ 0xD7

theorem isRestartMarker_iff : isRestartMarker m = true ↔ Marker m := by
  simp [isRestartMarker, BitVec.le_def]

theorem Marker.ne_ff (h : Marker m) : m ≠ 0xFF#8 := by
  rintro rfl
  exact absurd h.2 (by decide)

theorem Marker.ne_zero (h : Marker m) : m ≠ 0x00#8 := by
  rintro rfl
  exact absurd h.1 (by decide)

/-! ### The list function, case by case -/

theorem unescape_ff : unescape rescan (0xFF#8 :: bs) = (unescape rescan bs).after 1 := by
  cases bs <;> rfl

theorem unescape_zero : unescape rescan (0x00#8 :: bs) = (.ok 0xFF#8, 1) := by
  cases bs <;> rfl

theorem unescape_marker_end (hm : Marker m) : unescape rescan [m] = (.error .outOfBounds, 1) := by
  rw [unescape, if_neg hm.ne_ff, if_neg hm.ne_zero, if_pos hm]

theorem unescape_marker (hm : Marker m) : unescape rescan (m :: b :: bs) =
    if rescan && b == 0xFF#8 then (unescape rescan bs).after 2 else (.ok b, 2) := by
  rw [unescape, if_neg hm.ne_ff, if_neg hm.ne_zero, if_pos hm]

theorem unescape_invalid (hff : m ≠ 0xFF#8) (hz : m ≠ 0x00#8) (hm : ¬ Marker m) :
    unescape rescan (m :: bs) = (.error .invalidRead, 0) := by
  cases bs <;> rw [unescape, if_neg hff, if_neg hz, if_neg hm]

theorem Fetched.after_after (r : Fetched) (m n : Nat) : (r.after m).after n = r.after (m + n) := by
  rw [Fetched.after, Fetched.after, Fetched.after, Nat.add_assoc]

theorem Fetched.after_mk (k n : Nat) (e : Except Status Byte) : Fetched.after k (e, n) = (e, k + n) := by
  rw [Fetched.after, Nat.add_comm]

/-- A run of 0xFF bytes is skipped. -/
theorem unescape_run (k : Nat) :
    unescape rescan (List.replicate k 0xFF#8 ++ bs) = (unescape rescan bs).after k := by
  induction k with
  | zero => rfl
  | succ k ih => rw [List.replicate_succ, List.cons_append, unescape_ff, ih, Fetched.after_after]

/-! ### The rows of R174 -/

variable {ef : Bool}

theorem fetchFrom_byte (h : ef = false ∨ d ≠ 0xFF#8) : fetchFrom ef rescan (d :: bs) = (.ok d, 1) := by
  rw [fetchFrom, if_neg]
  rcases h with rfl | h
  · nofun
  · simp [h]

theorem fetchFrom_run (hef : ef = true) (k : Nat) :
    fetchFrom ef rescan (List.replicate (k + 1) 0xFF#8 ++ bs) = (unescape rescan bs).after (k + 1) := by
  rw [hef, List.replicate_succ, List.cons_append, fetchFrom, if_pos (by decide), unescape_run, Fetched.after_after]

theorem fetchFrom_run_zero (hef : ef = true) (k : Nat) :
    fetchFrom ef rescan (List.replicate (k + 1) 0xFF#8 ++ [0x00#8]) = (.ok 0xFF#8, k + 2) := by
  rw [fetchFrom_run hef, unescape_zero, Fetched.after_mk]

theorem fetchFrom_run_marker (hef : ef = true) (k : Nat) (hm : Marker m) (hd : d ≠ 0xFF#8 ∨ rescan = false) :
    fetchFrom ef rescan (List.replicate (k + 1) 0xFF#8 ++ [m, d]) = (.ok d, k + 3) := by
  have hstop : ¬ (rescan && d == 0xFF#8) = true := by
    rw [Bool.and_eq_true, beq_iff_eq]
    rintro ⟨hre, hff⟩
    exact hd.elim (fun h => h hff) fun h => by cases hre.symm.trans h
  rw [fetchFrom_run hef, unescape_marker hm, if_neg hstop, Fetched.after_mk]

/-- With RST_RESCAN a 0xFF after the marker starts a new sentinel. -/
theorem fetchFrom_marker_rescan (hef : ef = true) (hm : Marker m) :
    fetchFrom ef true (0xFF#8 :: m :: 0xFF#8 :: bs) = (unescape true bs).after 3 := by
  refine (fetchFrom_run hef 0).trans ?_
  rw [unescape_marker hm, if_pos (by decide), Fetched.after_after]

theorem fetchFrom_rescan_zero (hef : ef = true) (hre : rescan = true) (hm : Marker m) :
    fetchFrom ef rescan [0xFF#8, m, 0xFF#8, 0x00#8] = (.ok 0xFF#8, 4) := by
  rw [hre, fetchFrom_marker_rescan hef hm, unescape_zero, Fetched.after_mk]

theorem fetchFrom_rescan_marker {m' : Byte} (hef : ef = true) (hre : rescan = true) (hm : Marker m)
    (hm' : Marker m') (hd : d ≠ 0xFF#8) : fetchFrom ef rescan [0xFF#8, m, 0xFF#8, m', d] = (.ok d, 5) := by
  rw [hre, fetchFrom_marker_rescan hef hm, unescape_marker hm', if_neg (by simpa using hd), Fetched.after_mk]

theorem fetchFrom_run_invalid (hef : ef = true) (k : Nat) (hff : m ≠ 0xFF#8) (hz : m ≠ 0x00#8) (hm : ¬ Marker m) :
    fetchFrom ef rescan (List.replicate (k + 1) 0xFF#8 ++ [m]) = (.error .invalidRead, k + 1) := by
  rw [fetchFrom_run hef, unescape_invalid hff hz hm, Fetched.after_mk]

theorem fetchFrom_run_end (hef : ef = true) (k : Nat) :
    fetchFrom ef rescan (List.replicate (k + 1) 0xFF#8) = (.error .outOfBounds, k + 1) := by
  rw [← List.append_nil (List.replicate _ _), fetchFrom_run hef, unescape, Fetched.after_mk]

theorem fetchFrom_run_marker_end (hef : ef = true) (k : Nat) (hm : Marker m) :
    fetchFrom ef rescan (List.replicate (k + 1) 0xFF#8 ++ [m]) = (.error .outOfBounds, k + 2) := by
  rw [fetchFrom_run hef, unescape_marker_end hm, Fetched.after_mk]

theorem fetchFrom_rescan_end (hef : ef = true) (hre : rescan = true) (hm : Marker m) :
    fetchFrom ef rescan [0xFF#8, m, 0xFF#8] = (.error .outOfBounds, 3) := by
  rw [hre, fetchFrom_marker_rescan hef hm, unescape, Fetched.after_mk]

/-! ### The machine's loops -/

/-- What a fetch that ends as r leaves of a state: POS past the bytes consumed. -/
def Fetched.result (s : State) : Fetched → Res Byte
  | (.ok d, n) => .ok d (s.skip n)
  | (.error k, n) => .raise k (s.skip n)

theorem Fetched.result_after (r : Fetched) (n : Nat) (s : State) :
    (r.after n).result s = r.result (s.skip n) := by
  obtain ⟨_ | _, m⟩ := r <;> simp only [Fetched.after, Fetched.result, State.skip_skip, Nat.add_comm]

theorem State.Holds.length_le (h : s.Holds bs) : bs.length ≤ s.remaining := by
  cases hn : bs.length with
  | zero => exact Nat.zero_le _
  | succ n =>
    obtain ⟨hlt, _⟩ := h n (by omega)
    rw [State.remaining]
    omega

theorem State.Holds.remaining_eq (h : s.Holds (b :: bs)) : s.remaining = (s.skip 1).remaining + 1 :=
  (curRead_remaining (curRead_of_holds h)).symm

theorem curPeek_of_holds (h : s.Holds (b :: bs)) : curPeek s = .ok b s :=
  curPeek_byte h.head.1 h.head.2

/-- The run ends before a byte that is not 0xFF. -/
theorem skipRun_of_ne (h : s.Holds (m :: bs)) (hff : m ≠ 0xFF#8) : skipRun s.remaining s = .ok m s := by
  rw [h.remaining_eq, skipRun, Op.bind_ok (curPeek_of_holds h), if_neg hff, Op.pure_apply]

theorem skipRun_ff (h : s.Holds (0xFF#8 :: bs)) :
    skipRun s.remaining s = skipRun (s.skip 1).remaining (s.skip 1) := by
  rw [h.remaining_eq, skipRun, Op.bind_ok (curPeek_of_holds h), if_pos rfl, Op.bind_ok (curRead_of_holds h)]

/-- The outer loop goes on from where the inner one ends. -/
theorem resolveEscape_of_skipRun {s' : State} (h : skipRun s.remaining s = .ok m s') :
    resolveEscape (k + 1) s =
      (if m = 0x00#8 then Op.bind curRead fun _ => Op.pure 0xFF#8
      else if isRestartMarker m then
        Op.bind curRead fun _ => Op.bind curRead fun b s =>
          if s.config.rstRescan && decide (b = 0xFF#8) then resolveEscape k s else .ok b s
      else Op.fail .invalidRead) s' :=
  Op.bind_ok h

theorem resolveEscape_ff (h : s.Holds (0xFF#8 :: bs)) :
    resolveEscape (k + 1) s = resolveEscape (k + 1) (s.skip 1) := by
  simp only [resolveEscape, Op.bind, skipRun_ff h]

theorem resolveEscape_zero (h : s.Holds (0x00#8 :: bs)) :
    resolveEscape (k + 1) s = .ok 0xFF#8 (s.skip 1) := by
  rw [resolveEscape_of_skipRun (skipRun_of_ne h (by decide)), if_pos rfl, Op.bind_ok (curRead_of_holds h),
    Op.pure_apply]

theorem resolveEscape_invalid (h : s.Holds (m :: bs)) (hff : m ≠ 0xFF#8) (hz : m ≠ 0x00#8) (hm : ¬ Marker m) :
    resolveEscape (k + 1) s = .raise .invalidRead s := by
  rw [resolveEscape_of_skipRun (skipRun_of_ne h hff), if_neg hz, if_neg (isRestartMarker_iff.not.2 hm),
    Op.fail_apply]

/-- A restart marker is consumed, and then the byte after it. -/
theorem resolveEscape_marker (h : s.Holds (m :: bs)) (hm : Marker m) :
    resolveEscape (k + 1) s = Op.bind curRead
      (fun b s => if s.config.rstRescan && decide (b = 0xFF#8) then resolveEscape k s else .ok b s) (s.skip 1) := by
  rw [resolveEscape_of_skipRun (skipRun_of_ne h hm.ne_ff), if_neg hm.ne_zero, if_pos (isRestartMarker_iff.2 hm),
    Op.bind_ok (curRead_of_holds h)]

theorem resolveEscape_marker_end (h : s.Holds [m]) (hm : Marker m) (hend : s.len.toNat ≤ s.pos.toNat + 1) :
    resolveEscape (k + 1) s = .raise .outOfBounds (s.skip 1) := by
  rw [resolveEscape_marker h hm]
  exact Op.bind_raise (curRead_end (h.skip_one_pos ▸ hend))

theorem resolveEscape_marker_byte (h : s.Holds (m :: b :: bs)) (hm : Marker m) :
    resolveEscape (k + 1) s =
      if s.config.rstRescan && b == 0xFF#8 then resolveEscape k (s.skip 2) else .ok b (s.skip 2) := by
  rw [resolveEscape_marker h hm, Op.bind_ok (curRead_of_holds h.tail), State.skip_skip]
  rfl

theorem resolveEscape_end (hend : s.len.toNat ≤ s.pos.toNat) : resolveEscape k s = .raise .outOfBounds s := by
  have hrem : s.remaining = 0 := Nat.sub_eq_zero_of_le hend
  cases k with
  | zero => rfl
  | succ k => exact Op.bind_raise (by rw [hrem, skipRun, Op.fail_apply])

/-- The bytes settle a fetch that ends as r: it does not run out of them, or they reach the end of the buffer. -/
abbrev State.Settles (s : State) (bs : List Byte) (r : Fetched) : Prop :=
  r.1 ≠ .error .outOfBounds ∨ s.len.toNat ≤ s.pos.toNat + bs.length

theorem State.Settles.tail {r : Fetched} (hs : s.Settles (b :: bs) r) (h : s.Holds (b :: bs)) :
    (s.skip 1).Settles bs r := by
  rw [State.Settles, h.skip_one_pos, Nat.add_assoc, Nat.add_comm 1]
  exact hs

/-- The outer loop of FetchDataByte is `unescape`, by induction on the number of bytes (R171). -/
theorem resolveEscape_of_holds (h : s.Holds bs) (hs : s.Settles bs (unescape s.config.rstRescan bs))
    (hk : bs.length ≤ k) : resolveEscape k s = (unescape s.config.rstRescan bs).result s := by
  induction hn : bs.length using Nat.strong_induction_on generalizing s bs k with
  | _ n ih =>
  subst hn
  cases bs with
  | nil =>
    have hend : s.len.toNat ≤ s.pos.toNat := hs.resolve_left (not_not.2 rfl)
    rw [resolveEscape_end hend, unescape, Fetched.result, State.skip_zero]
  | cons m bs =>
    obtain ⟨k, rfl⟩ := Nat.exists_eq_succ_of_ne_zero (Nat.ne_zero_of_lt hk)
    rw [List.length_cons] at hk
    by_cases hff : m = 0xFF#8
    · subst hff
      rw [unescape_ff] at hs ⊢
      rw [Fetched.result_after, resolveEscape_ff h]
      exact ih bs.length (Nat.lt_succ_self _) h.tail (hs.tail h) (Nat.le_of_succ_le hk) rfl
    by_cases hz : m = 0x00#8
    · subst hz
      rw [unescape_zero, resolveEscape_zero h, Fetched.result]
    by_cases hm : Marker m
    · cases bs with
      | nil =>
        rw [unescape_marker_end hm] at hs ⊢
        rw [resolveEscape_marker_end h hm (hs.resolve_left (not_not.2 rfl)), Fetched.result]
      | cons b bs =>
        rw [unescape_marker hm] at hs ⊢
        rw [resolveEscape_marker_byte h hm]
        by_cases hre : (s.config.rstRescan && b == 0xFF#8) = true
        · rw [if_pos hre] at hs
          rw [if_pos hre, if_pos hre, Fetched.result_after]
          have hholds : (s.skip 2).Holds bs := s.skip_skip 1 1 ▸ h.tail.tail
          have hsettles : (s.skip 2).Settles bs (unescape s.config.rstRescan bs) :=
            s.skip_skip 1 1 ▸ (hs.tail h).tail h.tail
          rw [List.length_cons] at hk
          exact ih bs.length (by simp) hholds hsettles (by omega) rfl
        · rw [if_neg hre, if_neg hre, Fetched.result]
    · rw [resolveEscape_invalid h hff hz hm, unescape_invalid hff hz hm, Fetched.result, State.skip_zero]

/-! ### The fetch -/

/-- The data byte established: CURBYTE is written (R172 point 4). -/
def Fetched.fetched (s : State) : Fetched → Res Unit
  | (.ok d, n) => .ok () { s.skip n with curbyte := d.setWidth 32 }
  | (.error k, n) => .raise k (s.skip n)

theorem fetchDataByte_end (hend : s.len.toNat ≤ s.pos.toNat) : fetchDataByte s = .raise .invalidRead s :=
  Op.require_false (by rw [(atEnd_iff s).2 hend]; rfl)

/-- FetchDataByte before the end of the buffer: the byte at POS goes through the filter. -/
theorem fetchDataByte_of_holds (h : s.Holds (b :: bs)) :
    fetchDataByte s = Op.bind (dataByte b) (fun d => Op.modify fun s => { s with curbyte := d.setWidth 32 })
      (s.skip 1) := by
  have hbefore : (!s.atEnd) = true := by rw [(atEnd_false_iff s).2 h.head.1]; rfl
  rw [fetchDataByte, Op.require_true hbefore, Op.bind_ok (curRead_of_holds h)]

/-- The data byte is written once the filter has given it. -/
theorem fetched_of_result {x : Op Byte} {r : Fetched} {s' : State} (h : x s' = r.result s) :
    Op.bind x (fun d => Op.modify fun s => { s with curbyte := d.setWidth 32 }) s' = r.fetched s := by
  obtain ⟨k | d, n⟩ := r
  · exact Op.bind_raise h
  · exact Op.bind_ok h

theorem dataByte_escaped (h : (s.ef && b == 0xFF#8) = true) : dataByte b s = resolveEscape s.remaining s :=
  if_pos h

theorem dataByte_plain (h : ¬ (s.ef && b == 0xFF#8) = true) : dataByte b s = .ok b s :=
  if_neg h

/-- The bytes settle a fetch: there is one, and the fetch does not run out of them, or they reach the end of the
buffer. -/
abbrev State.SettlesFetch (s : State) (bs : List Byte) : Prop :=
  bs ≠ [] ∧ (fetchFrom s.ef s.config.rstRescan bs).1 ≠ .error .outOfBounds ∨ s.len.toNat ≤ s.pos.toNat + bs.length

/-- FetchDataByte is `fetchFrom` (R171). -/
theorem fetchDataByte_eq (h : s.Holds bs) (hs : s.SettlesFetch bs) :
    fetchDataByte s = (fetchFrom s.ef s.config.rstRescan bs).fetched s := by
  cases bs with
  | nil =>
    rw [fetchDataByte_end (hs.resolve_left fun hs => hs.1 rfl), fetchFrom, Fetched.fetched, State.skip_zero]
  | cons b bs =>
    replace hs : s.Settles (b :: bs) (fetchFrom s.ef s.config.rstRescan (b :: bs)) := hs.imp_left And.right
    rw [fetchDataByte_of_holds h]
    refine fetched_of_result ?_
    rw [fetchFrom] at hs ⊢
    by_cases hff : (s.ef && b == 0xFF#8) = true
    · rw [if_pos hff] at hs ⊢
      rw [dataByte_escaped (s := s.skip 1) hff, Fetched.result_after]
      exact resolveEscape_of_holds h.tail (hs.tail h) h.tail.length_le
    · rw [if_neg hff, dataByte_plain (s := s.skip 1) hff, Fetched.result]

/-! ### RDBIT at a byte boundary -/

theorem setWidth_byte (d : Byte) : (d.setWidth 32 : Word).setWidth 8 = d := by
  rw [BitVec.setWidth_setWidth_of_le _ (by decide), BitVec.setWidth_eq]

theorem selectBit_eq (rb : Bool) (c : Word) (k : BitVec 3) :
    selectBit rb c k = orderedBit rb (c.setWidth 8) k.toNat := by
  have hk := k.isLt
  have hlow : ∀ j, j < 8 → (c.setWidth 8).getLsbD j = c.getLsbD j := fun j hj => by simp [hj]
  rw [selectBit, orderedBit, hlow _ hk, hlow _ (by omega)]

/-- What a bit read at a byte boundary leaves when its fetch ends as r (R173, R256). -/
def Fetched.bit (s : State) : Fetched → Res Bool
  | (.ok d, n) => .ok (orderedBit s.rb d 0) (s.afterFetch n d)
  | (.error k, n) => .raise k (s.skip n)

theorem readBit_eq (hz : s.bitoff = 0) (h : s.Holds bs) (hs : s.SettlesFetch bs) :
    readBit s = (fetchFrom s.ef s.config.rstRescan bs).bit s := by
  rw [readBit_fetch hz, fetchDataByte_eq h hs]
  obtain ⟨k | d, n⟩ := fetchFrom s.ef s.config.rstRescan bs
  · rfl
  · have hfirst : selectBit s.rb (d.setWidth 32) s.bitoff = orderedBit s.rb d 0 := by
      rw [selectBit_eq, setWidth_byte, hz]
      rfl
    have hbit : s.bitoff + 1 = 1 := by rw [hz]; rfl
    rw [Fetched.bit, ← hfirst]
    exact congrArg (fun o => Res.ok _ { s.skip n with curbyte := d.setWidth 32, bitoff := o }) hbit

/-- What an RDBIT at a byte boundary leaves when its fetch ends as r (R173, R175, R256). -/
def Fetched.rdbit (s : State) : Fetched → State
  | (.ok d, n) => (s.afterFetch n d).answered (some (firstBit s.rb d))
  | (.error k, n) => (s.skip n).failed k

theorem exec_rdbit_fetch (ho : s.openf = true) (hz : s.bitoff = 0) (h : s.Holds bs) (hs : s.SettlesFetch bs) :
    exec .rdbit s = .next ((fetchFrom s.ef s.config.rstRescan bs).rdbit s) := by
  have hread := readBit_eq hz h hs
  rcases hf : fetchFrom s.ef s.config.rstRescan bs with ⟨k | d, n⟩ <;> rw [hf] at hread
  · exact exec_of_body_raise rfl ho (Op.bind_raise hread)
  · exact exec_of_body_ok rfl ho (Op.bind_ok hread)

theorem exec_rdbit_fetch_ok (ho : s.openf = true) (hz : s.bitoff = 0) (h : s.Holds (b :: bs))
    (hd : fetchFrom s.ef s.config.rstRescan (b :: bs) = (.ok d, n)) :
    exec .rdbit s = .next ((s.afterFetch n d).answered (some (firstBit s.rb d))) := by
  rw [exec_rdbit_fetch ho hz h (.inl ⟨nofun, by rw [hd]; nofun⟩), hd, Fetched.rdbit]

/-- A fetch that fails before the bytes end. -/
theorem exec_rdbit_fetch_refused {e : Status} (ho : s.openf = true) (hz : s.bitoff = 0) (h : s.Holds (b :: bs))
    (hf : fetchFrom s.ef s.config.rstRescan (b :: bs) = (.error e, n)) (he : e ≠ .outOfBounds) :
    exec .rdbit s = .next ((s.skip n).failed e) := by
  have hs : s.SettlesFetch (b :: bs) := .inl ⟨nofun, by rw [hf]; exact fun hc => he (Except.error.inj hc)⟩
  rw [exec_rdbit_fetch ho hz h hs, hf, Fetched.rdbit]

/-- A fetch that fails having consumed the buffer to its end. -/
theorem exec_rdbit_fetch_end {e : Status} (ho : s.openf = true) (hz : s.bitoff = 0) (h : s.Holds bs)
    (hlen : bs.length = n) (hend : s.len.toNat = s.pos.toNat + n)
    (he : fetchFrom s.ef s.config.rstRescan bs = (.error e, n)) :
    exec .rdbit s = .next (({ s with pos := s.len } : State).failed e) := by
  rw [exec_rdbit_fetch ho hz h (.inr (hlen ▸ hend.le)), he, Fetched.rdbit, State.skip_to_len hend]

end Sys2Proof.Machine
end

section
/-! ## What a command that completes has done

The tests and the body, read off the next state: from the response one can tell how the body ended. -/

namespace Sys2Proof.Machine

variable {i : Instr} {s s' t : State} {rs : List Response}

theorem ok_not_mem_mayRaise (i : Instr) : Status.ok ∉ i.mayRaise := by
  cases i <;> simp [Instr.mayRaise]

/-- Everything a command that completes can have done (R241, R255). -/
theorem exec_cases (h : exec i s = .next t) :
    (i.operandsInRange s.config = false ∧ t = s.failed .invalidArgs) ∨
    (i.stateReady s = false ∧ t = s.failed .badState) ∨
    (∃ r s', execBody i s = .ok r s' ∧ t = s'.answered r) ∨
    ∃ k s', execBody i s = .raise k s' ∧ k ≠ .ok ∧ t = s'.failed k := by
  cases hargs : i.operandsInRange s.config with
  | false =>
    rw [exec_of_operands_out hargs] at h
    cases h
    exact .inl ⟨rfl, rfl⟩
  | true =>
    cases hready : i.stateReady s with
    | false =>
      rw [exec_of_not_ready hargs hready] at h
      cases h
      exact .inr (.inl ⟨rfl, rfl⟩)
    | true =>
      rw [exec_of_ready hargs hready] at h
      rcases complete_cases (execBody i) s with ⟨r, s', hb, e⟩ | ⟨k, s', hb, e⟩ | ⟨f, _, e⟩ <;> rw [e] at h <;>
        cases h
      · exact .inr (.inr (.inl ⟨r, s', hb, rfl⟩))
      · obtain ⟨hmem, _⟩ := execBody_raises i s k s' hb
        have hk : k ≠ .ok := fun hk => ok_not_mem_mayRaise i (hk ▸ hmem)
        exact .inr (.inr (.inr ⟨k, s', hb, hk, rfl⟩))

/-- The status of the last response given. -/
abbrev State.lastStatus (s : State) : Option Status := s.responses.getLast?.map Response.status

theorem State.answered_lastStatus (s : State) (r : Option Word) : (s.answered r).lastStatus = some .ok := by
  rw [State.lastStatus, State.answered_responses, List.getLast?_concat]
  rfl

theorem State.failed_lastStatus (s : State) (k : Status) : (s.failed k).lastStatus = some k := by
  rw [State.lastStatus, State.failed_responses, List.getLast?_concat]
  rfl

/-- A command that answers OK has run its body to its end. -/
theorem exec_ok_cases (h : exec i s = .next t) (hok : t.lastStatus = some .ok) :
    ∃ r s', execBody i s = .ok r s' ∧ t = s'.answered r := by
  rcases exec_cases h with ⟨_, rfl⟩ | ⟨_, rfl⟩ | hdone | ⟨k, s', _, hk, rfl⟩
  · rw [State.failed_lastStatus] at hok
    cases hok
  · rw [State.failed_lastStatus] at hok
    cases hok
  · exact hdone
  · rw [State.failed_lastStatus] at hok
    exact absurd (Option.some.inj hok) hk

theorem exec_ok_inv {r : Option Word} (h : exec i s = .next t) (hr : t.responses = rs ++ [⟨.ok, r⟩]) :
    ∃ s', execBody i s = .ok r s' ∧ t = s'.answered r := by
  obtain ⟨r', s', hbody, rfl⟩ := exec_ok_cases h (by rw [State.lastStatus, hr, List.getLast?_concat]; rfl)
  cases last_response_eq hr.symm
  exact ⟨s', hbody, rfl⟩

end Sys2Proof.Machine
end

section
/-! ## The packing of RDBITS (R71, R176) -/

namespace Sys2Proof.Machine

theorem lsbFirst_testBit (bits : List Bool) (k : Nat) : (lsbFirst bits).testBit k = bits.getD k false := by
  induction bits generalizing k with
  | nil => exact Nat.zero_testBit k
  | cons b bs ih =>
    have hbit : lsbFirst (b :: bs) = Nat.bit b (lsbFirst bs) := by rw [Nat.bit_val, Nat.add_comm]; rfl
    rw [hbit]
    cases k with
    | zero => exact Nat.testBit_bit_zero b _
    | succ k => exact (Nat.testBit_bit_succ k b _).trans (ih k)

theorem lsbFirst_append (xs ys : List Bool) :
    lsbFirst (xs ++ ys) = lsbFirst xs ||| lsbFirst ys <<< xs.length := by
  refine Nat.eq_of_testBit_eq fun k => ?_
  rw [Nat.testBit_or, Nat.testBit_shiftLeft, lsbFirst_testBit, lsbFirst_testBit, lsbFirst_testBit]
  rcases Nat.lt_or_ge k xs.length with hk | hk
  · rw [List.getD_append _ _ _ _ hk, decide_eq_false (Nat.not_le.2 hk), Bool.false_and, Bool.or_false]
  · rw [List.getD_append_right _ _ _ _ hk, List.getD_eq_default _ _ hk, decide_eq_true hk, Bool.true_and,
      Bool.false_or]

theorem ofNat_shiftLeft (x n : Nat) : BitVec.ofNat 32 (x <<< n) = BitVec.ofNat 32 x <<< n := by
  apply BitVec.eq_of_toNat_eq
  simp only [BitVec.toNat_ofNat, BitVec.toNat_shiftLeft, Nat.shiftLeft_eq, Nat.mod_mul_mod]

theorem msbFirst_append (xs ys : List Bool) :
    msbFirst (xs ++ ys) = msbFirst xs <<< ys.length ||| msbFirst ys := by
  rw [msbFirst, List.reverse_append, lsbFirst_append, List.length_reverse, Nat.or_comm, msbFirst, msbFirst]

theorem packedBits_true (bits : List Bool) : packedBits true bits = BitVec.ofNat 32 (lsbFirst bits) := rfl

theorem packedBits_false (bits : List Bool) : packedBits false bits = BitVec.ofNat 32 (msbFirst bits) := rfl

theorem packedBits_nil (rb : Bool) : packedBits rb [] = 0 := by cases rb <;> rfl

/-- How the values of two reads in a row combine (R176). -/
theorem packedBits_append (rb : Bool) (xs ys : List Bool) :
    packedBits rb (xs ++ ys) =
      if rb then packedBits rb xs ||| (packedBits rb ys <<< xs.length)
      else (packedBits rb xs <<< ys.length) ||| packedBits rb ys := by
  cases rb with
  | true => simp only [packedBits_true, lsbFirst_append, BitVec.ofNat_or, ofNat_shiftLeft, if_true]
  | false =>
    rw [if_neg nofun]
    simp only [packedBits_false, msbFirst_append, BitVec.ofNat_or, ofNat_shiftLeft]

/-- The loop of RDBITS packs bit by bit. -/
theorem packedBits_concat (rb : Bool) (bits : List Bool) (b : Bool) :
    packedBits rb (bits ++ [b]) = packBit rb bits.length (packedBits rb bits) b := by
  have hb : packedBits rb [b] = bitWord b := by cases rb <;> cases b <;> rfl
  rw [packedBits_append, hb, packBit, List.length_singleton]

end Sys2Proof.Machine
end

section
/-! ## Reads do not look at the responses

A run of RDBITs collects a response per bit, a RDBITS one in all: otherwise the states are the same. -/

namespace Sys2Proof.Machine

variable {α β : Type}

/-- The same state with other responses given. -/
def State.withResponses (s : State) (rs : List Response) : State := { s with responses := rs }

@[simp] theorem State.withResponses_buf (s : State) (rs : List Response) : (s.withResponses rs).buf = s.buf := rfl

/-- The same result in a state with other responses given. -/
def Res.withResponses (rs : List Response) : Res α → Res α
  | .ok v s => .ok v (s.withResponses rs)
  | .raise k s => .raise k (s.withResponses rs)
  | .stop f => .stop f

/-- The primitive does the same whatever responses the state holds, and keeps them. -/
def Op.IgnoresResponses (x : Op α) : Prop := ∀ s rs, x (s.withResponses rs) = (x s).withResponses rs

theorem Op.pure_ignores (v : α) : (Op.pure v).IgnoresResponses := fun _ _ => rfl

theorem Op.fail_ignores (k : Status) : (Op.fail k : Op α).IgnoresResponses := fun _ _ => rfl

theorem Op.bind_ignores {x : Op α} {f : α → Op β} (hx : x.IgnoresResponses) (hf : ∀ v, (f v).IgnoresResponses) :
    (Op.bind x f).IgnoresResponses := by
  intro s rs
  have h := hx s rs
  cases hs : x s <;> rw [hs] at h
  case ok v s1 => rw [Op.bind_ok hs, Op.bind_ok h, hf v s1 rs]
  case raise k s1 => rw [Op.bind_raise hs, Op.bind_raise h]; rfl
  case stop f => rw [Op.bind_stop hs, Op.bind_stop h]; rfl

theorem Op.require_ignores {c : State → Bool} {k : Status} {x : Op α} (hc : ∀ s rs, c (s.withResponses rs) = c s)
    (hx : x.IgnoresResponses) : (Op.require c k x).IgnoresResponses := by
  intro s rs
  rw [Op.require, hc]
  cases hs : c s with
  | true => rw [Op.require_true hs, if_pos rfl, hx s rs]
  | false => rw [Op.require_false hs, if_neg nofun]; rfl

/-- A branch on what the responses do not change. -/
theorem Op.ite_ignores {p : State → Prop} [∀ s, Decidable (p s)] {x y : Op α}
    (hp : ∀ s rs, p (s.withResponses rs) ↔ p s) (hx : x.IgnoresResponses) (hy : y.IgnoresResponses) :
    Op.IgnoresResponses fun s => if p s then x s else y s := by
  intro s rs
  by_cases h : p s
  · simp only [if_pos h, if_pos ((hp s rs).2 h), hx s rs]
  · simp only [if_neg h, if_neg (mt (hp s rs).1 h), hy s rs]

theorem memRead_ignores (a : Nat) : (memRead a).IgnoresResponses := by
  intro s rs
  simp only [memRead, State.withResponses_buf]
  cases s.buf.read a <;> rfl

theorem curPeek_ignores : curPeek.IgnoresResponses :=
  Op.require_ignores (fun _ _ => rfl) fun s rs => memRead_ignores s.pos.toNat s rs

theorem curRead_ignores : curRead.IgnoresResponses :=
  Op.bind_ignores curPeek_ignores fun _ _ _ => rfl

theorem skipRun_ignores (k : Nat) : (skipRun k).IgnoresResponses := by
  induction k with
  | zero => exact Op.fail_ignores _
  | succ k ih =>
    refine Op.bind_ignores curPeek_ignores fun m => ?_
    split
    · exact Op.bind_ignores curRead_ignores fun _ => ih
    · exact Op.pure_ignores m

theorem resolveEscape_ignores (k : Nat) : (resolveEscape k).IgnoresResponses := by
  induction k with
  | zero => exact Op.fail_ignores _
  | succ k ih =>
    refine Op.bind_ignores (fun s rs => skipRun_ignores s.remaining s rs) fun m => ?_
    split
    · exact Op.bind_ignores curRead_ignores fun _ => Op.pure_ignores _
    split
    · exact Op.bind_ignores curRead_ignores fun _ => Op.bind_ignores curRead_ignores fun b =>
        Op.ite_ignores (fun _ _ => Iff.rfl) ih (Op.pure_ignores b)
    · exact Op.fail_ignores _

theorem dataByte_ignores (b : Byte) : (dataByte b).IgnoresResponses :=
  Op.ite_ignores (fun _ _ => Iff.rfl) (fun s rs => resolveEscape_ignores s.remaining s rs) (Op.pure_ignores b)

theorem fetchDataByte_ignores : fetchDataByte.IgnoresResponses :=
  Op.require_ignores (fun _ _ => rfl) <| Op.bind_ignores curRead_ignores fun b =>
    Op.bind_ignores (dataByte_ignores b) fun _ _ _ => rfl

theorem readBit_ignores : readBit.IgnoresResponses :=
  Op.bind_ignores (Op.ite_ignores (fun _ _ => Iff.rfl) fetchDataByte_ignores (Op.pure_ignores ()))
    fun _ _ _ => rfl

end Sys2Proof.Machine
end

section
/-! ## Bit reads one after another -/

namespace Sys2Proof.Machine

variable {s s' t u : State} {b : Bool} {bits : List Bool} {n : Nat} {k : Status}

/-- Bit reads that all succeed, with the bits they give. -/
inductive BitRun : State → List Bool → State → Prop
  | nil (s : State) : BitRun s [] s
  | cons {s s1 s' : State} {b : Bool} {bits : List Bool} (read : readBit s = .ok b s1) (rest : BitRun s1 bits s') :
    BitRun s (b :: bits) s'

theorem BitRun.append {bits' : List Bool} (h : BitRun s bits t) (h' : BitRun t bits' u) :
    BitRun s (bits ++ bits') u := by
  induction h with
  | nil => exact h'
  | cons read _ ih => exact .cons read (ih h')

theorem BitRun.concat (h : BitRun s bits t) (hread : readBit t = .ok b u) : BitRun s (bits ++ [b]) u :=
  h.append (.cons hread (.nil u))

theorem readBit_frame (h : readBit s = .ok b s') :
    s' = { s with pos := s'.pos, bitoff := s'.bitoff, curbyte := s'.curbyte } :=
  ((readBit_streamStep s).1 _ _ h).frame

theorem readBit_rb (h : readBit s = .ok b s') : s'.rb = s.rb := by rw [readBit_frame h]; rfl

theorem BitRun.frame (h : BitRun s bits s') :
    s' = { s with pos := s'.pos, bitoff := s'.bitoff, curbyte := s'.curbyte } := by
  induction h with
  | nil => rfl
  | cons read _ ih =>
    have hframe := readBit_frame read
    rw [hframe] at ih
    exact ih

theorem BitRun.openf_eq (h : BitRun s bits s') : s'.openf = s.openf := by rw [h.frame]

theorem BitRun.rb_eq (h : BitRun s bits s') : s'.rb = s.rb := by rw [h.frame]; rfl

theorem BitRun.responses_eq (h : BitRun s bits s') : s'.responses = s.responses := by rw [h.frame]

theorem BitRun.withResponses (h : BitRun s bits s') (rs : List Response) :
    BitRun (s.withResponses rs) bits (s'.withResponses rs) := by
  induction h with
  | nil s => exact .nil _
  | @cons s _ _ _ _ read _ ih => exact .cons (by rw [readBit_ignores s rs, read]; rfl) ih

/-- The loop of RDBITS over bits that can be read. -/
theorem readBits_of_bitRun (h : BitRun s bits s') (pre : List Bool) (n : Nat) :
    readBits pre.length (packedBits s.rb pre) (bits.length + n) s =
      readBits (pre ++ bits).length (packedBits s.rb (pre ++ bits)) n s' := by
  induction h generalizing pre with
  | nil s => rw [List.append_nil, List.length_nil, Nat.zero_add]
  | @cons s s1 s' b bits read rest ih =>
    have hstep : readBits pre.length (packedBits s.rb pre) (bits.length + n + 1) s =
        readBits (pre ++ [b]).length (packedBits s1.rb (pre ++ [b])) (bits.length + n) s1 := by
      rw [readBits, Op.bind_ok read, packedBits_concat, readBit_rb read, List.length_append]
      rfl
    rw [List.length_cons, Nat.add_right_comm, hstep, ih (pre ++ [b]), readBit_rb read, List.append_assoc]
    rfl

/-- The whole loop over bits that can be read. -/
theorem readBits_start (h : BitRun s bits s') (n : Nat) :
    readBits 0 0 (bits.length + n) s = readBits bits.length (packedBits s.rb bits) n s' := by
  rw [← packedBits_nil s.rb]
  exact readBits_of_bitRun h [] n

/-- A run of the loop that succeeds reads its bits one by one. -/
theorem bitRun_of_readBits (n : Nat) {pre : List Bool} {v : Word}
    (h : readBits pre.length (packedBits s.rb pre) n s = .ok v s') :
    ∃ bits, bits.length = n ∧ BitRun s bits s' ∧ v = packedBits s.rb (pre ++ bits) := by
  induction n generalizing s pre with
  | zero =>
    cases h
    exact ⟨[], rfl, .nil _, by rw [List.append_nil]⟩
  | succ n ih =>
    obtain ⟨b, s1, read, h⟩ := Op.bind_eq_ok h
    have hpack : packBit s1.rb pre.length (packedBits s.rb pre) b = packedBits s1.rb (pre ++ [b]) := by
      rw [packedBits_concat, readBit_rb read]
    have hlen : pre.length + 1 = (pre ++ [b]).length := by rw [List.length_append]; rfl
    simp only [hpack, hlen] at h
    obtain ⟨bits, hbits, hrun, hv⟩ := ih h
    refine ⟨b :: bits, congrArg Nat.succ hbits, .cons read hrun, ?_⟩
    rw [hv, readBit_rb read, List.append_assoc]
    rfl

/-! ### RDBITS -/

theorem rdbits_operandsInRange (c : Config) (hn : n ≤ 32) : (Instr.rdbits n).operandsInRange c = true :=
  decide_eq_true hn

theorem exec_rdbits_of_bitRun (ho : s.openf = true) (hn : bits.length ≤ 32) (h : BitRun s bits s') :
    exec (.rdbits bits.length) s = .next (s'.answered (some (packedBits s.rb bits))) := by
  refine exec_of_body_ok (rdbits_operandsInRange _ hn) ho (Op.bind_ok ?_)
  exact readBits_start h 0

/-- A bit that cannot be read ends RDBITS; the bits before it stay consumed (R176, R256). -/
theorem exec_rdbits_of_raise (ho : s.openf = true) (hlt : bits.length < n) (hn : n ≤ 32) (h : BitRun s bits s')
    (hread : readBit s' = .raise k t) : exec (.rdbits n) s = .next (t.failed k) := by
  refine exec_of_body_raise (rdbits_operandsInRange _ hn) ho (Op.bind_raise ?_)
  obtain ⟨m, rfl⟩ := Nat.exists_eq_add_of_lt hlt
  exact (readBits_start h (m + 1)).trans (Op.bind_raise hread)

/-- An RDBITS that answers with a value has read its bits. -/
theorem bitRun_of_exec_rdbits {rs : List Response} {v : Word} (h : exec (.rdbits n) s = .next t)
    (hr : t.responses = rs ++ [⟨.ok, some v⟩]) :
    ∃ bits s', bits.length = n ∧ BitRun s bits s' ∧ v = packedBits s.rb bits ∧ t = s'.answered (some v) := by
  obtain ⟨s', hbody, rfl⟩ := exec_ok_inv h hr
  obtain ⟨v', s1, hread, hret⟩ := Op.bind_eq_ok hbody
  cases hret
  obtain ⟨bits, hlen, hrun, hv⟩ := bitRun_of_readBits (pre := []) n (packedBits_nil s.rb ▸ hread)
  exact ⟨bits, s', hlen, hrun, hv, rfl⟩

/-! ### RDBIT -/

/-- An RDBIT that answers OK has read a bit. -/
theorem readBit_of_exec_rdbit {rs : List Response} {r : Option Word} (h : exec .rdbit s = .next t)
    (hr : t.responses = rs ++ [⟨.ok, r⟩]) :
    ∃ b s', readBit s = .ok b s' ∧ r = some (bitWord b) ∧ t = s'.answered r := by
  obtain ⟨s', hbody, rfl⟩ := exec_ok_inv h hr
  obtain ⟨b, s1, hread, hret⟩ := Op.bind_eq_ok hbody
  cases hret
  exact ⟨b, s', hread, rfl, rfl⟩

/-- An RDBIT on an open stream that fails delivers the fault of the bit read. -/
theorem readBit_of_exec_rdbit_fault {rs : List Response} (ho : s.openf = true) (h : exec .rdbit s = .next t)
    (hk : k ≠ .ok) (hr : t.responses = rs ++ [⟨k, none⟩]) : ∃ s', readBit s = .raise k s' ∧ t = s'.failed k := by
  rcases exec_cases h with ⟨hargs, _⟩ | ⟨hready, _⟩ | ⟨r, s', _, rfl⟩ | ⟨k', s', hbody, _, rfl⟩
  · cases hargs
  · cases ho.symm.trans hready
  · cases last_response_eq hr.symm
    exact absurd rfl hk
  · cases last_response_eq hr.symm
    rcases Op.bind_eq_raise hbody with hread | ⟨_, _, _, hret⟩
    · exact ⟨s', hread, rfl⟩
    · cases hret

theorem runInstrs_append_inv {is js : List Instr} (h : runInstrs (is ++ js) s = .next u) :
    ∃ t, runInstrs is s = .next t ∧ runInstrs js t = .next u := by
  induction is generalizing s with
  | nil => exact ⟨s, rfl, h⟩
  | cons i is ih =>
    rw [List.cons_append, runInstrs] at h
    cases hi : exec i s with
    | next t =>
      rw [hi] at h
      obtain ⟨w, hw, hu⟩ := ih h
      exact ⟨w, (runInstrs_cons hi).trans hw, hu⟩
    | fault | refused => rw [hi] at h; cases h

theorem runInstrs_singleton {i : Instr} (h : runInstrs [i] s = .next t) : exec i s = .next t := by
  cases hi : exec i s <;> simp only [runInstrs, hi] at h
  · exact h
  · cases h
  · cases h

theorem bitWord_inj {b b' : Bool} : bitWord b = bitWord b' ↔ b = b' := by
  cases b <;> cases b' <;> decide

/-- RDBITs that all answer with a bit have read these bits, from the last one back. -/
theorem bitRun_of_rdbits (h : runInstrs (List.replicate bits.length .rdbit) s = .next u)
    (hr : u.responses = s.responses ++ bits.map (fun b => ⟨.ok, some (bitWord b)⟩)) :
    BitRun s bits (u.withResponses s.responses) := by
  induction bits using List.reverseRecOn generalizing u with
  | nil =>
    cases h
    exact .nil s
  | append_singleton bits b ih =>
    rw [List.length_append, List.length_singleton, List.replicate_succ'] at h
    rw [List.map_append, ← List.append_assoc] at hr
    obtain ⟨t, ht, hu⟩ := runInstrs_append_inv h
    obtain ⟨b', s', hread, hb, rfl⟩ := readBit_of_exec_rdbit (runInstrs_singleton hu) hr
    obtain rfl := bitWord_inj.1 (Option.some.inj hb)
    have hresp : t.responses = s'.responses := by rw [readBit_frame hread]
    have hrun := ih ht (hresp.trans (List.append_inj_left' hr rfl))
    exact hrun.concat (by rw [readBit_ignores, hread]; rfl)

end Sys2Proof.Machine
end

section
/-! ## Bit reads with the escape filter off

`State.afterPlainBits` goes on bit by bit: inside a byte only BITOFF moves, at a byte boundary the next byte is
fetched. -/

namespace Sys2Proof.Machine

variable {s : State} {b : Bool} {d : Byte} {n : Nat}

theorem State.bytesFetched_zero (s : State) : s.bytesFetched 0 = 0 := by
  have hlt := s.bitoff.isLt
  unfold State.bytesFetched
  split
  · next hz => rw [hz]; rfl
  · omega

@[simp] theorem State.afterPlainBits_zero (s : State) : s.afterPlainBits 0 = s := by
  rw [State.afterPlainBits, s.bytesFetched_zero, if_pos rfl, BitVec.add_zero, BitVec.add_zero]

theorem bitoff_pos (h : s.bitoff ≠ 0) : 0 < s.bitoff.toNat :=
  Nat.pos_of_ne_zero fun h0 => h (BitVec.eq_of_toNat_eq h0)

theorem State.bytesFetched_succ_inside (h : (s.bitoff.toNat + n) % 8 ≠ 0) :
    s.bytesFetched (n + 1) = s.bytesFetched n := by
  unfold State.bytesFetched
  omega

theorem State.bytesFetched_succ_boundary (h : (s.bitoff.toNat + n) % 8 = 0) :
    s.bytesFetched (n + 1) = s.bytesFetched n + 1 := by
  unfold State.bytesFetched
  split
  · omega
  · next hz =>
    have := bitoff_pos hz
    omega

theorem State.afterPlainBits_bitoff_toNat (s : State) (n : Nat) :
    (s.afterPlainBits n).bitoff.toNat = (s.bitoff.toNat + n) % 8 := by
  rw [State.afterPlainBits_bitoff, BitVec.toNat_add, BitVec.toNat_ofNat, Nat.add_mod_mod]

theorem State.afterPlainBits_bitoff_eq_zero_iff :
    (s.afterPlainBits n).bitoff = 0 ↔ (s.bitoff.toNat + n) % 8 = 0 := by
  rw [← BitVec.toNat_inj, State.afterPlainBits_bitoff_toNat]
  rfl

theorem State.afterPlainBits_bitoff_succ (s : State) (n : Nat) :
    (s.afterPlainBits (n + 1)).bitoff = (s.afterPlainBits n).bitoff + 1 := by
  rw [State.afterPlainBits_bitoff, State.afterPlainBits_bitoff, BitVec.ofNat_add, BitVec.add_assoc]
  rfl

theorem State.afterPlainBits_succ_inside (h : (s.bitoff.toNat + n) % 8 ≠ 0) :
    s.afterPlainBits (n + 1) = { s.afterPlainBits n with bitoff := (s.afterPlainBits n).bitoff + 1 } := by
  rw [← State.afterPlainBits_bitoff_succ]
  simp only [State.afterPlainBits, State.bytesFetched_succ_inside h]

theorem State.afterPlainBits_curbyte_unfetched (h : s.bytesFetched n = 0) :
    (s.afterPlainBits n).curbyte = s.curbyte :=
  if_pos h

theorem State.afterPlainBits_curbyte_fetched {m : Nat} (h : s.bytesFetched n = m + 1)
    (hd : s.buf.read (s.pos.toNat + m) = some d) : (s.afterPlainBits n).curbyte = d.setWidth 32 := by
  have hcur : (s.afterPlainBits n).curbyte = if s.bytesFetched n = 0 then s.curbyte
      else ((s.buf.read (s.pos.toNat + s.bytesFetched n - 1)).getD 0).setWidth 32 := rfl
  rw [hcur, h, if_neg (Nat.succ_ne_zero m), ← Nat.add_assoc, Nat.add_sub_cancel, hd, Option.getD_some]

theorem State.afterPlainBits_succ_boundary (h : (s.bitoff.toNat + n) % 8 = 0)
    (hd : s.buf.read (s.pos.toNat + s.bytesFetched n) = some d) :
    s.afterPlainBits (n + 1) = (s.afterPlainBits n).afterFetch 1 d := by
  have hfetched := State.bytesFetched_succ_boundary h
  have hbit : (s.afterPlainBits (n + 1)).bitoff = 1 := by
    rw [State.afterPlainBits_bitoff_succ, State.afterPlainBits_bitoff_eq_zero_iff.2 h]
    rfl
  have hpos : (s.afterPlainBits (n + 1)).pos = (s.afterPlainBits n).pos + BitVec.ofNat 32 1 := by
    rw [State.afterPlainBits_pos, State.afterPlainBits_pos, hfetched, BitVec.ofNat_add, BitVec.add_assoc]
  rw [State.afterFetch, ← hbit, ← hpos, ← State.afterPlainBits_curbyte_fetched hfetched hd]
  rfl

/-- A bit to come is one left in CURBYTE, before any fetch, or one of a byte from POS on. -/
theorem State.plainBit_cases (hb : s.plainBit n = some b) :
    (s.bitoff ≠ 0 ∧ s.bitoff.toNat + n < 8 ∧
      b = orderedBit s.rb (s.curbyte.setWidth 8) ((s.bitoff.toNat + n) % 8)) ∨
    ∃ m d, m + (if s.bitoff = 0 then 0 else 1) = (s.bitoff.toNat + n) / 8 ∧ s.pos.toNat + m < s.len.toNat ∧
      s.buf.read (s.pos.toNat + m) = some d ∧ b = orderedBit s.rb d ((s.bitoff.toNat + n) % 8) := by
  simp only [State.plainBit] at hb
  by_cases hleft : (s.bitoff.toNat + n) / 8 < if s.bitoff = 0 then 0 else 1
  · rw [if_pos hleft] at hb
    have hz : s.bitoff ≠ 0 := fun hz => by
      rw [if_pos hz] at hleft
      cases hleft
    rw [if_neg hz] at hleft
    cases hb
    exact .inl ⟨hz, by omega, rfl⟩
  · rw [if_neg hleft, Option.ite_none_right_eq_some, Option.map_eq_some_iff] at hb
    obtain ⟨hlt, d, hd, rfl⟩ := hb
    exact .inr ⟨_, d, Nat.sub_add_cancel (Nat.not_lt.1 hleft), hlt, hd, rfl⟩

/-- At a byte boundary the next bit is the first of the byte at POS. -/
theorem State.plainBit_boundary (h : (s.bitoff.toNat + n) % 8 = 0) (hb : s.plainBit n = some b) :
    s.pos.toNat + s.bytesFetched n < s.len.toNat ∧
      ∃ d, s.buf.read (s.pos.toNat + s.bytesFetched n) = some d ∧ b = orderedBit s.rb d 0 := by
  rcases State.plainBit_cases hb with ⟨hz, hlt, _⟩ | ⟨m, d, hm, hlt, hd, rfl⟩
  · have := bitoff_pos hz
    omega
  · have hfetched : s.bytesFetched n = m := by
      unfold State.bytesFetched
      omega
    rw [hfetched, h]
    exact ⟨hlt, d, hd, rfl⟩

/-- Inside a byte the next bit is one of CURBYTE. -/
theorem State.plainBit_inside (h : (s.bitoff.toNat + n) % 8 ≠ 0) (hb : s.plainBit n = some b) :
    b = orderedBit s.rb ((s.afterPlainBits n).curbyte.setWidth 8) ((s.bitoff.toNat + n) % 8) := by
  rcases State.plainBit_cases hb with ⟨hz, hlt, rfl⟩ | ⟨m, d, hm, hlt, hd, rfl⟩
  · have hfetched : s.bytesFetched n = 0 := by
      rw [State.bytesFetched, if_neg hz]
      omega
    rw [State.afterPlainBits_curbyte_unfetched hfetched]
  · have hfetched : s.bytesFetched n = m + 1 := by
      unfold State.bytesFetched
      omega
    rw [State.afterPlainBits_curbyte_fetched hfetched hd, setWidth_byte]

theorem State.afterPlainBits_pos_toNat (h : s.pos.toNat + s.bytesFetched n ≤ s.len.toNat) :
    (s.afterPlainBits n).pos.toNat = s.pos.toNat + s.bytesFetched n :=
  State.skip_pos_toNat h

/-- The bit that comes after n bits is the one that is read (R173). -/
theorem readBit_afterPlainBits (hef : s.ef = false) (hb : s.plainBit n = some b) :
    readBit (s.afterPlainBits n) = .ok b (s.afterPlainBits (n + 1)) := by
  by_cases h : (s.bitoff.toNat + n) % 8 = 0
  · obtain ⟨hlt, d, hd, rfl⟩ := State.plainBit_boundary h hb
    have hpos := State.afterPlainBits_pos_toNat hlt.le
    have hholds : (s.afterPlainBits n).Holds [d] := fun i hi => by
      obtain rfl := Nat.lt_one_iff.1 hi
      rw [hpos]
      exact ⟨hlt, hd⟩
    have hfetch : fetchFrom (s.afterPlainBits n).ef (s.afterPlainBits n).config.rstRescan [d] = (.ok d, 1) :=
      fetchFrom_byte (.inl hef)
    have hsettles : (s.afterPlainBits n).SettlesFetch [d] := .inl ⟨nofun, by rw [hfetch]; nofun⟩
    rw [readBit_eq (State.afterPlainBits_bitoff_eq_zero_iff.2 h) hholds hsettles, hfetch,
      State.afterPlainBits_succ_boundary h hd]
    rfl
  · rw [readBit_inside (mt State.afterPlainBits_bitoff_eq_zero_iff.1 h), selectBit_eq,
      State.afterPlainBits_bitoff_toNat, State.afterPlainBits_succ_inside h, State.plainBit_inside h hb]
    rfl

theorem State.HoldsBits.of_concat {bits : List Bool} (h : s.HoldsBits (bits ++ [b])) :
    s.HoldsBits bits ∧ s.plainBit bits.length = some b := by
  have hlen : (bits ++ [b]).length = bits.length + 1 := List.length_append
  refine ⟨fun j hj => ?_, ?_⟩
  · rw [h j (by omega), List.getElem?_append_left hj]
  · rw [h _ (by omega), List.getElem?_concat_length]

/-- The bits a stream holds next are those that are read. -/
theorem bitRun_of_holdsBits {bits : List Bool} (hef : s.ef = false) (h : s.HoldsBits bits) :
    BitRun s bits (s.afterPlainBits bits.length) := by
  induction bits using List.reverseRecOn with
  | nil => rw [List.length_nil, State.afterPlainBits_zero]; exact .nil s
  | append_singleton bits b ih =>
    obtain ⟨hpre, hlast⟩ := h.of_concat
    rw [List.length_append]
    exact (ih hpre).concat (readBit_afterPlainBits hef hlast)

/-- POS does not wrap while the stream holds the bits that are read. -/
theorem State.HoldsBits.pos_toNat {bits : List Bool} (h : s.HoldsBits bits) :
    (s.afterPlainBits bits.length).pos.toNat = s.pos.toNat + s.bytesFetched bits.length := by
  induction bits using List.reverseRecOn with
  | nil => rw [List.length_nil, State.afterPlainBits_zero, State.bytesFetched_zero, Nat.add_zero]
  | append_singleton bits b ih =>
    obtain ⟨hpre, hlast⟩ := h.of_concat
    rw [List.length_append, List.length_singleton]
    by_cases hb : (s.bitoff.toNat + bits.length) % 8 = 0
    · obtain ⟨hlt, _⟩ := State.plainBit_boundary hb hlast
      exact State.afterPlainBits_pos_toNat (by rw [State.bytesFetched_succ_boundary hb]; exact hlt)
    · rw [State.afterPlainBits_succ_inside hb, State.bytesFetched_succ_inside hb]
      exact ih hpre

/-- At the end of the buffer a bit read at a byte boundary fails (R174). -/
theorem readBit_end (hz : s.bitoff = 0) (hend : s.len.toNat ≤ s.pos.toNat) :
    readBit s = .raise .invalidRead s := by
  rw [readBit_fetch hz, fetchDataByte_end hend]

/-- At a byte boundary the bits to come are those of the bytes from POS on. -/
theorem State.plainBit_of_bitoff_zero {j : Nat} (hz : s.bitoff = 0) (hlt : s.pos.toNat + j / 8 < s.len.toNat)
    (hd : s.buf.read (s.pos.toNat + j / 8) = some d) : s.plainBit j = some (orderedBit s.rb d (j % 8)) := by
  simp [State.plainBit, hz, hlt, hd]

/-! ### A value in the stream's bit order (R179) -/

/-- The n low bits of a value in the order in which a stream holds them (R71). -/
def streamBits (rb : Bool) (n : Nat) (v : Word) : List Bool :=
  if rb then (List.range n).map v.getLsbD else ((List.range n).map v.getLsbD).reverse

theorem streamBits_length (rb : Bool) (n : Nat) (v : Word) : (streamBits rb n v).length = n := by
  cases rb <;> simp [streamBits]

theorem streamBits_getElem? (rb : Bool) {n j : Nat} (v : Word) (hj : j < n) :
    (streamBits rb n v)[j]? = some (if rb then v.getLsbD j else v.getLsbD (n - 1 - j)) := by
  cases rb with
  | true => simp [streamBits, hj]
  | false =>
    rw [streamBits, if_neg nofun, List.getElem?_reverse (by simpa using hj)]
    simp [show n - 1 - j < n by omega]

theorem lsbFirst_of_value {v : Word} (hv : v.toNat < 2 ^ n) : lsbFirst ((List.range n).map v.getLsbD) = v.toNat := by
  refine Nat.eq_of_testBit_eq fun k => ?_
  rw [lsbFirst_testBit]
  rcases Nat.lt_or_ge k n with hk | hk
  · simp [List.getD, hk, BitVec.getLsbD]
  · rw [List.getD_eq_default _ _ (by simpa using hk)]
    exact (Nat.testBit_lt_two_pow (lt_of_lt_of_le hv (Nat.pow_le_pow_right Nat.two_pos hk))).symm

/-- RDBITS packs the bits of a value back into the value. -/
theorem packedBits_streamBits (rb : Bool) {v : Word} (hv : v.toNat < 2 ^ n) :
    packedBits rb (streamBits rb n v) = v := by
  have hlsb : BitVec.ofNat 32 (lsbFirst ((List.range n).map v.getLsbD)) = v := by
    rw [lsbFirst_of_value hv, BitVec.ofNat_toNat, BitVec.setWidth_eq]
  cases rb with
  | true => exact hlsb
  | false =>
    refine Eq.trans ?_ hlsb
    rw [packedBits, if_neg nofun, msbFirst, streamBits, if_neg nofun, List.reverse_reverse]

end Sys2Proof.Machine
end

section
/-! ## HASMORE, ALIGN, and what commands do to BITOFF (R178) -/

namespace Sys2Proof.Machine

variable {s s' t : State} {b : Bool} {k : Status}

/-- A bit read at a byte boundary that succeeds has fetched. -/
theorem fetchDataByte_of_readBit_ok (hz : s.bitoff = 0) (h : readBit s = .ok b s') :
    ∃ s1, fetchDataByte s = .ok () s1 ∧ s' = { s1 with bitoff := s1.bitoff + 1 } := by
  rw [readBit_fetch hz] at h
  cases hf : fetchDataByte s <;> rw [hf] at h <;> cases h
  exact ⟨_, rfl, rfl⟩

theorem readBit_bitoff (h : readBit s = .ok b s') : s'.bitoff = s.bitoff + 1 := by
  by_cases hz : s.bitoff = 0
  · obtain ⟨s1, hf, rfl⟩ := fetchDataByte_of_readBit_ok hz h
    obtain ⟨hframe, _⟩ := fetchDataByte_ok hf
    rw [hframe]
  · rw [readBit_inside hz] at h
    cases h
    rfl

/-- A bit read that fails has failed to fetch, and moves POS at most. -/
theorem readBit_raise (h : readBit s = .raise k s') : PosStep s s' := by
  by_cases hz : s.bitoff = 0
  · rw [readBit_fetch hz] at h
    cases hf : fetchDataByte s <;> rw [hf] at h <;> cases h
    exact fetchDataByte_raise hf
  · rw [readBit_inside hz] at h
    cases h

theorem rdbit_bitoff_of_ok (h : exec .rdbit s = .next t) (hok : t.lastStatus = some .ok) :
    t.bitoff = s.bitoff + 1 := by
  obtain ⟨r, s', hbody, rfl⟩ := exec_ok_cases h hok
  obtain ⟨b, s1, hread, hret⟩ := Op.bind_eq_ok hbody
  cases hret
  have hbit := readBit_bitoff hread
  exact hbit

theorem rdbit_bitoff_of_fault (h : exec .rdbit s = .next t) (hfault : t.lastStatus ≠ some .ok) :
    t.bitoff = s.bitoff := by
  rcases exec_cases h with ⟨_, rfl⟩ | ⟨_, rfl⟩ | ⟨r, s', _, rfl⟩ | ⟨k, s', hbody, _, rfl⟩
  · rfl
  · rfl
  · exact absurd (s'.answered_lastStatus r) hfault
  · rcases Op.bind_eq_raise hbody with hread | ⟨_, _, _, hret⟩
    · rw [State.failed_bitoff, (readBit_raise hread).onlyPos]
    · cases hret

theorem exec_hasmore_open (ho : s.openf = true) :
    exec .hasmore s = .next (s.answered (some (bitWord (decide (s.pos ≠ s.len - 1))))) :=
  exec_of_body_ok rfl ho rfl

theorem exec_align_open (ho : s.openf = true) :
    exec .align s = .next (({ s with bitoff := 0 } : State).answered none) :=
  exec_of_body_ok rfl ho rfl

theorem readBytes_posStep {α : Type} (n : Nat) :
    ∀ {f : List Byte → Op α}, (∀ bs, Op.Ensures PosStep (f bs)) → Op.Ensures PosStep (readBytes n f) := by
  induction n with
  | zero => exact fun hf => hf []
  | succ n ih => exact fun hf => Op.ensures_bind PosStep.trans curRead_posStep fun b => ih fun bs => hf (b :: bs)

/-- A byte-aligned read leaves BITOFF at 0, failing or not (R161 to R163). -/
theorem ReadsBytes.bitoff_eq_zero {i : Instr} {n : Nat} {value : Bool → List Byte → Word}
    (hi : ReadsBytes i n value) (ho : s.openf = true) (h : exec i s = .next t) : t.bitoff = 0 := by
  obtain ⟨hargs, hready, hbody⟩ := hi
  rw [exec_of_ready (hargs _) ((hready s).trans ho)] at h
  obtain ⟨s', hleaves, hcompletes⟩ := complete_next h
  have hmoves : Op.Ensures PosStep (readBytes n fun bs s => .ok (some (value s.le bs)) s) :=
    readBytes_posStep n fun bs s => Op.ensures_pure PosStep.refl (some (value s.le bs)) s
  rw [hbody] at hleaves
  have hmoved : PosStep { s with bitoff := 0 } s' := hmoves.of_leaves hleaves
  rw [hcompletes.frame, hmoved.onlyPos]

/-- OPEN and CLOSE write BITOFF to 0 when they succeed (R135, R136). -/
theorem setsStream_bitoff_eq_zero {i : Instr} (hi : i.setsStream = true) (h : exec i s = .next t)
    (hok : t.lastStatus = some .ok) : t.bitoff = 0 := by
  obtain ⟨r, s', hbody, rfl⟩ := exec_ok_cases h hok
  cases i with
  | openStream | close =>
    cases hbody
    rfl
  | _ => cases hi

end Sys2Proof.Machine
end

section
/-! ## The obligations of 41_bitreader -/

namespace Sys2Proof.BitReaderProofs

open Sys2Proof.Machine

/-- Settles O22: cutting a value into bytes and assembling them are inverse in either byte order. -/
theorem byteOrderRoundTrip : Obligations.ByteOrderRoundTrip := by
  unfold Obligations.ByteOrderRoundTrip
  intro s ho
  constructor
  · intro v (h : s.Holds (layout16 s.le v))
    have hread := ReadsBytes.exec_ok ((layout16_length s.le v).symm ▸ rdword_readsBytes) ho h
    rw [wordOfBytes_layout16] at hread
    exact ⟨_, hread, rfl⟩
  · intro v (h : s.Holds (layout32 s.le v))
    have hread := ReadsBytes.exec_ok ((layout32_length s.le v).symm ▸ rdint_readsBytes) ho h
    rw [intOfBytes_layout32] at hread
    exact ⟨_, hread, rfl⟩

/-- Settles O25: the machine's loops follow `fetchFrom` along the bytes left. -/
theorem rdbitFetchesThroughFilter : Obligations.RdbitFetchesThroughFilter := by
  unfold Obligations.RdbitFetchesThroughFilter
  intro s bs ho hz h hend
  rw [exec_rdbit_fetch ho hz h (.inr hend.le)]
  rcases fetchFrom s.ef s.config.rstRescan bs with ⟨_ | _, _⟩ <;> rfl

/-- Settles O26: each row is a value of `fetchFrom`. -/
theorem escapeSequencesResolved : Obligations.EscapeSequencesResolved := by
  unfold Obligations.EscapeSequencesResolved
  intro s k m d ho hz
  have hfirst : firstBit s.rb 0xFF#8 = 1 := by cases s.rb <;> rfl
  refine ⟨fun hd h => ?_, fun hef h => ?_, fun hef hm1 hm2 hd h => ?_, fun hef hm1 hm2 hre h => ?_,
    fun m' hef hm1 hm2 hm1' hm2' hre hd h => ?_⟩
  · exact exec_rdbit_fetch_ok ho hz h (fetchFrom_byte hd)
  · exact hfirst ▸ exec_rdbit_fetch_ok ho hz h (fetchFrom_run_zero hef k)
  · exact exec_rdbit_fetch_ok ho hz h (fetchFrom_run_marker hef k ⟨hm1, hm2⟩ hd)
  · exact hfirst ▸ exec_rdbit_fetch_ok ho hz h (fetchFrom_rescan_zero hef hre ⟨hm1, hm2⟩)
  · exact exec_rdbit_fetch_ok ho hz h (fetchFrom_rescan_marker hef hre ⟨hm1, hm2⟩ ⟨hm1', hm2'⟩ hd)

/-- Settles O27: each row is a value of `fetchFrom`, on bytes that reach LEN or end in one that is refused. -/
theorem escapeSequencesRefused : Obligations.EscapeSequencesRefused := by
  unfold Obligations.EscapeSequencesRefused
  intro s k m ho hz
  refine ⟨fun hend => ?_, fun hef h0 hff hm h => ?_, fun hef h hend => ?_, fun hef hm1 hm2 h hend => ?_,
    fun hef hm1 hm2 hre h hend => ?_⟩
  · rw [exec_rdbit_fetch (bs := []) ho hz nofun (.inr hend), fetchFrom, Fetched.rdbit, State.skip_zero]
  · exact exec_rdbit_fetch_refused ho hz h (fetchFrom_run_invalid hef k hff h0 (by omega)) nofun
  · exact exec_rdbit_fetch_end ho hz h List.length_replicate hend (fetchFrom_run_end hef k)
  · exact exec_rdbit_fetch_end ho hz h (by simp) hend (fetchFrom_run_marker_end hef k ⟨hm1, hm2⟩)
  · exact exec_rdbit_fetch_end ho hz h rfl hend (fetchFrom_rescan_end hef hre ⟨hm1, hm2⟩)

/-- Settles O28: the bits to come are read one by one. -/
theorem rdbitsReadsNextBits : Obligations.RdbitsReadsNextBits := by
  unfold Obligations.RdbitsReadsNextBits
  exact fun s bits ho hef hlen h => exec_rdbits_of_bitRun ho hlen (bitRun_of_holdsBits hef h)

/-- Settles O29: after the bits there are, the next read finds the end of the buffer at a byte boundary. -/
theorem rdbitsRunsOut : Obligations.RdbitsRunsOut := by
  unfold Obligations.RdbitsRunsOut
  intro s bits n ho hef hlt hn h hz hend
  exact exec_rdbits_of_raise ho hlt hn (bitRun_of_holdsBits hef h) (readBit_end hz (h.pos_toNat ▸ hend))

/-- Settles O30: both are runs of the same bit reads, which do not look at the responses. -/
theorem rdbitsIsRepeatedRdbit : Obligations.RdbitsIsRepeatedRdbit := by
  unfold Obligations.RdbitsIsRepeatedRdbit
  intro s u bits ho hlen hrun hr
  have hbits : BitRun s bits (u.withResponses s.responses) := bitRun_of_rdbits hrun hr
  refine ⟨exec_rdbits_of_bitRun ho hlen hbits, fun n v k hlt hn hk hv hvr => ?_⟩
  have hou : u.openf = true := hbits.openf_eq.trans ho
  obtain ⟨v', hread, rfl⟩ := readBit_of_exec_rdbit_fault hou hv hk hvr
  have hread' : readBit (u.withResponses s.responses) = .raise k (v'.withResponses s.responses) := by
    rw [readBit_ignores, hread]
    rfl
  exact exec_rdbits_of_raise ho hlt hn hbits hread'

/-- Settles O32: the bits of both reads make one run, and packing is compatible with appending. -/
theorem rdbitsSplits : Obligations.RdbitsSplits := by
  unfold Obligations.RdbitsSplits
  intro s t u a b x y ho hn ht htr hu hur
  obtain ⟨xs, s1, rfl, hxs, rfl, rfl⟩ := bitRun_of_exec_rdbits ht htr
  obtain ⟨ys, s2, rfl, hys, rfl, rfl⟩ := bitRun_of_exec_rdbits hu hur
  have hrb : (s1.answered (some (packedBits s.rb xs))).rb = s.rb := hxs.rb_eq
  have hrun := exec_rdbits_of_bitRun ho (by rwa [List.length_append]) (hxs.append (hys.withResponses s1.responses))
  rw [List.length_append, packedBits_append, hxs.responses_eq] at hrun
  rw [hrb]
  exact hrun

/-- Settles O33: the stream holds the value's bits in its own order, and packing them gives the value. -/
theorem bitOrderRoundTrip : Obligations.BitOrderRoundTrip := by
  unfold Obligations.BitOrderRoundTrip
  intro s n v ho hef hz hn hv h
  have hlen := streamBits_length s.rb n v
  have hholds : s.HoldsBits (streamBits s.rb n v) := by
    intro j hj
    rw [hlen] at hj
    obtain ⟨hlt, b, hb, hbit⟩ := h j hj
    rw [State.plainBit_of_bitoff_zero hz hlt hb, streamBits_getElem? s.rb v hj]
    congr 1
    unfold orderedBit
    split at hbit
    · next hrb => rw [if_pos hrb, if_pos hrb, hbit]
    · next hrb => rw [if_neg hrb, if_neg hrb, hbit]
  have hread := exec_rdbits_of_bitRun ho (hlen.trans_le hn) (bitRun_of_holdsBits hef hholds)
  rw [hlen, packedBits_streamBits s.rb hv] at hread
  exact ⟨_, hread, rfl⟩

/-- Settles O36: after ALIGN the bit read fetches. -/
theorem alignForcesFreshByte : Obligations.AlignForcesFreshByte := by
  unfold Obligations.AlignForcesFreshByte
  intro s t u v ho hs ht hr
  rw [exec_align_open ho] at hs
  cases hs
  obtain ⟨b, s', hread, _, rfl⟩ := readBit_of_exec_rdbit ht hr
  have hbit : s'.bitoff = 1 := readBit_bitoff hread
  obtain ⟨s1, hfetch, rfl⟩ := fetchDataByte_of_readBit_ok rfl hread
  obtain ⟨_, hlt, _, a, d, hle, hlt', hd, hcur⟩ := fetchDataByte_ok hfetch
  have hbyte : s1.curbyte.setWidth 8 = d := by rw [hcur, setWidth_byte]
  exact ⟨hlt, hbit, a, hle, hlt', hd.trans (congrArg some hbyte.symm)⟩

/-- Settles O57, command by command. -/
theorem bitOffsetStateMachine : Obligations.BitOffsetStateMachine := by
  unfold Obligations.BitOffsetStateMachine
  intro s t i h
  refine ⟨?_, ?_, ?_, fun hi hok => setsStream_bitoff_eq_zero hi h hok, fun hi => ?_⟩
  · rintro rfl _ hok
    exact rdbit_bitoff_of_ok h hok
  · rintro rfl hz hfault
    rw [rdbit_bitoff_of_fault h hfault, hz]
  · rintro (rfl | rfl | rfl | rfl) ho
    · rw [exec_align_open ho] at h
      cases h
      rfl
    · exact rdbyte_readsBytes.bitoff_eq_zero ho h
    · exact rdword_readsBytes.bitoff_eq_zero ho h
    · exact rdint_readsBytes.bitoff_eq_zero ho h
  · obtain ⟨s', he, hc⟩ := exec_effect h
    rw [hc.frame]
    exact he.bitoff_eq hi

/-- Settles O18: the body compares POS with LEN - 1. -/
theorem hasmoreCommand : Obligations.HasmoreCommand := by
  unfold Obligations.HasmoreCommand
  refine ⟨decodePacket_encode (i := .hasmore) rfl, fun s =>
    ⟨fun ho => exec_of_not_ready rfl ho, fun ho h => ?_, fun ho h => ?_⟩⟩
  · rw [exec_hasmore_open ho, decide_eq_true h, bitWord, if_pos rfl]
  · rw [exec_hasmore_open ho, decide_eq_false (not_not.2 h), bitWord, if_neg nofun]

/-- Settles O19: the cases of RDBYTE are those of the cursor. -/
theorem rdbyteCommand : Obligations.RdbyteCommand := by
  unfold Obligations.RdbyteCommand
  exact ⟨decodePacket_encode (i := .rdbyte) rfl, fun s =>
    ⟨rdbyte_readsBytes.exec_closed, exec_rdbyte_end, fun b ho h => exec_rdbyte_byte ho h.head.1 h.head.2⟩⟩

/-- Settles O20: the bytes that are there are consumed, and two of them make the value. -/
theorem rdwordCommand : Obligations.RdwordCommand := by
  unfold Obligations.RdwordCommand
  refine ⟨decodePacket_encode (i := .rdword) rfl, fun s =>
    ⟨rdword_readsBytes.exec_closed, fun ho hend => rdword_readsBytes.exec_end ho hend Nat.two_pos,
      fun b ho h hlen => rdword_readsBytes.exec_short ho h ?_ (Nat.lt_succ_self 1), fun b0 b1 ho h => ?_⟩⟩
  · rw [hlen, pos_succ_toNat h.head.1]
    rfl
  · exact assemble16_eq_ofNat s.le b0 b1 ▸ rdword_readsBytes.exec_ok ho h

/-- Settles O21: the bytes that are there are consumed, and four of them make the value. -/
theorem rdintCommand : Obligations.RdintCommand := by
  unfold Obligations.RdintCommand
  refine ⟨decodePacket_encode (i := .rdint) rfl, fun s =>
    ⟨rdint_readsBytes.exec_closed, fun bs hn ho h hend => rdint_readsBytes.exec_short ho h hend hn,
      fun b0 b1 b2 b3 ho h => ?_⟩⟩
  exact assemble32_eq_ofNat s.le b0 b1 b2 b3 ▸ rdint_readsBytes.exec_ok ho h

/-- Settles O24: inside a byte a bit read selects a bit of CURBYTE. -/
theorem rdbitInsideByte : Obligations.RdbitInsideByte := by
  unfold Obligations.RdbitInsideByte
  refine ⟨decodePacket_encode (i := .rdbit) rfl, fun s => ⟨fun ho => exec_of_not_ready rfl ho, fun ho hb => ?_⟩⟩
  have hread := readBit_inside hb
  rw [selectBit_eq] at hread
  exact exec_of_body_ok rfl ho (Op.bind_ok hread)

/-- Settles O31: the operand test, the state test, and a loop that reads nothing. -/
theorem rdbitsOperand : Obligations.RdbitsOperand := by
  unfold Obligations.RdbitsOperand
  refine ⟨fun n hn => ?_, fun s => ⟨fun n hn => ?_, fun n hn ho => ?_, fun ho => ?_⟩⟩
  · have hpacket : encode (.rdbits n) = [0x0C000000#32 ||| BitVec.ofNat 32 n] :=
      congrArg (fun w => [w]) (headWord_bitCount hn)
    rw [← hpacket]
    exact decodePacket_encode (decide_eq_true hn)
  · exact exec_of_operands_out (decide_eq_false (Nat.not_le.2 hn))
  · exact exec_of_not_ready (rdbits_operandsInRange _ hn) ho
  · exact exec_of_body_ok rfl ho rfl

/-- Settles O35: the body writes BITOFF and returns nothing. -/
theorem alignCommand : Obligations.AlignCommand := by
  unfold Obligations.AlignCommand
  exact ⟨decodePacket_encode (i := .align) rfl, fun _ => ⟨fun ho => exec_of_not_ready rfl ho, exec_align_open⟩⟩

end Sys2Proof.BitReaderProofs
end

section
/-! ## Tree slots and TREES (R31, R36) -/

namespace Sys2Proof.Machine

variable {s : State} {t k : Nat} {v : PTree}

theorem State.setTree_tree_same (h : t < s.trees.length) : (s.setTree t v).tree t = v := by
  simp [State.tree, List.getD, h]

theorem State.setTree_tree_other (h : k ≠ t) : (s.setTree t v).tree k = s.tree k := by
  simp [State.tree, List.getD, List.getElem?_set_ne h.symm]

/-- Bit k of TREES tells whether slot k is present (R36). -/
theorem presenceBits_getLsbD (ts : List PTree) (k : Nat) :
    (presenceBits ts).getLsbD k = (decide (k < 32) && (ts.getD k .nil).present) := by
  induction ts generalizing k with
  | nil => simp [presenceBits]
  | cons t ts ih =>
    have hbit : (if t.present then 1 else 0 : Word).getLsbD k = (decide (k = 0) && t.present) := by
      cases t.present <;> simp [BitVec.getLsbD_one]
    rw [presenceBits, BitVec.getLsbD_or, BitVec.getLsbD_shiftLeft, hbit]
    cases k with
    | zero => simp
    | succ k =>
      rw [Nat.add_sub_cancel, ih, List.getD_cons_succ]
      by_cases hk : k + 1 < 32
      · simp [hk, Nat.lt_of_succ_lt hk]
      · simp [hk]

theorem State.treesReg_getLsbD (s : State) (hk : k < 32) : s.treesReg.getLsbD k = (s.tree k).present := by
  rw [State.treesReg, presenceBits_getLsbD, decide_eq_true hk, Bool.true_and]
  rfl

theorem getLsbD_one_shiftLeft (hk : k < 32) : (1#32 <<< t).getLsbD k = decide (k = t) := by
  rw [← BitVec.twoPow_eq, BitVec.getLsbD_twoPow]
  by_cases h : k = t
  · simp [h, h ▸ hk]
  · simp [h, Ne.symm h]

/-- Filling a slot sets its bit of TREES. -/
theorem State.setTree_treesReg_of_present (h : t < s.trees.length) (hv : v.present = true) :
    (s.setTree t v).treesReg = s.treesReg ||| (1#32 <<< t) := by
  refine BitVec.eq_of_getLsbD_eq fun k hk => ?_
  rw [BitVec.getLsbD_or, State.treesReg_getLsbD _ hk, State.treesReg_getLsbD _ hk, getLsbD_one_shiftLeft hk]
  by_cases hkt : k = t
  · rw [hkt, State.setTree_tree_same h, hv, decide_eq_true rfl, Bool.or_true]
  · rw [State.setTree_tree_other hkt, decide_eq_false hkt, Bool.or_false]

/-- Emptying a slot clears its bit of TREES. -/
theorem State.setTree_nil_treesReg (h : t < s.trees.length) :
    (s.setTree t .nil).treesReg = s.treesReg &&& ~~~(1#32 <<< t) := by
  refine BitVec.eq_of_getLsbD_eq fun k hk => ?_
  rw [BitVec.getLsbD_and, BitVec.getLsbD_not, decide_eq_true hk, State.treesReg_getLsbD _ hk,
    State.treesReg_getLsbD _ hk, getLsbD_one_shiftLeft hk, Bool.true_and]
  by_cases hkt : k = t
  · rw [hkt, State.setTree_tree_same h, decide_eq_true rfl, Bool.not_true, Bool.and_false, PTree.present_nil]
  · rw [State.setTree_tree_other hkt, decide_eq_false hkt, Bool.not_false, Bool.and_true]

end Sys2Proof.Machine
end

section
/-! ## The tests of the tree commands (R205 to R208) -/

namespace Sys2Proof.Machine

variable {s : State} {t len : Nat} {cw sym : Word}

/-- A command whose packet is one word with the slot in its low bits decodes from that word (R95). -/
theorem decodePacket_slot {i : Instr} {op : BitVec 8} (ht : t < 16) (he : encode i = [headWord op (lowT t)])
    (hwf : i.wf = true) : decodePacket [(op.setWidth 32 <<< 24) ||| BitVec.ofNat 32 t] = .ok i := by
  rw [← headWord_lowT ht, ← he]
  exact decodePacket_encode hwf

theorem slot_present (hp : s.tree t ≠ .nil) : (s.tree t != .nil) = true := bne_iff_ne.2 hp

theorem slot_absent (hp : s.tree t = .nil) : (s.tree t != .nil) = false := by rw [hp]; rfl

theorem tinsert_operandsInRange_iff {c : Config} :
    (Instr.tinsert t len cw sym).operandsInRange c = true ↔
      t < c.nTrees ∧ 1 ≤ len ∧ len ≤ 32 ∧ sym.toNat < 2 ^ c.symW := by
  simp [Instr.operandsInRange, and_assoc]

theorem exec_tcreate_absent (ht : t < s.config.nTrees) (hp : s.tree t = .nil) :
    exec (.tcreate t) s = .next ((s.setTree t (PTree.fresh s.config.placeholder)).answered none) :=
  exec_of_body_ok (decide_eq_true ht) (beq_iff_eq.2 hp) rfl

theorem exec_tdestroy_present (ht : t < s.config.nTrees) (hp : s.tree t ≠ .nil) :
    exec (.tdestroy t) s = .next ((s.releaseTree t).answered none) :=
  exec_of_body_ok (decide_eq_true ht) (slot_present hp) rfl

/-- Releasing a tree gives back exactly its pool nodes: NODES does not wrap (R35, R207). -/
theorem State.Inv.releaseTree_nodes (h : s.Inv) (ht : t < s.config.nTrees) :
    (s.releaseTree t).nodes.toNat + ((s.tree t).count - 1) = s.nodes.toNat :=
  (congrArg (· + _) (h.releaseTree ht).nodesCounted).trans (h.poolTotal_set_tree .nil ht)

end Sys2Proof.Machine
end

section
/-! ## TINSERT (R206) -/

namespace Sys2Proof.Machine

variable {s : State} {t len : Nat} {cw sym : Word}

/-- The tree TINSERT leaves in its slot. -/
def State.insertedTree (s : State) (t len : Nat) (cw sym : Word) : PTree :=
  (insertWalk s.config sym (codewordBits cw len) (s.tree t) s.nodes).tree

theorem insertWalk_full_eq_false {c : Config} {bits : List Bool} {n : PTree} {nodes : Word}
    (hcap : c.nodeCap < 2 ^ 32) (hroom : nodes.toNat + n.missing bits bits.length ≤ c.nodeCap) :
    (insertWalk c sym bits n nodes).full = false := by
  obtain ⟨hfull, _⟩ := insertWalk_full_iff c sym hcap bits n nodes (by omega)
  exact Bool.eq_false_iff.2 fun h => Nat.not_lt.2 hroom (hfull.1 h)

/-- With room for the missing nodes TINSERT completes, and NODES counts the nodes created. -/
theorem exec_tinsert_room (hargs : (Instr.tinsert t len cw sym).operandsInRange s.config = true)
    (hp : s.tree t ≠ .nil) (hcap : s.config.nodeCap < 2 ^ 32)
    (hroom : s.nodes.toNat + (s.tree t).missing (codewordBits cw len) len ≤ s.config.nodeCap) :
    exec (.tinsert t len cw sym) s = .next
      (({ s with
          trees := s.trees.set t (s.insertedTree t len cw sym)
          nodes := s.nodes + BitVec.ofNat 32 ((s.tree t).missing (codewordBits cw len) len) } : State).answered
        none) := by
  obtain ⟨hfull, hnodes⟩ :=
    insertWalk_full_iff s.config sym hcap (codewordBits cw len) (s.tree t) s.nodes (by omega)
  rw [codewordBits_length] at hfull hnodes
  rw [if_neg (by omega)] at hnodes
  refine exec_of_body_ok hargs (slot_present hp) ?_
  rw [execBody, insertBody, if_neg fun hf => Nat.not_lt.2 hroom (hfull.1 hf), hnodes]
  rfl

/-- Without room TINSERT fails, and NODES has reached NODE_CAP (R256). -/
theorem exec_tinsert_full (hargs : (Instr.tinsert t len cw sym).operandsInRange s.config = true)
    (hp : s.tree t ≠ .nil) (hcap : s.config.nodeCap < 2 ^ 32) (hle : s.nodes.toNat ≤ s.config.nodeCap)
    (hover : s.config.nodeCap < s.nodes.toNat + (s.tree t).missing (codewordBits cw len) len) :
    exec (.tinsert t len cw sym) s = .next
      (({ s with
          trees := s.trees.set t (s.insertedTree t len cw sym)
          nodes := BitVec.ofNat 32 s.config.nodeCap } : State).failed .allocationFailure) := by
  obtain ⟨hfull, hnodes⟩ := insertWalk_full_iff s.config sym hcap (codewordBits cw len) (s.tree t) s.nodes hle
  rw [codewordBits_length] at hfull hnodes
  rw [if_pos hover] at hnodes
  refine exec_of_body_raise hargs (slot_present hp) ?_
  rw [execBody, insertBody, if_pos (hfull.2 hover), hnodes]
  rfl

/-! ### Other paths, and the end of the codeword's own -/

/-- Neither path begins with the other (R201). -/
def Apart (p q : List Bool) : Prop := ¬ p <+: q ∧ ¬ q <+: p

theorem Apart.symm {p q : List Bool} (h : Apart p q) : Apart q p := And.symm h

theorem not_apart_nil {p : List Bool} : ¬ Apart p [] := fun h => h.2 List.nil_prefix

theorem apart_cons_self {b : Bool} {p q : List Bool} : Apart (b :: p) (b :: q) ↔ Apart p q := by
  simp only [Apart, List.cons_prefix_cons, true_and]

/-- A path that leads to a node leads from one. -/
theorem PTree.ne_nil_of_walk {n : PTree} {p : List Bool} (h : n.walk p ≠ .nil) : n ≠ .nil := by
  rintro rfl
  exact h (PTree.walk_nil p)

/-- Nothing hangs below a fresh node. -/
theorem PTree.child_walk_fresh (ph : Word) (p : List Bool) (b : Bool) : ((PTree.fresh ph).walk p).child b = .nil := by
  cases p <;> simp

/-- The walk leaves what any path apart from the codeword's reaches, pool full or not. -/
theorem insertWalk_walk_apart {c : Config} {sym : Word} {bits : List Bool} {n : PTree} {nodes : Word}
    (hn : n.present = true) {p : List Bool} (h : Apart p bits) :
    (insertWalk c sym bits n nodes).tree.walk p = n.walk p := by
  induction bits generalizing n nodes p with
  | nil => exact absurd h not_apart_nil
  | cons b bs ih =>
    cases p with
    | nil => exact absurd h.symm not_apart_nil
    | cons d ps =>
      cases hp : (n.child b).present with
      | true =>
        rw [insertWalk_step c sym hp, PTree.walk_cons, PTree.walk_cons]
        by_cases hd : d = b
        · subst hd
          rw [PTree.child_setChild_same _ _ hn, ih hp (apart_cons_self.1 h)]
        · rw [PTree.child_setChild_other _ _ hd]
      | false =>
        by_cases hc : nodes.toNat = c.nodeCap
        · rw [insertWalk_full c sym hp hc]
        rw [insertWalk_create c sym hp hc, PTree.walk_cons, PTree.walk_cons]
        by_cases hd : d = b
        · subst hd
          have hps := apart_cons_self.1 h
          rw [PTree.child_setChild_same _ _ hn, ih rfl hps, PTree.absent_iff.1 hp]
          cases ps with
          | nil => exact absurd hps.symm not_apart_nil
          | cons e es => rw [PTree.walk_cons, PTree.child_fresh, PTree.walk_cons, PTree.child_nil]
        · rw [PTree.child_setChild_other _ _ hd]

/-- Where nothing hangs below the codeword's end, the walk leaves a childless node with the symbol there. -/
theorem insertWalk_walk_end {c : Config} {sym : Word} {bits : List Bool} {n : PTree} {nodes : Word}
    (hn : n.present = true) (hfull : (insertWalk c sym bits n nodes).full = false)
    (hleaf : ∀ b, (n.walk bits).child b = .nil) :
    (insertWalk c sym bits n nodes).tree.walk bits = .node sym .nil .nil := by
  induction bits generalizing n nodes with
  | nil =>
    cases n with
    | nil => cases hn
    | node v z o =>
      obtain rfl : z = .nil := hleaf false
      obtain rfl : o = .nil := hleaf true
      rfl
  | cons b bs ih =>
    cases hp : (n.child b).present with
    | true =>
      rw [insertWalk_step c sym hp] at hfull ⊢
      rw [PTree.walk_cons, PTree.child_setChild_same _ _ hn]
      exact ih hp hfull hleaf
    | false =>
      by_cases hc : nodes.toNat = c.nodeCap
      · rw [insertWalk_full c sym hp hc] at hfull
        cases hfull
      rw [insertWalk_create c sym hp hc] at hfull ⊢
      rw [PTree.walk_cons, PTree.child_setChild_same _ _ hn]
      exact ih rfl hfull (PTree.child_walk_fresh _ bs)

end Sys2Proof.Machine
end

section
/-! ## A code inserted word by word (R200, R201, R206) -/

namespace Sys2Proof.Machine

/-- Length, codeword and symbol of one TINSERT. -/
abbrev CodeEntry := Nat × Word × Word

/-- The path TINSERT walks for the entry. -/
def CodeEntry.path (e : CodeEntry) : List Bool := codewordBits e.2.1 e.1

/-- The TINSERT of the entry. -/
def CodeEntry.insert (t : Nat) (e : CodeEntry) : Instr := .tinsert t e.1 e.2.1 e.2.2

/-- The slot, the pool and the tree are ready for the entries to be inserted: nothing hangs below the end of any
of their paths. -/
structure State.TakesCode (s : State) (t : Nat) (code : List CodeEntry) : Prop where
  slot : t < s.config.nTrees
  slots : s.trees.length = s.config.nTrees
  cap : s.config.nodeCap < 2 ^ 32
  present : s.tree t ≠ .nil
  operands : ∀ e ∈ code, 1 ≤ e.1 ∧ e.1 ≤ 32 ∧ e.2.2.toNat < 2 ^ s.config.symW
  apart : code.Pairwise fun e f => Apart e.path f.path
  room : s.nodes.toNat + (code.map fun e => e.1).sum ≤ s.config.nodeCap
  leaves : ∀ e ∈ code, ∀ b, ((s.tree t).walk e.path).child b = .nil

/-- The entry has been inserted, and the tree is unchanged along the paths apart from it. -/
structure Inserted (t : Nat) (e : CodeEntry) (s s' : State) : Prop where
  answered : s'.responses = s.responses ++ [⟨.ok, none⟩]
  own : (s'.tree t).walk e.path = .node e.2.2 .nil .nil
  others : ∀ p, Apart p e.path → (s'.tree t).walk p = (s.tree t).walk p

variable {s : State} {t : Nat} {e : CodeEntry} {code : List CodeEntry}

theorem State.TakesCode.room_first (h : s.TakesCode t (e :: code)) :
    s.nodes.toNat + (s.tree t).missing e.path e.1 ≤ s.config.nodeCap := by
  have hroom := h.room
  have hmissing := (s.tree t).missing_le e.path e.1
  rw [List.map_cons, List.sum_cons] at hroom
  omega

theorem State.TakesCode.room_rest (h : s.TakesCode t (e :: code)) :
    (s.nodes + BitVec.ofNat 32 ((s.tree t).missing e.path e.1)).toNat + (code.map fun e => e.1).sum ≤
      s.config.nodeCap := by
  have hcap := h.cap
  have hroom := h.room
  have hmissing := (s.tree t).missing_le e.path e.1
  rw [List.map_cons, List.sum_cons] at hroom
  rw [BitVec.toNat_add, BitVec.toNat_ofNat]
  omega

/-- One insertion, after which the slot is ready for the entries that follow. -/
theorem exec_insert_entry (h : s.TakesCode t (e :: code)) :
    ∃ s', exec (e.insert t) s = .next s' ∧ Inserted t e s s' ∧ s'.TakesCode t code := by
  obtain ⟨hlen, hlen32, hsym⟩ := h.operands e List.mem_cons_self
  obtain ⟨hfirst, hrest⟩ := List.pairwise_cons.1 h.apart
  have hp : (s.tree t).present = true := PTree.present_iff.2 h.present
  refine ⟨_, exec_tinsert_room (tinsert_operandsInRange_iff.2 ⟨h.slot, hlen, hlen32, hsym⟩) h.present h.cap
    h.room_first, ?_⟩
  set s' := State.answered _ none
  have htree : s'.tree t = s.insertedTree t e.1 e.2.1 e.2.2 :=
    State.setTree_tree_same (s := s) (h.slots ▸ h.slot)
  have hfull : (insertWalk s.config e.2.2 e.path (s.tree t) s.nodes).full = false :=
    insertWalk_full_eq_false h.cap (by rw [CodeEntry.path, codewordBits_length]; exact h.room_first)
  have hown : (s'.tree t).walk e.path = .node e.2.2 .nil .nil :=
    htree ▸ insertWalk_walk_end hp hfull (h.leaves e List.mem_cons_self)
  have hothers : ∀ p, Apart p e.path → (s'.tree t).walk p = (s.tree t).walk p :=
    fun p hpe => htree ▸ insertWalk_walk_apart hp hpe
  refine ⟨⟨rfl, hown, hothers⟩, ?_⟩
  exact
    { slot := h.slot
      slots := List.length_set.trans h.slots
      cap := h.cap
      present := PTree.ne_nil_of_walk (p := e.path) (hown ▸ nofun)
      operands := fun f hf => h.operands f (List.mem_cons_of_mem e hf)
      apart := hrest
      room := h.room_rest
      leaves := fun f hf b => by
        rw [hothers f.path (hfirst f hf).symm]
        exact h.leaves f (List.mem_cons_of_mem e hf) b }

/-- All insertions: each keeps the ends that were reached before it, and those to come. -/
theorem runInstrs_insert_code (h : s.TakesCode t code) :
    ∃ u, runInstrs (code.map (CodeEntry.insert t)) s = .next u ∧
      u.responses = s.responses ++ List.replicate code.length ⟨.ok, none⟩ ∧
      (∀ e ∈ code, (u.tree t).walk e.path = .node e.2.2 .nil .nil) ∧
      ∀ p, (∀ e ∈ code, Apart p e.path) → (u.tree t).walk p = (s.tree t).walk p := by
  induction code generalizing s with
  | nil => exact ⟨s, rfl, (List.append_nil _).symm, nofun, fun _ _ => rfl⟩
  | cons e code ih =>
    obtain ⟨s1, hexec, hins, hready⟩ := exec_insert_entry h
    obtain ⟨u, hrun, hresp, hends, hkept⟩ := ih hready
    obtain ⟨hfirst, _⟩ := List.pairwise_cons.1 h.apart
    refine ⟨u, (runInstrs_cons hexec).trans hrun, ?_, ?_, fun p hp => ?_⟩
    · rw [hresp, hins.answered, List.append_assoc]
      rfl
    · rintro f (_ | ⟨_, hf⟩)
      · rw [hkept e.path hfirst, hins.own]
      · exact hends f hf
    · rw [hkept p fun f hf => hp f (List.mem_cons_of_mem e hf), hins.others p (hp e List.mem_cons_self)]

end Sys2Proof.Machine
end

section
/-! ## The walk of DECODE along bits that can be read (R208) -/

namespace Sys2Proof.Machine

variable {s s' t : State} {n : PTree} {k : Nat} {bits : List Bool}

/-- At a childless node the walk ends with its symbol. -/
theorem decodeWalk_leaf {sym : Word} (hz : n.child false = .nil) (ho : n.child true = .nil)
    (hsym : n.sym? = some sym) : decodeWalk n = Op.pure sym := by
  cases n with
  | nil => cases hsym
  | node v z o =>
    obtain rfl : z = .nil := hz
    obtain rfl : o = .nil := ho
    cases hsym
    rfl

/-- At a node with a child the walk reads a bit and goes on at the child it selects. -/
theorem decodeWalk_branch (h : ∃ b, (n.child b).present = true) :
    decodeWalk n = Op.bind readBit fun b => decodeWalk (n.child b) := by
  obtain ⟨b, hb⟩ := h
  cases n with
  | nil => cases hb
  | node v z o =>
    have hany : (z.present || o.present) = true := by
      cases b
      · exact Bool.or_eq_true_iff.2 (.inl hb)
      · exact Bool.or_eq_true_iff.2 (.inr hb)
    rw [decodeWalk, if_pos hany]
    congr 1
    funext b
    cases b <;> rfl

/-- Bits that can be read and lead to a node take the walk there. -/
theorem decodeWalk_of_bitRun (h : BitRun s bits s') (hn : (n.walk bits).present = true) :
    decodeWalk n s = decodeWalk (n.walk bits) s' := by
  induction h generalizing n with
  | nil => rfl
  | @cons s s1 s' b bits read _ ih =>
    have hchild : (n.child b).present = true := by
      cases hc : n.child b with
      | nil => rw [PTree.walk_cons, hc, PTree.walk_nil] at hn; cases hn
      | node => rfl
    rw [decodeWalk_branch ⟨b, hchild⟩, Op.bind_ok read, ih hn, PTree.walk_cons]

/-- On a tree every node of which has both children or none, only a bit read can fail (R211). -/
theorem decodeWalk_raises_of_isComplete (n : PTree) (hc : n.isComplete = true) (hn : n.present = true) :
    (decodeWalk n).Raises BitFault := by
  induction n with
  | nil => cases hn
  | node v z o ihz iho =>
    simp only [PTree.isComplete, Bool.and_eq_true, beq_iff_eq] at hc
    obtain ⟨⟨hboth, hz⟩, ho⟩ := hc
    unfold decodeWalk
    split
    · next hany =>
      rw [← hboth, Bool.or_self] at hany
      refine Op.raises_bind readBit_raises fun b => ?_
      split
      · exact iho ho (hboth ▸ hany)
      · exact ihz hz hany
    · exact Op.raises_pure

/-! ### The command -/

theorem decode_stateReady (hp : s.tree k ≠ .nil) (ho : s.openf = true) : (Instr.decode k).stateReady s = true :=
  Bool.and_eq_true_iff.2 ⟨slot_present hp, ho⟩

theorem decode_not_ready (h : s.tree k = .nil ∨ s.openf = false) : (Instr.decode k).stateReady s = false :=
  Bool.and_eq_false_iff.2 (h.imp_left slot_absent)

/-- The walk decides how DECODE ends: with a symbol. -/
theorem exec_decode_ok {sym : Word} (hk : k < s.config.nTrees) (hp : s.tree k ≠ .nil) (ho : s.openf = true)
    (h : decodeWalk (s.tree k) s = .ok sym s') : exec (.decode k) s = .next (s'.answered (some sym)) :=
  exec_of_body_ok (decide_eq_true hk) (decode_stateReady hp ho) (Op.bind_ok h)

/-- The walk decides how DECODE ends: with a fault. -/
theorem exec_decode_raise {f : Status} (hk : k < s.config.nTrees) (hp : s.tree k ≠ .nil) (ho : s.openf = true)
    (h : decodeWalk (s.tree k) s = .raise f s') : exec (.decode k) s = .next (s'.failed f) :=
  exec_of_body_raise (decide_eq_true hk) (decode_stateReady hp ho) (Op.bind_raise h)

/-- DECODE along bits that can be read and lead to a childless node. -/
theorem exec_decode_of_bitRun {sym : Word} (hk : k < s.config.nTrees) (ho : s.openf = true) (h : BitRun s bits s')
    (hwalk : (s.tree k).walk bits = n) (hz : n.child false = .nil) (hone : n.child true = .nil)
    (hsym : n.sym? = some sym) : exec (.decode k) s = .next (s'.answered (some sym)) := by
  have hn : n.present = true := by rw [← PTree.sym?_isSome, hsym]; rfl
  refine exec_decode_ok hk (PTree.ne_nil_of_walk (hwalk ▸ PTree.present_iff.1 hn)) ho ?_
  rw [decodeWalk_of_bitRun h (hwalk ▸ hn), hwalk, decodeWalk_leaf hz hone hsym, Op.pure_apply]

/-- The walk reaches a node with a child, and reads on. -/
theorem decodeWalk_at_branch (h : BitRun s bits s') (hwalk : (s.tree k).walk bits = n)
    (hchild : n.child false ≠ .nil ∨ n.child true ≠ .nil) :
    s.tree k ≠ .nil ∧
      decodeWalk (s.tree k) s = Op.bind readBit (fun b => decodeWalk (n.child b)) s' := by
  have hbranch : ∃ b, (n.child b).present = true :=
    hchild.elim (fun h => ⟨false, PTree.present_iff.2 h⟩) fun h => ⟨true, PTree.present_iff.2 h⟩
  obtain ⟨b, hb⟩ := hbranch
  have hn : n.present = true := PTree.present_of_child hb
  refine ⟨PTree.ne_nil_of_walk (hwalk ▸ PTree.present_iff.1 hn), ?_⟩
  rw [decodeWalk_of_bitRun h (hwalk ▸ hn), hwalk, decodeWalk_branch ⟨b, hb⟩]

/-- The next bit selects an absent child: NO_BRANCH, the bit consumed. -/
theorem exec_decode_noBranch {b : Bool} (hk : k < s.config.nTrees) (ho : s.openf = true) (h : BitRun s bits s')
    (hwalk : (s.tree k).walk bits = n) (hchild : n.child false ≠ .nil ∨ n.child true ≠ .nil)
    (hread : readBit s' = .ok b t) (habsent : n.child b = .nil) :
    exec (.decode k) s = .next (t.failed .noBranch) := by
  obtain ⟨hp, hdecode⟩ := decodeWalk_at_branch h hwalk hchild
  refine exec_decode_raise hk hp ho ?_
  rw [hdecode, Op.bind_ok hread, habsent, decodeWalk, Op.fail_apply]

/-- The next bit cannot be read: its fault is passed on. -/
theorem exec_decode_read_fault {f : Status} (hk : k < s.config.nTrees) (ho : s.openf = true) (h : BitRun s bits s')
    (hwalk : (s.tree k).walk bits = n) (hchild : n.child false ≠ .nil ∨ n.child true ≠ .nil)
    (hread : readBit s' = .raise f t) : exec (.decode k) s = .next (t.failed f) := by
  obtain ⟨hp, hdecode⟩ := decodeWalk_at_branch h hwalk hchild
  exact exec_decode_raise hk hp ho (hdecode.trans (Op.bind_raise hread))

/-! ### Responses -/

theorem readBit_withResponses {r : Res Bool} (h : readBit s = r) (rs : List Response) :
    readBit (s.withResponses rs) = r.withResponses rs :=
  (readBit_ignores s rs).trans (congrArg (Res.withResponses rs) h)

theorem BitRun.fault_eq (h : BitRun s bits s') : s'.fault = s.fault := by rw [h.frame]

/-- A response that is not OK carries no result (R93). -/
theorem result_eq_none_of_fault {i : Instr} {rs : List Response} {r : Response} (h : exec i s = .next t)
    (hr : t.responses = rs ++ [r]) (hk : r.status ≠ .ok) : r = ⟨r.status, none⟩ := by
  rcases exec_response h hr with ⟨_, rfl⟩ | ⟨_, _, rfl⟩ | ⟨_, _, _, rfl⟩ | ⟨_, _, _, rfl⟩
  · rfl
  · rfl
  · exact absurd rfl hk
  · rfl

/-- The status of a command that a state is not ready for (R241). -/
theorem status_of_not_ready {i : Instr} {rs : List Response} {r : Response} (hready : i.stateReady s = false)
    (h : exec i s = .next t) (hr : t.responses = rs ++ [r]) : r.status = .invalidArgs ∨ r.status = .badState := by
  cases hargs : i.operandsInRange s.config with
  | false =>
    rw [exec_of_operands_out hargs] at h
    cases h
    exact .inl (congrArg Response.status (last_response_eq hr.symm))
  | true =>
    rw [exec_of_not_ready hargs hready] at h
    cases h
    exact .inr (congrArg Response.status (last_response_eq hr.symm))

end Sys2Proof.Machine
end

section
/-! ## The obligations of 42_prefix_tree -/

namespace Sys2Proof.PrefixTreeProofs

open Sys2Proof.Machine

/-- Settles O38: with the invariant the slot's share of the pool is what is given back. -/
theorem tdestroyCommand : Obligations.TdestroyCommand := by
  unfold Obligations.TdestroyCommand
  refine ⟨fun t ht => decodePacket_slot (op := 0x12) ht rfl (decide_eq_true ht), fun s t =>
    ⟨fun ht => exec_of_operands_out (decide_eq_false (Nat.not_lt.2 ht)),
      fun ht hp => exec_of_not_ready (decide_eq_true ht) (slot_absent hp), exec_tdestroy_present,
      fun ht hp hs u hu => ?_⟩⟩
  rw [exec_tdestroy_present ht hp] at hu
  cases hu
  have hslot : t < s.trees.length := hs.slotCount ▸ ht
  exact ⟨State.setTree_tree_same (s := s) hslot, fun _ => State.setTree_tree_other (s := s),
    State.setTree_nil_treesReg (s := s) hslot, hs.releaseTree_nodes ht⟩

/-- Settles O40: the new tree is the one the walk leaves. -/
theorem tinsertWritesSymbol : Obligations.TinsertWritesSymbol := by
  unfold Obligations.TinsertWritesSymbol
  intro s t len cw sym path hpath ht hlen hlen32 hsym hp hcap hroom
  obtain rfl := hpath.trans (codewordBits_eq cw len).symm
  refine ⟨s.insertedTree t len cw sym,
    exec_tinsert_room (tinsert_operandsInRange_iff.2 ⟨ht, hlen, hlen32, hsym⟩) hp hcap hroom, ?_⟩
  exact insertWalk_sym?_room s.config sym hcap _ (s.tree t) s.nodes (PTree.present_iff.2 hp)
    (by rwa [codewordBits_length])

/-- Settles O41: the new tree is the one the walk leaves when the pool runs out. -/
theorem tinsertPoolExhausted : Obligations.TinsertPoolExhausted := by
  unfold Obligations.TinsertPoolExhausted
  intro s t len cw sym path hpath ht hlen hlen32 hsym hp hcap hle hover
  obtain rfl := hpath.trans (codewordBits_eq cw len).symm
  refine ⟨s.insertedTree t len cw sym,
    exec_tinsert_full (tinsert_operandsInRange_iff.2 ⟨ht, hlen, hlen32, hsym⟩) hp hcap hle hover, ?_⟩
  exact insertWalk_sym?_full s.config sym hcap _ (s.tree t) s.nodes (PTree.present_iff.2 hp) hle
    (by rwa [codewordBits_length])

/-- Settles O42: a fresh tree takes the code, since an insertion changes nothing along the paths apart from
its own. -/
theorem prefixCodeBecomesDecodable : Obligations.PrefixCodeBecomesDecodable := by
  unfold Obligations.PrefixCodeBecomesDecodable
  intro s t code path hpath ht hslots hcap hroot hops hapart hroom
  obtain rfl : path = CodeEntry.path := funext fun e => (hpath e).trans (codewordBits_eq e.2.1 e.1).symm
  have hready : s.TakesCode t code :=
    { slot := ht, slots := hslots, cap := hcap, operands := hops, apart := hapart, room := hroom
      present := hroot ▸ nofun
      leaves := fun e _ => hroot ▸ PTree.child_walk_fresh s.config.placeholder e.path }
  obtain ⟨u, hrun, hresp, hends, _⟩ := runInstrs_insert_code hready
  exact ⟨u, hrun, hresp, hends⟩

/-- Settles O44: with the filter off the bits to come are those that are read. -/
theorem decodeReturnsSymbol : Obligations.DecodeReturnsSymbol := by
  unfold Obligations.DecodeReturnsSymbol
  intro s t path sym ht ho hef hwalk h
  refine ⟨exec_decode_of_bitRun ht ho (bitRun_of_holdsBits hef h) hwalk rfl rfl rfl, ?_⟩
  rintro rfl
  exact s.afterPlainBits_zero

/-- Settles O45: the walk reads the bits the RDBITs read, and reads do not look at the responses. -/
theorem decodeFollowsRdbits : Obligations.DecodeFollowsRdbits := by
  unfold Obligations.DecodeFollowsRdbits
  intro s u t path n ht ho hrun hr hwalk _
  have hbits : BitRun s path (u.withResponses s.responses) := bitRun_of_rdbits hrun hr
  refine ⟨fun hz hone sym hsym => exec_decode_of_bitRun ht ho hbits hwalk hz hone hsym,
    fun hchild v r hv hvr => ⟨?_, fun hk => ?_⟩⟩
  · rintro b rfl habsent
    obtain ⟨b', s', hread, hb, rfl⟩ := readBit_of_exec_rdbit hv hvr
    obtain rfl := bitWord_inj.1 (Option.some.inj hb)
    have hread' := readBit_withResponses hread s.responses
    have hfault : s'.fault = s.fault := (hbits.concat hread').fault_eq
    rw [← hfault]
    exact exec_decode_noBranch ht ho hbits hwalk hchild hread' habsent
  · have hou : u.openf = true := hbits.openf_eq.trans ho
    obtain ⟨s', hread, rfl⟩ :=
      readBit_of_exec_rdbit_fault hou hv hk (hvr.trans (by rw [← result_eq_none_of_fault hv hvr hk]))
    exact exec_decode_read_fault ht ho hbits hwalk hchild (readBit_withResponses hread s.responses)

/-- Settles O46: an absent slot fails the state test, and on a complete tree only bit reads fail. -/
theorem completeTreeHasNoMissingBranch : Obligations.CompleteTreeHasNoMissingBranch := by
  unfold Obligations.CompleteTreeHasNoMissingBranch
  intro s u t r hc hu hr
  by_cases hp : s.tree t = .nil
  · rcases status_of_not_ready (decode_not_ready (.inl hp)) hu hr with h | h <;> rw [h] <;> nofun
  rcases exec_response hu hr with ⟨_, rfl⟩ | ⟨_, _, rfl⟩ | ⟨_, _, _, rfl⟩ | ⟨k, s', hb, rfl⟩
  · nofun
  · nofun
  · nofun
  · rcases Op.bind_eq_raise hb with hwalk | ⟨_, _, _, hret⟩
    · rcases decodeWalk_raises_of_isComplete _ hc (PTree.present_iff.2 hp) s k s' hwalk with rfl | rfl <;> nofun
    · cases hret

/-- Settles O37: the root is a fresh node, which sets the slot's bit of TREES. -/
theorem tcreateCommand : Obligations.TcreateCommand := by
  unfold Obligations.TcreateCommand
  refine ⟨fun t ht => decodePacket_slot (op := 0x10) ht rfl (decide_eq_true ht), fun s t =>
    ⟨fun ht => exec_of_operands_out (decide_eq_false (Nat.not_lt.2 ht)),
      fun ht hp => exec_of_not_ready (decide_eq_true ht) (beq_eq_false_iff_ne.2 hp), exec_tcreate_absent,
      fun ht hp hslots _ u hu => ?_⟩⟩
  rw [exec_tcreate_absent ht hp] at hu
  cases hu
  have hslot : t < s.trees.length := hslots ▸ ht
  exact ⟨State.setTree_tree_same (s := s) hslot, fun _ => State.setTree_tree_other (s := s),
    State.setTree_treesReg_of_present (s := s) hslot rfl⟩

/-- Settles O39: format I, then the operand test, then the state test. -/
theorem tinsertPreconditions : Obligations.TinsertPreconditions := by
  unfold Obligations.TinsertPreconditions
  refine ⟨fun w0 w1 w2 hop hzero => ?_, fun s t len cw sym => ⟨fun hout => ?_, fun ht hlen hlen32 hsym hp => ?_⟩⟩
  · exact (if_pos hop).trans (if_pos hzero)
  · refine exec_of_operands_out (Bool.eq_false_iff.2 fun hin => ?_)
    obtain ⟨ht, hlen, hlen32, hsym⟩ := tinsert_operandsInRange_iff.1 hin
    omega
  · exact exec_of_not_ready (tinsert_operandsInRange_iff.2 ⟨ht, hlen, hlen32, hsym⟩) (slot_absent hp)

/-- Settles O43: the operand test, then the two state tests. -/
theorem decodePreconditions : Obligations.DecodePreconditions := by
  unfold Obligations.DecodePreconditions
  exact ⟨fun t ht => decodePacket_slot (op := 0x13) ht rfl (decide_eq_true ht), fun s t =>
    ⟨fun ht => exec_of_operands_out (decide_eq_false (Nat.not_lt.2 ht)),
      fun ht h => exec_of_not_ready (decide_eq_true ht) (decode_not_ready h)⟩⟩

end Sys2Proof.PrefixTreeProofs
end

section
/-! ## The packet of a step (R240, R241) -/

namespace Sys2Proof

theorem decodePacket_tablePacket {nbits w : Nat} {i : Instr} (h : decodeTableWord nbits w = some i) :
    decodePacket (tablePacket nbits w) = .ok i := by
  rw [decodeTableWord] at h
  cases hd : decodePacket (tablePacket nbits w) with
  | error => rw [hd] at h; cases h
  | ok j => rw [hd] at h; cases h; rfl

namespace Machine

variable {s : State} {ws : Packet} {rest : List HostInput} {i : Instr}

theorem runPacket_of_decoded (h : decodePacket ws = .ok i) (s : State) : runPacket ws s = exec i s := by
  simp only [runPacket, h]

theorem step_of_decoded (hin : s.inputs = .packet ws :: rest) (h : decodePacket ws = .ok i) :
    step s = exec i { s with inputs := rest } := by
  rw [step_packet hin, runPacket_of_decoded h]

/-- With nothing pending the block is idle (R275). -/
theorem step_idle (h : s.inputs = []) : step s = .next s := by
  simp only [step, h]

end Machine
end Sys2Proof
end

section
/-! ## RDREG and the registers by number (R39, R245) -/

namespace Sys2Proof.Machine

variable {s : State} {r : Nat}

theorem exec_rdreg (hr : r ≤ 8) : exec (.rdreg r) s = .next (s.answered (s.reg r)) :=
  exec_of_body_ok (decide_eq_true hr) rfl rfl

theorem State.reg_isSome (s : State) (hr : r ≤ 8) : (s.reg r).isSome = true := by
  interval_cases r <;> rfl

/-- With no more slots than TREES has bits, its bits are the slots and nothing else (R36). -/
theorem State.treesReg_getLsbD_of_slots (h : s.trees.length ≤ 32) (t : Nat) :
    s.treesReg.getLsbD t = decide (s.tree t ≠ .nil) := by
  have hpresent : (s.tree t).present = decide (s.tree t ≠ .nil) := by
    rw [Bool.eq_iff_iff, PTree.present_iff, decide_eq_true_iff]
  rw [← hpresent]
  rcases Nat.lt_or_ge t 32 with ht | ht
  · exact s.treesReg_getLsbD ht
  · have habsent : s.tree t = .nil := List.getD_eq_default _ _ (h.trans ht)
    rw [habsent, BitVec.getLsbD_of_ge _ _ ht, PTree.present_nil]

end Sys2Proof.Machine
end

section
/-! ## Commands complete while BUF holds LEN bytes (R240, R290)

The one stop of a primitive is a read below LEN of a byte the host has not supplied. With BUF supplied each primitive
answers, and it leaves BUF supplied for what comes next. -/

namespace Sys2Proof.Machine

variable {α β : Type}

/-- With BUF supplied the primitive raises, or it returns with BUF still supplied. -/
def Op.Answers (x : Op α) : Prop :=
  ∀ s : State, s.BufSupplied → (∃ v s', x s = .ok v s' ∧ s'.BufSupplied) ∨ ∃ k s', x s = .raise k s'

theorem Op.Answers.ne_stop {x : Op α} {s : State} (hx : x.Answers) (hs : s.BufSupplied) (f : Fault) :
    x s ≠ .stop f := by
  rcases hx s hs with ⟨v, s', h, _⟩ | ⟨k, s', h⟩ <;> rw [h] <;> nofun

theorem Op.answers_ok {v : State → α} {g : State → State} (hg : ∀ s, s.BufSupplied → (g s).BufSupplied) :
    Op.Answers fun s => .ok (v s) (g s) :=
  fun s hs => .inl ⟨v s, g s, rfl, hg s hs⟩

theorem Op.answers_return {v : State → α} : Op.Answers fun s => .ok (v s) s := Op.answers_ok fun _ => id

theorem Op.answers_pure (v : α) : (Op.pure v).Answers := Op.answers_return

theorem Op.answers_fail {k : Status} : (Op.fail k : Op α).Answers := fun s _ => .inr ⟨k, s, rfl⟩

theorem Op.answers_bind {x : Op α} {f : α → Op β} (hx : x.Answers) (hf : ∀ v, (f v).Answers) :
    (Op.bind x f).Answers := by
  intro s hs
  rcases hx s hs with ⟨v, s', h, hs'⟩ | ⟨k, s', h⟩
  · rw [Op.bind_ok h]
    exact hf v s' hs'
  · rw [Op.bind_raise h]
    exact .inr ⟨k, s', rfl⟩

theorem Op.answers_require {c : State → Bool} {k : Status} {x : Op α} (hx : x.Answers) :
    (Op.require c k x).Answers := by
  intro s hs
  cases hc : c s with
  | true =>
    rw [Op.require_true hc]
    exact hx s hs
  | false => exact .inr ⟨k, s, Op.require_false hc⟩

/-! ### The cursor and the escape filter -/

/-- The test POS < LEN comes before the read (R131), so the byte is one that R290 promises. -/
theorem curPeek_answers : curPeek.Answers := by
  intro s hs
  rcases curPeek_cases s with ⟨_, h⟩ | ⟨_, b, _, h⟩ | ⟨hlt, habsent, _⟩
  · exact .inr ⟨_, _, h⟩
  · exact .inl ⟨b, s, h, hs⟩
  · have hsome := hs _ hlt
    rw [habsent] at hsome
    cases hsome

theorem curRead_answers : curRead.Answers :=
  Op.answers_bind curPeek_answers fun _ => Op.answers_ok fun _ => id

theorem skipRun_answers (k : Nat) : (skipRun k).Answers := by
  induction k with
  | zero => exact Op.answers_fail
  | succ k ih =>
    refine Op.answers_bind curPeek_answers fun m => ?_
    split
    · exact Op.answers_bind curRead_answers fun _ => ih
    · exact Op.answers_return

theorem resolveEscape_answers (k : Nat) : (resolveEscape k).Answers := by
  induction k with
  | zero => exact Op.answers_fail
  | succ k ih =>
    refine Op.answers_bind (fun s => skipRun_answers s.remaining s) fun m => ?_
    split
    · exact Op.answers_bind curRead_answers fun _ => Op.answers_return
    split
    · refine Op.answers_bind curRead_answers fun _ => Op.answers_bind curRead_answers fun b s => ?_
      split
      · exact ih s
      · exact Op.answers_pure b s
    · exact Op.answers_fail

theorem dataByte_answers (b : Byte) : (dataByte b).Answers := by
  intro s
  unfold dataByte
  split
  · exact resolveEscape_answers _ s
  · exact Op.answers_pure b s

theorem fetchDataByte_answers : fetchDataByte.Answers :=
  Op.answers_require <| Op.answers_bind curRead_answers fun b =>
    Op.answers_bind (dataByte_answers b) fun _ => Op.answers_ok fun _ => id

/-! ### Bit reads -/

theorem readBit_answers : readBit.Answers := by
  refine Op.answers_bind (fun s => ?_) fun _ => Op.answers_ok fun _ => id
  split
  · exact fetchDataByte_answers s
  · exact Op.answers_pure () s

theorem readBits_answers (n : Nat) : ∀ i acc, (readBits i acc n).Answers := by
  induction n with
  | zero => exact fun _ _ => Op.answers_return
  | succ n ih => exact fun _ _ => Op.answers_bind readBit_answers fun _ s => ih _ _ s

theorem decodeWalk_answers (t : PTree) : (decodeWalk t).Answers := by
  induction t with
  | nil => exact Op.answers_fail
  | node v z o ihz iho =>
    unfold decodeWalk
    split
    · refine Op.answers_bind readBit_answers fun b => ?_
      split
      · exact iho
      · exact ihz
    · exact Op.answers_return

/-! ### The commands -/

/-- What a body does after clearing BITOFF. -/
theorem clearBitoff_bind_answers {x : Op α} (hx : x.Answers) : (Op.bind clearBitoff fun _ => x).Answers :=
  Op.answers_bind (Op.answers_ok fun _ => id) fun _ => hx

variable {i : Instr} {s s' t : State}

theorem execBody_ne_stop (i : Instr) (hs : s.BufSupplied) (f : Fault) : execBody i s ≠ .stop f := by
  have reads {g : Byte → Op (Option Word)} (hg : ∀ b, (g b).Answers) : (Op.bind curRead g).Answers :=
    Op.answers_bind curRead_answers hg
  cases i with
  | openStream | close | pos | endpos | hasmore | align | tcreate | tdestroy | rdreg => nofun
  | tinsert t len cw sym =>
    simp only [execBody, insertBody]
    split <;> nofun
  | peek => exact (Op.answers_bind curPeek_answers fun _ => Op.answers_return).ne_stop hs f
  | rdbyte => exact (clearBitoff_bind_answers <| reads fun _ => Op.answers_return).ne_stop hs f
  | rdword =>
    exact (clearBitoff_bind_answers <| reads fun _ => reads fun _ => Op.answers_return).ne_stop hs f
  | rdint =>
    exact (clearBitoff_bind_answers <| reads fun _ => reads fun _ => reads fun _ => reads fun _ =>
      Op.answers_return).ne_stop hs f
  | rdbit => exact (Op.answers_bind readBit_answers fun _ => Op.answers_return).ne_stop hs f
  | rdbits n => exact (Op.answers_bind (readBits_answers n 0 0) fun _ => Op.answers_return).ne_stop hs f
  | decode t =>
    have hwalk : Op.Answers fun s => decodeWalk (s.tree t) s := fun s => decodeWalk_answers (s.tree t) s
    exact (Op.answers_bind hwalk fun _ => Op.answers_return).ne_stop hs f

/-- A command has a next state: a failed test is one, and the body does not stop. -/
theorem exists_exec_next (i : Instr) (hs : s.BufSupplied) : ∃ t, exec i s = .next t := by
  cases hargs : i.operandsInRange s.config with
  | false => exact ⟨_, exec_of_operands_out hargs⟩
  | true =>
    cases hready : i.stateReady s with
    | false => exact ⟨_, exec_of_not_ready hargs hready⟩
    | true =>
      rw [exec_of_ready hargs hready]
      rcases complete_cases (execBody i) s with ⟨_, _, _, h⟩ | ⟨_, _, _, h⟩ | ⟨f, h, _⟩
      · exact ⟨_, h⟩
      · exact ⟨_, h⟩
      · exact absurd h (execBody_ne_stop i hs f)

end Sys2Proof.Machine
end

section
/-! ## The one response of a command and its result (R90, R93) -/

namespace Sys2Proof.Machine

variable {i : Instr} {s s' t : State} {rs : List Response} {r : Response}

/-- Responses are given on completion only (R93). -/
theorem Effect.responses_eq (h : Effect s i s') : s'.responses = s.responses := by
  cases h with
  | bytesRead _ _ moved => rw [moved.onlyPos]
  | bitsRead _ _ _ moved => rw [moved.frame]
  | unchanged | opened | closed | aligned | created | inserted | destroyed => rfl

theorem State.Completes.exists_response (h : State.Completes s' t) : ∃ r, t.responses = s'.responses ++ [r] := by
  rcases h with ⟨r, rfl⟩ | ⟨k, rfl⟩ <;> exact ⟨_, rfl⟩

/-- A command gives one response, and leaves the host's inputs. -/
theorem exec_frame_host (h : exec i s = .next t) :
    (∃ r, t.responses = s.responses ++ [r]) ∧ t.inputs = s.inputs := by
  obtain ⟨s', he, hc⟩ := exec_effect h
  obtain ⟨_, _, hinputs⟩ := he.buf_config_inputs_eq
  refine ⟨he.responses_eq ▸ hc.exists_response, ?_⟩
  rw [hc.frame]
  exact hinputs

/-- A body that returns gives a result exactly when R93 lists its command. RDREG needs its operand test. -/
theorem execBody_returns_result {c : Config} (h : i.operandsInRange c = true) :
    (execBody i).Returns (·.isSome = i.returnsResult) := by
  have last {v : State → Word} : Op.Returns (·.isSome = true) fun s => .ok (some (v s)) s :=
    Op.returns_ok fun _ => rfl
  unfold execBody
  cases i with
  | openStream | close | align | tcreate | tdestroy => exact Op.returns_bind fun _ => Op.returns_ok fun _ => rfl
  | tinsert t len cw sym =>
    intro s v s' e
    simp only [insertBody] at e
    split at e <;> cases e
    rfl
  | pos | endpos | hasmore => exact last
  | peek | rdbit | rdbits | decode => exact Op.returns_bind fun _ => last
  | rdbyte => exact Op.returns_bind fun _ => Op.returns_bind fun _ => last
  | rdword => exact Op.returns_bind fun _ => Op.returns_bind fun _ => Op.returns_bind fun _ => last
  | rdint =>
    exact Op.returns_bind fun _ => Op.returns_bind fun _ => Op.returns_bind fun _ => Op.returns_bind fun _ =>
      Op.returns_bind fun _ => last
  | rdreg r => exact Op.returns_ok fun s => s.reg_isSome (of_decide_eq_true h)

theorem operandsInRange_of_ok {v : Option Word} (h : exec i s = .next t) (hr : t.responses = rs ++ [⟨.ok, v⟩]) :
    i.operandsInRange s.config = true := by
  rw [← Bool.not_eq_false]
  intro hargs
  rw [exec_of_operands_out hargs] at h
  cases h
  cases last_response_eq hr.symm

/-- The response has a result exactly when R93 says. -/
theorem result_isSome_iff (h : exec i s = .next t) (hr : t.responses = rs ++ [r]) :
    r.result.isSome = true ↔ r.status = .ok ∧ i.returnsResult = true := by
  by_cases hok : r.status = .ok
  · obtain ⟨k, v⟩ := r
    obtain rfl : k = .ok := hok
    obtain ⟨s', hbody, _⟩ := exec_ok_inv h hr
    have hsome := execBody_returns_result (operandsInRange_of_ok h hr) s v s' hbody
    simp [hsome]
  · rw [result_eq_none_of_fault h hr hok]
    simp [hok]

end Sys2Proof.Machine
end

section
/-! ## The obligations of 43_system -/

namespace Sys2Proof.SystemProofs

open Sys2Proof.Machine

/-- Settles O7: a command completes, since no read of it stops, and an illegal packet is answered without a
result. -/
theorem everyPacketAnswered : Obligations.EveryPacketAnswered := by
  unfold Obligations.EveryPacketAnswered
  intro s ws rest hs hin
  cases hd : decodePacket ws with
  | ok i =>
    rw [step_of_decoded hin hd]
    obtain ⟨t, ht⟩ := exists_exec_next (s := { s with inputs := rest }) i hs
    obtain ⟨⟨r, hr⟩, hinputs⟩ := exec_frame_host ht
    refine ⟨t, r, ht, hr, hinputs, (result_isSome_iff ht hr).trans (and_congr_right fun _ => ?_)⟩
    exact ⟨fun hi => ⟨i, rfl, hi⟩, fun ⟨_, hj, hi⟩ => by cases hj; exact hi⟩
  | error e =>
    rw [step_packet hin, runPacket_of_not_decoded (fun i hi => by cases hd.symm.trans hi)]
    refine ⟨_, ⟨.illegalCommand, none⟩, rfl, rfl, rfl, ?_⟩
    simp

/-- Settles O5: a step takes the oldest input, which withFetchWord has put first. -/
theorem stepRunsDecodedCommand : Obligations.StepRunsDecodedCommand := by
  unfold Obligations.StepRunsDecodedCommand
  exact ⟨fun _ _ _ _ => step_of_decoded,
    fun s nbits w _ h => step_of_decoded (s.withFetchWord_inputs nbits w) (decodePacket_tablePacket h),
    fun _ => step_idle⟩

/-- Settles O47: after its operand test RDREG answers the register of R39. -/
theorem rdregCommand : Obligations.RdregCommand := by
  unfold Obligations.RdregCommand
  exact ⟨fun r hr => decodePacket_slot (op := 0x1F) hr rfl (decide_eq_true hr), fun s =>
    ⟨fun r hr => exec_of_operands_out (decide_eq_false (Nat.not_le.2 hr)),
      exec_rdreg (by decide), exec_rdreg (by decide), exec_rdreg (by decide), exec_rdreg (by decide),
      exec_rdreg (by decide), exec_rdreg (by decide),
      fun hslots => ⟨s.treesReg, exec_rdreg (by decide), State.treesReg_getLsbD_of_slots hslots⟩,
      exec_rdreg (by decide), exec_rdreg (by decide)⟩⟩

end Sys2Proof.SystemProofs
end

section
/-! ## The statuses of the two tests (R251, R262) -/

namespace Sys2Proof.Instr

variable {i : Instr}

/-- A command whose operand test can fail is listed under INVALID_ARGS. -/
theorem invalidArgs_mem_mayRaise {c : Config} (h : i.operandsInRange c = false) : .invalidArgs ∈ i.mayRaise := by
  cases i with
  | openStream | rdbits | tcreate | tinsert | tdestroy | decode | rdreg => exact List.mem_cons_self
  | close | pos | endpos | peek | hasmore | rdbyte | rdword | rdint | rdbit | align => cases h

/-- A command whose state test can fail is listed under BAD_STATE: every one but RDREG. -/
theorem badState_mem_mayRaise {s : Machine.State} (h : i.stateReady s = false) : .badState ∈ i.mayRaise := by
  cases i with
  | close | pos | endpos | peek | hasmore | rdbyte | rdword | rdint | rdbit | align => exact List.mem_cons_self
  | openStream | rdbits | tcreate | tinsert | tdestroy | decode =>
    exact List.mem_cons_of_mem _ List.mem_cons_self
  | rdreg => cases h

end Sys2Proof.Instr
end

section
/-! ## The FAULT latch over a step (R255) -/

namespace Sys2Proof.Machine

variable {s s' t : State} {rs : List Response} {r : Response}

/-- Completion latches the code of the status it answers, unless a code is held already or the status is OK. -/
theorem State.Completes.fault_latched (h : State.Completes s' t) (hr : t.responses = rs ++ [r]) :
    t.fault = if s'.fault = 0 ∧ r.status ≠ .ok then r.status.code else s'.fault := by
  rcases h with ⟨v, rfl⟩ | ⟨k, rfl⟩
  · obtain rfl := last_response_eq hr.symm
    exact (if_neg fun hlatch => hlatch.2 rfl).symm
  · obtain rfl := last_response_eq hr.symm
    rw [State.failed_fault]
    by_cases hk : k = .ok
    · -- the code of OK is the 0 that the latch holds, so writing it changes nothing
      subst hk
      exact (ite_eq_right_iff.2 Eq.symm).trans (if_neg fun hlatch => hlatch.2 rfl).symm
    · exact if_congr (and_iff_left hk).symm rfl rfl

/-- A packet, legal or not, has the effect of a command before it completes, and no effect writes FAULT. -/
theorem runPacket_fault_latched {ws : Packet} (h : runPacket ws s = .next t) (hr : t.responses = rs ++ [r]) :
    t.fault = if s.fault = 0 ∧ r.status ≠ .ok then r.status.code else s.fault := by
  obtain ⟨i, s', he, hc⟩ := runPacket_effect h
  rw [hc.fault_latched hr, he.fault_eq]

theorem hostBufWrite_fault_eq {base : Nat} {bytes : List Byte} (h : hostBufWrite base bytes s = .next t) :
    t.fault = s.fault := by
  cases hcov : changesCovered s base bytes with
  | true => cases (hostBufWrite_of_changesCovered hcov).symm.trans h
  | false =>
    cases (hostBufWrite_of_keepsCovered hcov).symm.trans h
    rfl

end Sys2Proof.Machine
end

section
/-! ## The obligations of 60_exceptions -/

namespace Sys2Proof.ExceptionProofs

open Sys2Proof.Machine

/-- Settles O49: the state test comes right after the operand test, and nothing after it raises BAD_STATE. -/
theorem stateCheckedSecond : Obligations.StateCheckedSecond := by
  unfold Obligations.StateCheckedSecond
  intro s i hargs
  refine ⟨exec_of_not_ready hargs, fun hready t r h hr => ?_⟩
  rcases exec_response h hr with ⟨_, rfl⟩ | ⟨_, hnot, _⟩ | ⟨_, _, _, rfl⟩ | ⟨k, s', hb, rfl⟩
  · nofun
  · cases hready.symm.trans hnot
  · nofun
  · obtain ⟨_, _, hk⟩ := execBody_raises i s k s' hb
    exact hk

/-- Settles O50: the status is one of a failed test, OK, or what the body raised, and each stands in the list. -/
theorem statusCausesAsListed : Obligations.StatusCausesAsListed := by
  unfold Obligations.StatusCausesAsListed
  intro s t i r h hr
  rcases exec_response h hr with ⟨hout, rfl⟩ | ⟨_, hnot, rfl⟩ | ⟨_, _, _, rfl⟩ | ⟨k, s', hb, rfl⟩
  · exact .inr (Instr.invalidArgs_mem_mayRaise hout)
  · exact .inr (Instr.badState_mem_mayRaise hnot)
  · exact .inl rfl
  · obtain ⟨hk, _⟩ := execBody_raises i s k s' hb
    exact .inr hk

/-- Settles O51: only completion writes FAULT. -/
theorem faultLatchTakesFirstCode : Obligations.FaultLatchTakesFirstCode := by
  unfold Obligations.FaultLatchTakesFirstCode
  refine ⟨fun s t ws rest r hin h hr => ?_, fun s t base bytes rest hin h => ?_, fun s t hin h => ?_⟩
  · rw [step_packet hin] at h
    exact runPacket_fault_latched (s := { s with inputs := rest }) h hr
  · rw [step_bufWrite hin] at h
    exact hostBufWrite_fault_eq (s := { s with inputs := rest }) h
  · cases (step_idle hin).symm.trans h
    rfl

end Sys2Proof.ExceptionProofs
end

section
/-! ## Reset signalled by the host (R280), and a byte the host has not supplied -/

namespace Sys2Proof.Machine

variable {s : State}

/-- The step of a pending reset takes it from the inputs and resets the block (R280). -/
theorem step_reset {rest : List HostInput} (h : s.inputs = .reset :: rest) :
    step s = .next ({ s with inputs := rest } : State).hostReset := by
  simp only [step, h]

/-- A command that passes its tests and whose body stops gives the run no meaning. -/
theorem exec_of_body_stop {i : Instr} {f : Fault} (hargs : i.operandsInRange s.config = true)
    (hready : i.stateReady s = true) (hb : execBody i s = .stop f) : exec i s = .fault f :=
  (exec_of_ready hargs hready).trans (complete_stop hb)

/-- Clearing BITOFF does not keep a byte read from the missing byte at POS (log 4). -/
theorem clearBitoff_curRead_absent {α : Type} (f : Byte → Op α) (hlt : s.pos.toNat < s.len.toNat)
    (habsent : s.buf.read s.pos.toNat = none) :
    Op.bind clearBitoff (fun _ => Op.bind curRead f) s = .stop (.bufByteAbsent s.pos.toNat) :=
  Op.bind_stop (x := curRead) (s := { s with bitoff := 0 }) (curRead_absent hlt habsent)

end Sys2Proof.Machine
end

section
/-! ## The obligations of 70_reset_and_hazards -/

namespace Sys2Proof.ResetProofs

open Sys2Proof.Machine

/-- Settles O2: the pending reset is taken, and `State.hostReset` is the stated state. -/
theorem hostResetRestoresResetState : Obligations.HostResetRestoresResetState := by
  unfold Obligations.HostResetRestoresResetState
  exact fun _ _ hin => step_reset hin

/-- Settles O59: on an open stream the tests pass, and the first thing read is the missing byte at POS. -/
theorem unsuppliedByteStops : Obligations.UnsuppliedByteStops := by
  unfold Obligations.UnsuppliedByteStops
  intro s ho hlt habsent
  exact ⟨exec_of_body_stop rfl ho (Op.bind_stop (curPeek_absent hlt habsent)),
    exec_of_body_stop rfl ho (clearBitoff_curRead_absent _ hlt habsent),
    exec_of_body_stop rfl ho (clearBitoff_curRead_absent _ hlt habsent),
    exec_of_body_stop rfl ho (clearBitoff_curRead_absent _ hlt habsent)⟩

end Sys2Proof.ResetProofs
end
